-- ==== Sys2Proof/Word.lean ====
section
/-!
DEFINITION. The words of the request port and of the LCD side: the port widths of `30_encoding.md` R71 to R73 and
the bit strings of the table's LCD-side formats (R76 to R80), as raw data that nothing has decoded yet.
-/
namespace Sys2Proof

/-- An 8-bit quantity: a bus value, a character code, a line number. -/
abbrev Byte := BitVec 8

/-- Half a byte: what one transfer on four lines carries (R53). -/
abbrev Nibble := BitVec 4

/-- The `req_time` port, `TIME_W` = 16 bits of microseconds (R73). -/
abbrev Micros := BitVec 16

/-- A request on the port (R71, R73): the tag `req_op` and every operand port. An operation reads only the ports
its row of R72 names and ignores the others. -/
structure Request where
  op : BitVec 4
  dir : BitVec 1 := 0
  value : Byte := 0
  cmd : BitVec 1 := 0
  time : Micros := 0
  key : BitVec 4 := 0
  line : Byte := 0
  typing : BitVec 1 := 0
  text : List Byte := []
  deriving DecidableEq, Repr

/-- A bit string of one of the opcode table's LCD-side formats, not yet decoded. `cmd8` carries the row's key index
and its byte, `raw8` and `raw4` the repetition (0 first) and the pattern, the last four the levels `RW`, `RS`,
`D[..]` of one transaction (two for `b4`), most significant first, as the table's encodings write them. -/
inductive LcdWord where
  | cmd8 (key : BitVec 4) (byte : Byte)
  | raw8 (repetition : BitVec 2) (byte : Byte)
  | raw4 (repetition : BitVec 2) (nibble : Nibble)
  | b8 (levels : BitVec 10)
  | b4 (levels : BitVec 12)
  | r4 (levels : BitVec 6)
  | st (levels : BitVec 10)
  deriving DecidableEq, Repr

/-- What can stand at the engine's port for one step: a host request (format `REQ`), or a word of an LCD-side row of
the opcode table. DESIGN CHOICE (log entry 9): the spec's host presents only requests. -/
inductive PortWord where
  | request (r : Request)
  | lcd (w : LcdWord)
  deriving DecidableEq, Repr

end Sys2Proof
end

