-- ==== Sys2Proof/Syntax.lean ====
section
/-!
DEFINITION. The syntax: one constructor of `Instr` for each of the 27 rows of spec/opcode_table.json, and the names
of what the decoder rejects.
-/
namespace Sys2Proof

/-- The two targets of SET_DIRECTION (R100). -/
inductive Direction where
  | driving
  | released
  deriving DecidableEq, Repr

/-- The closed key set of the Command Table, in the document's listing order (R78). The reserved indices 9 to 15 have
no constructor (R84). -/
inductive CmdKey where
  | default
  | displayOn
  | displayOff
  | displayClear
  | cursorHome
  | modeAutoinc
  | funcsel8Bit
  | funcsel4Bit
  | ddramSet
  deriving DecidableEq, Repr

/-- The instructions: the eleven host operations (R72), the nine rows of the Command Table (R78, R79), the three raw
reset patterns (R80) and the four bus formats (R76, R77). -/
inductive Instr where
  /-- SET_DIRECTION, R100. -/
  | setDirection (target : Direction)
  /-- WRITE, R110: the byte, `is_command`, `min_exec_time_us`. -/
  | write (value : Byte) (isCommand : Bool) (time : Micros)
  /-- READ, R116. -/
  | read
  /-- RESET, R130. -/
  | reset
  /-- COMMAND, R140. -/
  | command (key : CmdKey)
  /-- START, R141. -/
  | start
  /-- CLEAR, R142. -/
  | clear
  /-- SET_LINE, R143; any line number can be asked for, only 1 and 2 are legal. -/
  | setLine (line : Byte)
  /-- PUT_LINE, R144. -/
  | putLine (line : Byte) (text : List Byte) (typing : Bool)
  /-- CLEAR_LINE, R145. -/
  | clearLine (line : Byte)
  /-- PUSH_LINE, R146. -/
  | pushLine (text : List Byte) (typing : Bool)
  /-- CMD.DEFAULT, R78: the whole byte `v` is the entry's parameter. -/
  | cmdDefault (v : Byte)
  /-- CMD.DISPLAY_ON, R78. -/
  | cmdDisplayOn
  /-- CMD.DISPLAY_OFF, R78. -/
  | cmdDisplayOff
  /-- CMD.DISPLAY_CLEAR, R78. -/
  | cmdDisplayClear
  /-- CMD.CURSOR_HOME, R78. -/
  | cmdCursorHome
  /-- CMD.MODE_AUTOINC, R78. -/
  | cmdModeAutoinc
  /-- CMD.FUNCSEL_8BIT, R78. -/
  | cmdFuncsel8Bit
  /-- CMD.FUNCSEL_4BIT, R78. -/
  | cmdFuncsel4Bit
  /-- CMD.DDRAM_SET, R79: the 7-bit address. -/
  | cmdDdramSet (address : BitVec 7)
  /-- RAW.RESET8, R80, R132: the byte 0x30, first, second or third repetition. -/
  | rawReset8 (repetition : Fin 3)
  /-- RAW.RESET4_3, R80, R133: the nibble 0x3, first or second repetition. -/
  | rawReset4Three (repetition : Fin 2)
  /-- RAW.RESET4_2, R80, R133: the nibble 0x2, first or second repetition. -/
  | rawReset4Two (repetition : Fin 2)
  /-- BUS.B8, R76: the level of RS and the byte on D[7..0]. -/
  | busB8 (rs : Bool) (value : Byte)
  /-- BUS.B4, R77: the level of RS, and the nibbles of the first and the second transaction. -/
  | busB4 (rs : Bool) (high low : Nibble)
  /-- BUS.R4, R77: the four bits on D[3..0], RS low. -/
  | busR4 (value : Nibble)
  /-- BUS.ST, R77: the status read in which the far side answers `sampled` on D[7..0] (D[3..0] when N = 4). -/
  | busSt (sampled : Byte)
  deriving DecidableEq, Repr

/-- What the decoder rejects, by name (R84, `93_implementation_defined.md` U11). -/
inductive Reject where
  /-- A tag 0xB to 0xF (R84). -/
  | reservedTag (tag : BitVec 4)
  /-- A key index 9 to 15 (R84). -/
  | reservedKey (key : BitVec 4)
  /-- A CMD8 word whose byte is not the encoding of the row its key names (R78, R79). -/
  | notACommandEntry (key : BitVec 4) (byte : Byte)
  /-- A raw word that is neither 0x30 on eight lines nor 0x3 or 0x2 on four (R80). -/
  | notARawPattern (pattern : Byte)
  /-- A repetition the reset prefix does not have (R132, R133). -/
  | noSuchRepetition (repetition : BitVec 2)
  /-- A bus word whose RW or RS levels are not those of its format (R76, R77). -/
  | notABusWord (levels : BitVec 12)
  deriving DecidableEq, Repr

end Sys2Proof
end

