-- ==== Sys2Proof/Decode.lean ====
section
/-!
DEFINITION. The decoder, total on every port word and rejecting by name, the encoder after it, and the host's way in
from the opcode table's own numbering.
-/
namespace Sys2Proof

/-- The key of a Command Table index (R78); 9 to 15 select nothing (R84). -/
def keyOfIndex (k : BitVec 4) : Option CmdKey :=
  match k.toNat with
  | 0 => some .default
  | 1 => some .displayOn
  | 2 => some .displayOff
  | 3 => some .displayClear
  | 4 => some .cursorHome
  | 5 => some .modeAutoinc
  | 6 => some .funcsel8Bit
  | 7 => some .funcsel4Bit
  | 8 => some .ddramSet
  | _ => none

/-- The index of a Command Table key (R78). -/
def indexOfKey : CmdKey → BitVec 4
  | .default => 0
  | .displayOn => 1
  | .displayOff => 2
  | .displayClear => 3
  | .cursorHome => 4
  | .modeAutoinc => 5
  | .funcsel8Bit => 6
  | .funcsel4Bit => 7
  | .ddramSet => 8

/-- `req_dir`: 0 = Driving, 1 = Released (R73). -/
def directionOfBit (b : BitVec 1) : Direction := if b = 1 then .released else .driving

/-- `req_dir` of a direction (R73). -/
def bitOfDirection : Direction → BitVec 1
  | .driving => 0
  | .released => 1

/-- `req_cmd` and `req_typing`: 1 = true (R73). -/
def flagOfBit (b : BitVec 1) : Bool := b == 1

/-- The one-bit port of a truth value (R73). -/
def bitOfFlag (b : Bool) : BitVec 1 := BitVec.ofBool b

/-- A host request: the tag selects the operation, which reads the ports its row names (R72, R73). -/
def decodeRequest (r : Request) : Except Reject Instr :=
  match r.op.toNat with
  | 0x0 => .ok (.setDirection (directionOfBit r.dir))
  | 0x1 => .ok (.write r.value (flagOfBit r.cmd) r.time)
  | 0x2 => .ok .read
  | 0x3 => .ok .reset
  | 0x4 =>
    match keyOfIndex r.key with
    | some k => .ok (.command k)
    | none => .error (.reservedKey r.key)
  | 0x5 => .ok .start
  | 0x6 => .ok .clear
  | 0x7 => .ok (.setLine r.line)
  | 0x8 => .ok (.putLine r.line r.text (flagOfBit r.typing))
  | 0x9 => .ok (.clearLine r.line)
  | 0xA => .ok (.pushLine r.text (flagOfBit r.typing))
  | _ => .error (.reservedTag r.op)

/-- A CMD8 row that has one fixed byte. -/
def decodeFixedEntry (key : BitVec 4) (byte pattern : Byte) (i : Instr) : Except Reject Instr :=
  if byte = pattern then .ok i else .error (.notACommandEntry key byte)

/-- A Command Table row (format CMD8): the key index names the row, the byte is the row's encoding (R78, R79). -/
def decodeCmd8 (key : BitVec 4) (byte : Byte) : Except Reject Instr :=
  match keyOfIndex key with
  | some .default => .ok (.cmdDefault byte)
  | some .displayOn => decodeFixedEntry key byte 0x0C .cmdDisplayOn
  | some .displayOff => decodeFixedEntry key byte 0x08 .cmdDisplayOff
  | some .displayClear => decodeFixedEntry key byte 0x01 .cmdDisplayClear
  | some .cursorHome => decodeFixedEntry key byte 0x02 .cmdCursorHome
  | some .modeAutoinc => decodeFixedEntry key byte 0x06 .cmdModeAutoinc
  | some .funcsel8Bit => decodeFixedEntry key byte 0x38 .cmdFuncsel8Bit
  | some .funcsel4Bit => decodeFixedEntry key byte 0x28 .cmdFuncsel4Bit
  | some .ddramSet =>
    if byte.getLsbD 7 then .ok (.cmdDdramSet (byte.extractLsb' 0 7))
    else .error (.notACommandEntry key byte)
  | none => .error (.reservedKey key)

/-- The raw reset pattern on eight lines (R80, R132). -/
def decodeRaw8 (repetition : BitVec 2) (byte : Byte) : Except Reject Instr :=
  if byte = 0x30 then
    if h : repetition.toNat < 3 then .ok (.rawReset8 ⟨repetition.toNat, h⟩)
    else .error (.noSuchRepetition repetition)
  else .error (.notARawPattern byte)

/-- The raw reset nibbles on four lines (R80, R133). -/
def decodeRaw4 (repetition : BitVec 2) (nibble : Nibble) : Except Reject Instr :=
  if nibble = 0x3 then
    if h : repetition.toNat < 2 then .ok (.rawReset4Three ⟨repetition.toNat, h⟩)
    else .error (.noSuchRepetition repetition)
  else if nibble = 0x2 then
    if h : repetition.toNat < 2 then .ok (.rawReset4Two ⟨repetition.toNat, h⟩)
    else .error (.noSuchRepetition repetition)
  else .error (.notARawPattern (nibble.setWidth 8))

/-- `0rvvvvvvvv` (R76). -/
def decodeB8 (w : BitVec 10) : Except Reject Instr :=
  if w.getLsbD 9 then .error (.notABusWord (w.setWidth 12))
  else .ok (.busB8 (w.getLsbD 8) (w.extractLsb' 0 8))

/-- `0rhhhh0rllll`: both transactions have RW low and the same RS (R77). -/
def decodeB4 (w : BitVec 12) : Except Reject Instr :=
  if w.getLsbD 11 || w.getLsbD 5 || (w.getLsbD 10 != w.getLsbD 4) then .error (.notABusWord w)
  else .ok (.busB4 (w.getLsbD 10) (w.extractLsb' 6 4) (w.extractLsb' 0 4))

/-- `00vvvv` (R77). -/
def decodeR4 (w : BitVec 6) : Except Reject Instr :=
  if w.getLsbD 5 || w.getLsbD 4 then .error (.notABusWord (w.setWidth 12))
  else .ok (.busR4 (w.extractLsb' 0 4))

/-- `10ssssssss` (R77). -/
def decodeSt (w : BitVec 10) : Except Reject Instr :=
  if w.getLsbD 9 && !w.getLsbD 8 then .ok (.busSt (w.extractLsb' 0 8))
  else .error (.notABusWord (w.setWidth 12))

/-- A word of an LCD-side row, by its format. -/
def decodeLcd : LcdWord → Except Reject Instr
  | .cmd8 key byte => decodeCmd8 key byte
  | .raw8 repetition byte => decodeRaw8 repetition byte
  | .raw4 repetition nibble => decodeRaw4 repetition nibble
  | .b8 w => decodeB8 w
  | .b4 w => decodeB4 w
  | .r4 w => decodeR4 w
  | .st w => decodeSt w

/-- The decoder: total on every word that can stand at the port. -/
def decode : PortWord → Except Reject Instr
  | .request r => decodeRequest r
  | .lcd w => decodeLcd w

/-- `0rvvvvvvvv` (R76). -/
def encodeB8 (rs : Bool) (value : Byte) : BitVec 10 := 0#1 ++ BitVec.ofBool rs ++ value

/-- `0rhhhh0rllll` (R77). -/
def encodeB4 (rs : Bool) (high low : Nibble) : BitVec 12 :=
  0#1 ++ BitVec.ofBool rs ++ high ++ 0#1 ++ BitVec.ofBool rs ++ low

/-- `00vvvv` (R77). -/
def encodeR4 (value : Nibble) : BitVec 6 := 0#2 ++ value

/-- `10ssssssss` (R77). -/
def encodeSt (sampled : Byte) : BitVec 10 := 1#1 ++ 0#1 ++ sampled

/-- The encoder: the port word of an instruction; a port the operation does not read is 0 (R72, R73). -/
def encode : Instr → PortWord
  | .setDirection target => .request { op := 0x0, dir := bitOfDirection target }
  | .write value isCommand time =>
    .request { op := 0x1, value := value, cmd := bitOfFlag isCommand, time := time }
  | .read => .request { op := 0x2 }
  | .reset => .request { op := 0x3 }
  | .command key => .request { op := 0x4, key := indexOfKey key }
  | .start => .request { op := 0x5 }
  | .clear => .request { op := 0x6 }
  | .setLine line => .request { op := 0x7, line := line }
  | .putLine line text typing => .request { op := 0x8, line := line, text := text, typing := bitOfFlag typing }
  | .clearLine line => .request { op := 0x9, line := line }
  | .pushLine text typing => .request { op := 0xA, text := text, typing := bitOfFlag typing }
  | .cmdDefault v => .lcd (.cmd8 0 v)
  | .cmdDisplayOn => .lcd (.cmd8 1 0x0C)
  | .cmdDisplayOff => .lcd (.cmd8 2 0x08)
  | .cmdDisplayClear => .lcd (.cmd8 3 0x01)
  | .cmdCursorHome => .lcd (.cmd8 4 0x02)
  | .cmdModeAutoinc => .lcd (.cmd8 5 0x06)
  | .cmdFuncsel8Bit => .lcd (.cmd8 6 0x38)
  | .cmdFuncsel4Bit => .lcd (.cmd8 7 0x28)
  | .cmdDdramSet address => .lcd (.cmd8 8 (1#1 ++ address))
  | .rawReset8 repetition => .lcd (.raw8 (BitVec.ofNat 2 repetition.val) 0x30)
  | .rawReset4Three repetition => .lcd (.raw4 (BitVec.ofNat 2 repetition.val) 0x3)
  | .rawReset4Two repetition => .lcd (.raw4 (BitVec.ofNat 2 repetition.val) 0x2)
  | .busB8 rs value => .lcd (.b8 (encodeB8 rs value))
  | .busB4 rs high low => .lcd (.b4 (encodeB4 rs high low))
  | .busR4 value => .lcd (.r4 (encodeR4 value))
  | .busSt sampled => .lcd (.st (encodeSt sampled))

/-- The port word of a number of the opcode table of at most eight bits. The table's number does not say which of the
two encoding spaces (R70) it belongs to; log entry 10 gives the order: a 4-bit request tag first, then the byte
patterns of the LCD-side rows, then CMD.DEFAULT, whose pattern is every byte. 0xC is the one number below 16 that an
8-bit row fixes (CMD.DISPLAY_ON) and no request has. -/
def tableByte (w : Nat) : PortWord :=
  if w = 0x0C then .lcd (.cmd8 1 0x0C)
  else if w < 16 then .request { op := BitVec.ofNat 4 w }
  else if w = 0x38 then .lcd (.cmd8 6 0x38)
  else if w = 0x28 then .lcd (.cmd8 7 0x28)
  else if w = 0x30 then .lcd (.raw8 0 0x30)
  else if 0x80 ≤ w then .lcd (.cmd8 8 (BitVec.ofNat 8 w))
  else .lcd (.cmd8 0 (BitVec.ofNat 8 w))

/-- The port word of a number of the opcode table (log entry 10): up to eight bits as `tableByte` reads them, longer
ones as `B8` when `RW` is low and nothing stands above the ten bits, as `ST` when the ten bits begin with `10`, as
`B4` otherwise. -/
def tableWord (nbits w : Nat) : PortWord :=
  if nbits ≤ 8 then tableByte (w % 256)
  else if w < 0x200 then .lcd (.b8 (BitVec.ofNat 10 w))
  else if w < 0x300 then .lcd (.st (BitVec.ofNat 10 w))
  else .lcd (.b4 (BitVec.ofNat 12 w))

/-- The instruction the decoder reads from a number of the opcode table. -/
def decodeTableWord (nbits w : Nat) : Option Instr :=
  match decode (tableWord nbits w) with
  | .ok i => some i
  | .error _ => none

end Sys2Proof
end

