-- ==== Sys2Proof/Config.lean ====
section
/-!
DEFINITION. The parameters of one instance (`00_scope.md` R5) as plain data, one named instance, and the free values.
-/
namespace Sys2Proof

/-- The two transfer paths of a byte write (R10, R111): one transfer on all lines, or two of four lines. -/
inductive Path where
  | single
  | split
  deriving DecidableEq, Repr

/-- An entry of the Command Table (R78): bus value and minimum execution time in microseconds. -/
structure CmdEntry where
  value : Byte
  timeUs : Nat
  deriving DecidableEq, Repr

/-- The Command Table as an argument of the model (R78, `92_eei_decisions.md` D14). The value of DDRAM_SET is fixed at
0x80 by the document, so only its time is a field. -/
structure CmdTable where
  defaultEntry : CmdEntry
  displayOn : CmdEntry
  displayOff : CmdEntry
  displayClear : CmdEntry
  cursorHome : CmdEntry
  modeAutoinc : CmdEntry
  funcsel8Bit : CmdEntry
  funcsel4Bit : CmdEntry
  ddramSetTimeUs : Nat
  deriving DecidableEq, Repr

/-- A pin identifier of the host platform. The spec gives it no form; a number is a DESIGN CHOICE (log entry 21). -/
abbrev PinId := Nat

/-- The pinout an instance is constructed from (R5, R50, R180): the data-line identifiers, index 0 = bit 0, the Enable,
the Register-Select and, when there is one, the Read/Write line. -/
structure Pinout where
  data : List PinId
  enable : PinId
  registerSelect : PinId
  readWrite : Option PinId
  deriving DecidableEq, Repr

/-- The parameters of one instance (R5). -/
structure Config where
  pinout : Pinout
  /-- `HAS_PULLDOWN`. -/
  hasPulldown : Bool
  /-- `FUNCSEL4_PATH` (R134, D12). -/
  funcsel4Path : Path
  table : CmdTable
  deriving DecidableEq, Repr

/-- `N`, the number of configured data lines; any number can be configured (R131). -/
def Config.n (cfg : Config) : Nat := cfg.pinout.data.length

/-- `HAS_RW`: a Read/Write line is configured (R5, R50). -/
def Config.hasRw (cfg : Config) : Bool := cfg.pinout.readWrite.isSome

/-- The pin space (R30): the `N + 2` or `N + 3` identifiers of the pinout. -/
def Pinout.pinSpace (p : Pinout) : List PinId := p.data ++ [p.enable, p.registerSelect] ++ p.readWrite.toList

/-- A pinout with the given lines, its pins numbered from `D[0]` up (DESIGN CHOICE, log entry 21). -/
def Pinout.standard (n : Nat) (hasRw : Bool) : Pinout where
  data := List.range n
  enable := n
  registerSelect := n + 1
  readWrite := if hasRw then some (n + 2) else none

/-- The default column of R78, [from general knowledge, not in source]: PRESUMED (log entry 2). DEFAULT has no default
value; 0x00 is a DESIGN CHOICE (log entry 2). -/
def CmdTable.standard : CmdTable where
  defaultEntry := ⟨0x00, 37⟩
  displayOn := ⟨0x0C, 37⟩
  displayOff := ⟨0x08, 37⟩
  displayClear := ⟨0x01, 1520⟩
  cursorHome := ⟨0x02, 1520⟩
  modeAutoinc := ⟨0x06, 37⟩
  funcsel8Bit := ⟨0x38, 37⟩
  funcsel4Bit := ⟨0x28, 37⟩
  ddramSetTimeUs := 37

/-- An instance with the given lines, the "default instance" of `95_test_vectors.md` otherwise (HAS_PULLDOWN true,
FUNCSEL4_PATH = Single, the default table). -/
def Config.standard (n : Nat) (hasRw : Bool) : Config where
  pinout := .standard n hasRw
  hasPulldown := true
  funcsel4Path := .single
  table := .standard

/-- FREE VALUE: the level the environment answers to the k-th sample for which `State.inputs` holds no answer
(R60, U3: any value, under no law; log entry 6). -/
opaque Config.freeLevel : Nat → Bool

/-- FREE VALUE: `rsp_data` of a READ on an instance of more than eight lines, whose result does not fit the 8-bit port
and for which the spec states no value (R75, R118; log entry 7). -/
opaque Config.wideReadData : List Bool → Byte

end Sys2Proof
end

