-- ==== Sys2Proof/Machine/State.lean ====
section
/-!
DEFINITION. The state of the engine as plain data (`10_state.md` R20), the ways a step can stop, and block reset
(`70_reset_and_hazards.md` R180).
-/
namespace Sys2Proof.Machine

/-- The pins of the pinout (R50), by role; `rw` exists only when `HAS_RW`. -/
inductive Pin where
  | d (i : Nat)
  | e
  | rs
  | rw
  deriving DecidableEq, Repr

/-- The pull of an input line (R24). -/
inductive Pull where
  | down
  | none
  deriving DecidableEq, Repr

/-- The engine's view of a pin (R24): never configured, an output last driven to a level, or an input. -/
inductive PinState where
  | unconfigured
  | output (level : Bool)
  | input (pull : Pull)
  deriving DecidableEq, Repr

/-- An event of the trace (R7): what the far side sees, in order. Delays are in microseconds and lower bounds (R8). -/
inductive Event where
  | cfgOut (p : Pin) (level : Bool)
  | cfgIn (p : Pin) (pull : Pull)
  | set (p : Pin) (level : Bool)
  | sample (p : Pin) (level : Bool)
  | delay (us : Nat)
  deriving DecidableEq, Repr

/-- `MODE` (R21). -/
inductive Mode where
  | unset
  | eightBit
  | fourBit
  deriving DecidableEq, Repr

/-- `DIR` (R22). -/
inductive Dir where
  | unknown
  | driving
  | released
  deriving DecidableEq, Repr

/-- The three errors (R11, R160). -/
inductive Error where
  | configurationError
  | rangeError
  | unsupportedOperation
  deriving DecidableEq, Repr

/-- `rsp_status` (R75). -/
inductive Status where
  | ok
  | error (e : Error)
  deriving DecidableEq, Repr

/-- The response to one request (R75): `rsp_status` and `rsp_data`. -/
structure Response where
  status : Status
  data : Byte
  deriving DecidableEq, Repr

/-- Why a step can stop with a fault. -/
inductive Fault where
  /-- Raised by every operation that sets a pin which is not an output, or does not exist (R7: legal only when
  `PIN[p]` is `Out(_)`; U13: fault). SAFE: no resting state of R31 reaches it (log entry 8). -/
  | pinSetNotOutput (p : Pin)
  deriving DecidableEq, Repr

/-- Why a step can refuse. -/
inductive Refusal where
  /-- Raised by `exec` for an instruction that has no meaning yet. SAFE. -/
  | notModelled (mnemonic : String)
  /-- Raised by `step` for a word the decoder rejects (R84, U11). SAFE. -/
  | rejected (r : Reject)
  /-- Raised by the raw patterns and the bus formats on an instance that has no such format: `B8` and the 8-bit
  pattern with N other than 8, `B4`, `R4` and the 4-bit patterns with N other than 4 (R76, R77, R80), `ST` without a
  Read/Write line (R117). SAFE (log entry 9). -/
  | formatNotOnInstance (mnemonic : String)
  deriving DecidableEq, Repr

/-- The whole state. -/
structure State where
  /-- The parameters of the instance (R5): fixed at construction, written by nothing (log entry 1). -/
  cfg : Config
  /-- `MODE` (R21). -/
  mode : Mode
  /-- `DIR` (R22). -/
  dir : Dir
  /-- `ROW[1]` (R23). -/
  row1 : List Byte
  /-- `ROW[2]` (R23). -/
  row2 : List Byte
  /-- `PIN[D[0]]` to `PIN[D[N-1]]` (R24). -/
  pinD : List PinState
  /-- `PIN[E]` (R24). -/
  pinE : PinState
  /-- `PIN[RS]` (R24). -/
  pinRs : PinState
  /-- `PIN[RW]` (R24); `unconfigured` for ever when the line is absent. -/
  pinRw : PinState
  /-- `TRACE` (R20), oldest event first. -/
  trace : List Event
  /-- The responses given so far, oldest first (R75; log entry 5). -/
  responses : List Response
  /-- The words the host still has to present, the head being the one on the port (R71; log entry 4). -/
  requests : List PortWord
  /-- The levels the environment has ready for the next samples (R60; log entry 6). -/
  inputs : List Bool
  /-- How many samples were answered by `Config.freeLevel` (log entry 6). -/
  drawn : Nat
  deriving DecidableEq, Repr

/-- `BLANK`, the character code of a space (R5); PRESUMED (log entry 3). -/
def blank : Byte := 0x20

/-- `ROWS`, the rows of the display: line numbers 1 to `ROWS` are the legal ones (R5, R143). -/
def rows : Nat := 2

/-- `ROW_WIDTH`, the visible characters of a row (R5, R63). -/
def rowWidth : Nat := 16

/-- `ROW_WIDTH` blanks (R32, R145). -/
def blankRow : List Byte := List.replicate rowWidth blank

/-- Block reset of an instance (R180, with the values of R32): the control pins become outputs at 0, the data lines
stay unconfigured, the trace holds the events of the procedure itself (C14). -/
def State.blockReset (cfg : Config) : State where
  cfg := cfg
  mode := .unset
  dir := .unknown
  row1 := blankRow
  row2 := blankRow
  pinD := List.replicate cfg.n .unconfigured
  pinE := .output false
  pinRs := .output false
  pinRw := if cfg.hasRw then .output false else .unconfigured
  trace := [.cfgOut .e false, .cfgOut .rs false] ++ (if cfg.hasRw then [.cfgOut .rw false] else [])
  responses := []
  requests := []
  inputs := []
  drawn := 0

/-- The machine after reset: block reset of an instance with eight data lines and a Read/Write line
(DESIGN CHOICE, log entry 1). -/
def State.reset : State := State.blockReset (Config.standard 8 true)

end Sys2Proof.Machine
end

