-- ==== Sys2Proof/Machine/Flags.lean ====
section
/-!
DEFINITION. The status bits. The engine stores no flag (`10_state.md` R27); what it answers are the response codes
(`30_encoding.md` R75) and, in the result of a status read, the busy flag (`41_transfer.md` R118).
-/
namespace Sys2Proof.Machine

/-- `rsp_status[1:0]` (R75, R160; D3). -/
def statusCode : Status → BitVec 2
  | .ok => 0
  | .error .configurationError => 1
  | .error .rangeError => 2
  | .error .unsupportedOperation => 3

/-- The number whose bit `i` is the `i`-th level (R52, R57). -/
def levelsValue : List Bool → Nat
  | [] => 0
  | b :: bs => b.toNat + 2 * levelsValue bs

/-- `rsp_data` of a status read of the given levels, `D[0]` first: zero-extended to eight bits (R75, R118). With more
than eight lines the spec states no value: a free value (log entry 7). -/
def readData (levels : List Bool) : Byte :=
  if levels.length ≤ 8 then BitVec.ofNat 8 (levelsValue levels) else Config.wideReadData levels

/-- The busy flag of a READ result: bit `N - 1` (R118). -/
def busyFlag (n : Nat) (data : Byte) : Bool := data.getLsbD (n - 1)

end Sys2Proof.Machine
end

