-- ==== Sys2Proof/Machine/Operands.lean ====
section
/-!
DEFINITION. The operand forms: the nibbles of a byte, the level of Register-Select, the Command Table, the operand of
DDRAM_SET, the reset prefix, and the fixed times of R5 and R198.
-/
namespace Sys2Proof.Machine

/-- `v[7:4]`, that is `value >> 4` (R53, R113). -/
def highNibble (v : Byte) : Nibble := v.extractLsb' 4 4

/-- `v[3:0]`, that is `value & 0xF` (R53, R113). -/
def lowNibble (v : Byte) : Nibble := v.extractLsb' 0 4

/-- The level of RS: low for a command, high for data (R54). -/
def rsLevel (isCommand : Bool) : Bool := !isCommand

/-- `T_HOLD_US`, the Enable hold and every "hold ≥1 µs" (R5). -/
def holdUs : Nat := 1

/-- `T_GAP_US`, the fixed part of the closing delay (R5, R111 step 8). -/
def gapUs : Nat := 1

/-- `T_TYPE_MS` (R5, R144). -/
def typeMs : Nat := 110

/-- `T_PUSH_MS` (R5, R146). -/
def pushMs : Nat := 100

/-- `CMD[key]` (R78). The value of DDRAM_SET is the document's 0x80, every other cell an argument of the model. -/
def tableEntry (t : CmdTable) : CmdKey → CmdEntry
  | .default => t.defaultEntry
  | .displayOn => t.displayOn
  | .displayOff => t.displayOff
  | .displayClear => t.displayClear
  | .cursorHome => t.cursorHome
  | .modeAutoinc => t.modeAutoinc
  | .funcsel8Bit => t.funcsel8Bit
  | .funcsel4Bit => t.funcsel4Bit
  | .ddramSet => ⟨0x80, t.ddramSetTimeUs⟩

/-- `T_DATA_US`, the execution time L2 gives a data write: that of DEFAULT (R5, D15). -/
def dataUs (t : CmdTable) : Nat := (tableEntry t .default).timeUs

/-- `ROW_START[line]` (R5, R63); no other line number has one. -/
def rowStart (line : Byte) : Option (BitVec 7) :=
  if line = 1 then some 0x00 else if line = 2 then some 0x40 else none

/-- `ROW_END[line]` (R5, R63): the last address of the row's window. The engine emits only the start of a window
(R63). -/
def rowEnd (line : Byte) : Option (BitVec 7) :=
  if line = 1 then some 0x27 else if line = 2 then some 0x67 else none

/-- The DDRAM window of a row (R63), as its first and its last address. -/
def rowWindow (line : Byte) : Option (BitVec 7 × BitVec 7) :=
  match rowStart line, rowEnd line with
  | some first, some last => some (first, last)
  | _, _ => none

/-- The byte of DDRAM_SET with an address: a bitwise OR (R79). -/
def ddramByte (t : CmdTable) (address : BitVec 7) : Byte := (tableEntry t .ddramSet).value ||| address.setWidth 8

/-- The pin identifier a role stands for (R5, R7, R50): none for a data line beyond `N` and for an absent Read/Write
line. -/
def pinIdentifier (p : Pin) (cfg : Config) : Option PinId :=
  match p with
  | .d i => cfg.pinout.data[i]?
  | .e => some cfg.pinout.enable
  | .rs => some cfg.pinout.registerSelect
  | .rw => cfg.pinout.readWrite

/-- `RST8_PATTERN` (R5, R80). -/
def reset8Pattern : Byte := 0x30

/-- `RST8_WAITS` (R5, R132). -/
def reset8Wait : Fin 3 → Nat
  | 0 => 4100
  | 1 => 100
  | 2 => 100

/-- The first two of `RST4_NIBBLES` (R5, R80). -/
def reset4ThreePattern : Byte := 0x3

/-- The last two of `RST4_NIBBLES` (R5, R80). -/
def reset4TwoPattern : Byte := 0x2

/-- The waits of the two nibbles 0x3 (R5, R133). -/
def reset4ThreeWait : Fin 2 → Nat
  | 0 => 4100
  | 1 => 100

/-- The waits of the two nibbles 0x2 (R5, R133). -/
def reset4TwoWait : Fin 2 → Nat
  | 0 => 100
  | 1 => 100

/-- The `DIR` value of a target (R100). -/
def dirOf : Direction → Dir
  | .driving => .driving
  | .released => .released

/-- The levels the far side answers in the status read `10ssssssss`: one for each data line the word has (R77). -/
def answeredLevels (n : Nat) (sampled : Byte) : List Bool := (List.range (min n 8)).map sampled.getLsbD

end Sys2Proof.Machine
end

