-- ==== Sys2Proof/Machine/Ops.lean ====
section
/-!
DEFINITION. The named operations over the state: the pin primitives of `00_scope.md` R7, the response, raising an
error (`60_exceptions.md` R166) as one shared operation, and taking the next request from the port.
-/
namespace Sys2Proof.Machine

/-- How a procedure ends before its last step: an error of R160 raised in the state it was reached in, or a fault. -/
inductive Stop where
  | raise (e : Error) (s : State)
  | fault (f : Fault)
  deriving DecidableEq, Repr

/-- The outcome of a procedure: a value, or the stop that ends every enclosing operation at once (R150). -/
abbrev Result (α : Type) := Except Stop α

/-- `PIN[p]`; a data line the instance does not have is not configured. -/
def pinState (p : Pin) (s : State) : PinState :=
  match p with
  | .d i => s.pinD.getD i .unconfigured
  | .e => s.pinE
  | .rs => s.pinRs
  | .rw => s.pinRw

/-- `PIN[p] <- x`. -/
def putPin (p : Pin) (x : PinState) (s : State) : State :=
  match p with
  | .d i => { s with pinD := s.pinD.set i x }
  | .e => { s with pinE := x }
  | .rs => { s with pinRs := x }
  | .rw => { s with pinRw := x }

/-- Whether a pin is `Out(_)`. -/
def isOutput : PinState → Bool
  | .output _ => true
  | .unconfigured => false
  | .input _ => false

/-- Appends an event to the trace (R7). -/
def record (ev : Event) (s : State) : State := { s with trace := s.trace ++ [ev] }

/-- The pull of a released line (R7, R102; D20). -/
def releasedPull (cfg : Config) : Pull := if cfg.hasPulldown then .down else .none

/-- `PinCfgOut(p, v)` (R7). -/
def pinCfgOut (p : Pin) (v : Bool) (s : State) : State := record (.cfgOut p v) (putPin p (.output v) s)

/-- `PinCfgIn(p)` (R7). -/
def pinCfgIn (p : Pin) (s : State) : State :=
  record (.cfgIn p (releasedPull s.cfg)) (putPin p (.input (releasedPull s.cfg)) s)

/-- `PinSet(p, v)`: legal only when the pin is an output (R7), a fault otherwise (U13). -/
def pinSet (p : Pin) (v : Bool) (s : State) : Result State :=
  if isOutput (pinState p s) then .ok (record (.set p v) (putPin p (.output v) s))
  else .error (.fault (.pinSetNotOutput p))

/-- The environment's answer to a sample (R60, U3): the next level it has ready, a free value when it has none. -/
def answerSample (s : State) : Bool × State :=
  match s.inputs with
  | b :: rest => (b, { s with inputs := rest })
  | [] => (Config.freeLevel s.drawn, { s with drawn := s.drawn + 1 })

/-- `b <- PinSample(p)` (R7). -/
def pinSample (p : Pin) (s : State) : Bool × State :=
  ((answerSample s).1, record (.sample p (answerSample s).1) (answerSample s).2)

/-- `Delay(n)` (R7). -/
def delay (us : Nat) (s : State) : State := record (.delay us) s

/-- `DelayMs(n)` (R7). -/
def delayMs (ms : Nat) (s : State) : State := delay (1000 * ms) s

/-- Answers the request (R75). -/
def respond (status : Status) (data : Byte) (s : State) : State :=
  { s with responses := s.responses ++ [⟨status, data⟩] }

/-- Taking an error (R166): the code is the response, `rsp_data` is 0 (R75), nothing is saved and nothing else changes.
There is no return operation: the state it leaves is a resting state (R167). -/
def takeError (e : Error) (s : State) : State := respond (.error e) 0 s

/-- The end of an operation at the port: `OK`, the error it raised, or the fault it met. -/
def finish (r : Result State) : Host.Outcome State Fault Refusal :=
  match r with
  | .ok s => .next (respond .ok 0 s)
  | .error (.raise e s) => .next (takeError e s)
  | .error (.fault f) => .fault f

/-- The end of a status read at the port: `OK` with the sampled word on `rsp_data` (R75, R118). -/
def finishRead (r : Result (List Bool × State)) : Host.Outcome State Fault Refusal :=
  match r with
  | .ok (levels, s) => .next (respond .ok (readData levels) s)
  | .error (.raise e s) => .next (takeError e s)
  | .error (.fault f) => .fault f

/-- The word on the port and the state in which the engine runs it (R71, R184): none when the host presents nothing. -/
def takeRequest (s : State) : Option (PortWord × State) :=
  match s.requests with
  | [] => none
  | w :: rest => some (w, { s with requests := rest })

/-- The state with a word of the opcode table's numbering next on the port. -/
def presentTableWord (nbits w : Nat) (s : State) : State := { s with requests := tableWord nbits w :: s.requests }

end Sys2Proof.Machine
end

