-- ==== Sys2Proof/Machine/Bus.lean ====
section
/-!
DEFINITION. The procedures of layer L1 that operations share, in the order their rules write the steps: the direction
multiplexer (`40_direction.md`), the status read and the byte write (`41_transfer.md`).
-/
namespace Sys2Proof.Machine

/-- `for i in is: PinCfgOut(D[i], 0)` (R101). -/
def configureOutputs (is : List Nat) (s : State) : State := is.foldl (fun s i => pinCfgOut (.d i) false s) s

/-- `for i in is: PinCfgIn(D[i])` (R102). -/
def configureInputs (is : List Nat) (s : State) : State := is.foldl (fun s i => pinCfgIn (.d i) s) s

/-- `for i in is: PinSet(D[i], level i)` (R111 step 5). -/
def driveLines (level : Nat → Bool) : List Nat → State → Result State
  | [], s => .ok s
  | i :: is, s => do
    let s ← pinSet (.d i) (level i) s
    driveLines level is s

/-- `for i in is: r[i] <- PinSample(D[i])` (R117): the levels in the order of `is`. -/
def sampleLines : List Nat → State → List Bool × State
  | [], s => ([], s)
  | i :: is, s =>
    let (b, s) := pinSample (.d i) s
    let (bs, s) := sampleLines is s
    (b :: bs, s)

/-- The configured data lines, `D[0]` first (R105). -/
def dataLines (cfg : Config) : List Nat := List.range cfg.n

/-- `if HAS_RW: PinSet(RW, v)`: 0 is write mode, 1 read mode (R55). -/
def setReadWrite (v : Bool) (s : State) : Result State := if s.cfg.hasRw then pinSet .rw v s else .ok s

/-- `DIR <- d`. -/
def setDir (d : Dir) (s : State) : State := { s with dir := d }

/-- SET_DIRECTION as a procedure (R100): no event when `DIR` has the target already (R103); write mode before outputs
(R101); inputs before read mode (R102). -/
def setDirection (target : Direction) (s : State) : Result State :=
  if s.dir = dirOf target then .ok s
  else
    match target with
    | .driving => do
      let s ← setReadWrite false s
      .ok (setDir .driving (configureOutputs (dataLines s.cfg) s))
    | .released => do
      let s ← setReadWrite true (configureInputs (dataLines s.cfg) s)
      .ok (setDir .released s)

/-- `READ_CORE()` (R117): the sampled levels, `D[0]` first. Requires `HAS_RW`. -/
def readCore (s : State) : Result (List Bool × State) := do
  let s ← setDirection .released s
  let s ← pinSet .rw true s
  let s ← pinSet .rs false s
  let s ← pinSet .e true s
  let (levels, s) := sampleLines (dataLines s.cfg) (delay holdUs s)
  let s ← pinSet .e false s
  .ok (levels, delay holdUs s)

/-- Step 1 of a write (R111, R112): one status read, its result dropped, and write mode again; only when `HAS_RW`. -/
def busyCheck (s : State) : Result State :=
  if s.cfg.hasRw then do
    let (_, s) ← readCore s
    pinSet .rw false s
  else .ok s

/-- Step 5 of a write (R111): the data lines, in one transfer or high nibble first in two. -/
def driveByte (path : Path) (v : Byte) (s : State) : Result State :=
  match path with
  | .single => driveLines v.getLsbD (dataLines s.cfg) s
  | .split => do
    let s ← driveLines (highNibble v).getLsbD (List.range 4) s
    let s ← pinSet .e false (delay holdUs s)
    let s ← pinSet .e true (delay holdUs s)
    driveLines (lowNibble v).getLsbD (List.range 4) s

/-- Steps 2 to 7 of a write (R111): the transactions of one byte. -/
def transferByte (path : Path) (v : Byte) (rs : Bool) (s : State) : Result State := do
  let s ← setDirection .driving s
  let s ← pinSet .rs rs s
  let s ← pinSet .e true s
  let s ← driveByte path v s
  let s ← pinSet .e false (delay holdUs s)
  setReadWrite false s

/-- `WRITE_CORE(v, c, t, path)` (R111). -/
def writeCore (v : Byte) (isCommand : Bool) (t : Nat) (path : Path) (s : State) : Result State := do
  let s ← busyCheck s
  let s ← transferByte path v (rsLevel isCommand) s
  .ok (delay (gapUs + t) s)

/-- WRITE as a procedure (R110): `MODE` picks the path, and an unset `MODE` fails before any event (R114). -/
def writeByte (v : Byte) (isCommand : Bool) (t : Nat) (s : State) : Result State :=
  match s.mode with
  | .unset => .error (.raise .configurationError s)
  | .eightBit => writeCore v isCommand t .single s
  | .fourBit => writeCore v isCommand t .split s

/-- READ as a procedure (R116): without a Read/Write line it fails before any event. -/
def readStatus (s : State) : Result (List Bool × State) :=
  if s.cfg.hasRw then readCore s else .error (.raise .unsupportedOperation s)

/-- COMMAND as a procedure (R140): the entry's value as a command, then its time. -/
def issueEntry (key : CmdKey) (s : State) : Result State :=
  writeByte (tableEntry s.cfg.table key).value true (tableEntry s.cfg.table key).timeUs s

/-- One raw send of the 8-bit prefix (R132). -/
def sendRaw8 (repetition : Fin 3) (s : State) : Result State :=
  writeCore reset8Pattern true (reset8Wait repetition) .single s

/-- One send of the nibble 0x3 (R133). -/
def sendRaw4Three (repetition : Fin 2) (s : State) : Result State :=
  writeCore reset4ThreePattern true (reset4ThreeWait repetition) .single s

/-- One send of the nibble 0x2 (R133). -/
def sendRaw4Two (repetition : Fin 2) (s : State) : Result State :=
  writeCore reset4TwoPattern true (reset4TwoWait repetition) .single s

/-- `MODE <- m` (R136). -/
def setMode (m : Mode) (s : State) : State := { s with mode := m }

/-- The prefix of RESET for eight lines (R132, R136). -/
def resetPrefix8 (s : State) : Result State := do
  let s ← sendRaw8 0 s
  let s ← sendRaw8 1 s
  let s ← sendRaw8 2 s
  let entry := tableEntry s.cfg.table .funcsel8Bit
  let s ← writeCore entry.value true entry.timeUs .single s
  .ok (setMode .eightBit s)

/-- The prefix of RESET for four lines (R133, R134, R136). -/
def resetPrefix4 (s : State) : Result State := do
  let s ← sendRaw4Three 0 s
  let s ← sendRaw4Three 1 s
  let s ← sendRaw4Two 0 s
  let s ← sendRaw4Two 1 s
  let entry := tableEntry s.cfg.table .funcsel4Bit
  let s ← writeCore entry.value true entry.timeUs s.cfg.funcsel4Path s
  .ok (setMode .fourBit s)

/-- The common suffix of RESET (R135). -/
def resetSuffix (s : State) : Result State := do
  let s ← issueEntry .displayOff s
  let s ← issueEntry .displayClear s
  issueEntry .modeAutoinc s

/-- RESET as a procedure (R130): the line count is checked before any event (R131). -/
def resetDisplay (s : State) : Result State :=
  if s.cfg.n = 8 then do
    let s ← resetPrefix8 s
    resetSuffix s
  else if s.cfg.n = 4 then do
    let s ← resetPrefix4 s
    resetSuffix s
  else .error (.raise .configurationError s)

end Sys2Proof.Machine
end

