-- ==== Sys2Proof/Machine/BusFormats.lean ====
section
/-!
DEFINITION. The meanings of the bus formats (`30_encoding.md` R76, R77): the engine makes exactly the transactions the
word describes, steps 2 to 7 of a write or the whole status read. A format has no closing delay of its own, and does
not exist on an instance with another number of lines or, for `ST`, without a Read/Write line (log entry 9).
-/
namespace Sys2Proof.Machine

/-- BUS.B8 (R76): one transaction of eight lines. -/
def execBusB8 (rs : Bool) (value : Byte) (s : State) : Host.Outcome State Fault Refusal :=
  if s.cfg.n = 8 then finish (transferByte .single value rs s) else .refused (.formatNotOnInstance "BUS.B8")

/-- BUS.B4 (R77): two transactions of four lines, high nibble first. -/
def execBusB4 (rs : Bool) (high low : Nibble) (s : State) : Host.Outcome State Fault Refusal :=
  if s.cfg.n = 4 then finish (transferByte .split (high ++ low) rs s) else .refused (.formatNotOnInstance "BUS.B4")

/-- BUS.R4 (R77): one transaction of four lines with RS low. -/
def execBusR4 (value : Nibble) (s : State) : Host.Outcome State Fault Refusal :=
  if s.cfg.n = 4 then finish (transferByte .single (value.setWidth 8) false s)
  else .refused (.formatNotOnInstance "BUS.R4")

/-- BUS.ST (R77, R117): the status read in which the far side answers the word's sampled bits. -/
def execBusSt (sampled : Byte) (s : State) : Host.Outcome State Fault Refusal :=
  if s.cfg.hasRw then finishRead (readCore { s with inputs := answeredLevels s.cfg.n sampled ++ s.inputs })
  else .refused (.formatNotOnInstance "BUS.ST")

end Sys2Proof.Machine
end

