-- ==== Sys2Proof/Machine/Lines.lean ====
section
/-!
DEFINITION. The procedures of layer L2 (`43_command_surface.md`): compositions of writes, mirror updates and
millisecond delays.
-/
namespace Sys2Proof.Machine

/-- START as a procedure (R141). -/
def startDisplay (s : State) : Result State := do
  let s ← issueEntry .displayOn s
  issueEntry .cursorHome s

/-- The DDRAM_SET command with an address (R79), with that entry's time (R143). -/
def setAddress (address : BitVec 7) (s : State) : Result State :=
  writeByte (ddramByte s.cfg.table address) true (tableEntry s.cfg.table .ddramSet).timeUs s

/-- SET_LINE as a procedure (R143): the line is tested before WRITE is reached (R165). -/
def setLine (line : Byte) (s : State) : Result State :=
  match rowStart line with
  | none => .error (.raise .rangeError s)
  | some address => setAddress address s

/-- `ROW[line] <- text` (R144); only lines 1 and 2 have a row (R29). -/
def setRow (line : Byte) (text : List Byte) (s : State) : State :=
  if line = 1 then { s with row1 := text } else if line = 2 then { s with row2 := text } else s

/-- The pause between two characters: after every one but the last (R144; D17). -/
def typingPause (typing : Bool) (rest : List Byte) (s : State) : State :=
  if typing && !rest.isEmpty then delayMs typeMs s else s

/-- The data bytes of a text (R144). -/
def writeText (typing : Bool) : List Byte → State → Result State
  | [], s => .ok s
  | c :: rest, s => do
    let s ← writeByte c false (dataUs s.cfg.table) s
    writeText typing rest (typingPause typing rest s)

/-- PUT_LINE as a procedure (R144): the mirror is written before the first character, the text as given. -/
def putLine (line : Byte) (text : List Byte) (typing : Bool) (s : State) : Result State := do
  let s ← setLine line s
  writeText typing text (setRow line text s)

/-- CLEAR_LINE as a procedure (R145). -/
def clearLine (line : Byte) (s : State) : Result State := putLine line blankRow false s

/-- PUSH_LINE as a procedure (R146). -/
def pushLine (text : List Byte) (typing : Bool) (s : State) : Result State := do
  let s ← clearLine 1 s
  let s ← putLine 1 s.row2 false s
  let s ← clearLine 2 s
  let s ← putLine 2 text typing s
  .ok (if typing then delayMs pushMs s else s)

end Sys2Proof.Machine
end

