-- ==== Sys2Proof/Machine/CommandSurface.lean ====
section
/-!
DEFINITION. The meanings of the operations of layer L2 (`43_command_surface.md`).
-/
namespace Sys2Proof.Machine

/-- COMMAND (R140). -/
def execCommand (key : CmdKey) (s : State) : Host.Outcome State Fault Refusal := finish (issueEntry key s)

/-- START (R141). -/
def execStart (s : State) : Host.Outcome State Fault Refusal := finish (startDisplay s)

/-- CLEAR (R142). -/
def execClear (s : State) : Host.Outcome State Fault Refusal := finish (issueEntry .displayClear s)

/-- SET_LINE (R143). -/
def execSetLine (line : Byte) (s : State) : Host.Outcome State Fault Refusal := finish (setLine line s)

/-- PUT_LINE (R144). -/
def execPutLine (line : Byte) (text : List Byte) (typing : Bool) (s : State) : Host.Outcome State Fault Refusal :=
  finish (putLine line text typing s)

/-- CLEAR_LINE (R145). -/
def execClearLine (line : Byte) (s : State) : Host.Outcome State Fault Refusal := finish (clearLine line s)

/-- PUSH_LINE (R146). -/
def execPushLine (text : List Byte) (typing : Bool) (s : State) : Host.Outcome State Fault Refusal :=
  finish (pushLine text typing s)

end Sys2Proof.Machine
end

