-- ==== Sys2Proof/Machine/CommandTable.lean ====
section
/-!
DEFINITION. The meanings of the Command Table rows (`30_encoding.md` R78, R79). To issue an entry is to write its value
as a command and wait its time (`43_command_surface.md` R140): the value is the instance's, of which the row's byte is
the default (log entry 9).
-/
namespace Sys2Proof.Machine

/-- CMD.DEFAULT (R78): the row's byte is the entry's value, the time is the entry's. -/
def execCmdDefault (v : Byte) (s : State) : Host.Outcome State Fault Refusal :=
  finish (writeByte v true (tableEntry s.cfg.table .default).timeUs s)

/-- CMD.DISPLAY_ON (R78). -/
def execCmdDisplayOn (s : State) : Host.Outcome State Fault Refusal := finish (issueEntry .displayOn s)

/-- CMD.DISPLAY_OFF (R78). -/
def execCmdDisplayOff (s : State) : Host.Outcome State Fault Refusal := finish (issueEntry .displayOff s)

/-- CMD.DISPLAY_CLEAR (R78). -/
def execCmdDisplayClear (s : State) : Host.Outcome State Fault Refusal := finish (issueEntry .displayClear s)

/-- CMD.CURSOR_HOME (R78). -/
def execCmdCursorHome (s : State) : Host.Outcome State Fault Refusal := finish (issueEntry .cursorHome s)

/-- CMD.MODE_AUTOINC (R78). -/
def execCmdModeAutoinc (s : State) : Host.Outcome State Fault Refusal := finish (issueEntry .modeAutoinc s)

/-- CMD.FUNCSEL_8BIT (R78): issued outside RESET it does not change `MODE` (R86, R140). -/
def execCmdFuncsel8Bit (s : State) : Host.Outcome State Fault Refusal := finish (issueEntry .funcsel8Bit s)

/-- CMD.FUNCSEL_4BIT (R78): issued outside RESET it does not change `MODE` (R86, R140). -/
def execCmdFuncsel4Bit (s : State) : Host.Outcome State Fault Refusal := finish (issueEntry .funcsel4Bit s)

/-- CMD.DDRAM_SET (R79): the address is ORed into the entry's value. -/
def execCmdDdramSet (address : BitVec 7) (s : State) : Host.Outcome State Fault Refusal :=
  finish (setAddress address s)

end Sys2Proof.Machine
end

