-- ==== Sys2Proof/Machine/Direction.lean ====
section
/-!
DEFINITION. The meaning of SET_DIRECTION (`40_direction.md`).
-/
namespace Sys2Proof.Machine

/-- SET_DIRECTION (R100). -/
def execSetDirection (target : Direction) (s : State) : Host.Outcome State Fault Refusal :=
  finish (setDirection target s)

end Sys2Proof.Machine
end

