-- ==== Sys2Proof/Machine/ModeReset.lean ====
section
/-!
DEFINITION. The meaning of RESET (`42_mode_reset.md`).
-/
namespace Sys2Proof.Machine

/-- RESET (R130). -/
def execReset (s : State) : Host.Outcome State Fault Refusal := finish (resetDisplay s)

end Sys2Proof.Machine
end

