-- ==== Sys2Proof/Machine/RawPatterns.lean ====
section
/-!
DEFINITION. The meanings of the raw reset patterns (`30_encoding.md` R80; `42_mode_reset.md` R132, R133): one send of
the RESET prefix, a full write sequence with RS low on the single path. On an instance with another number of lines the
pattern does not exist (log entry 9).
-/
namespace Sys2Proof.Machine

/-- RAW.RESET8 (R80, R132). -/
def execRawReset8 (repetition : Fin 3) (s : State) : Host.Outcome State Fault Refusal :=
  if s.cfg.n = 8 then finish (sendRaw8 repetition s) else .refused (.formatNotOnInstance "RAW.RESET8")

/-- RAW.RESET4_3 (R80, R133). -/
def execRawReset4Three (repetition : Fin 2) (s : State) : Host.Outcome State Fault Refusal :=
  if s.cfg.n = 4 then finish (sendRaw4Three repetition s) else .refused (.formatNotOnInstance "RAW.RESET4_3")

/-- RAW.RESET4_2 (R80, R133). -/
def execRawReset4Two (repetition : Fin 2) (s : State) : Host.Outcome State Fault Refusal :=
  if s.cfg.n = 4 then finish (sendRaw4Two repetition s) else .refused (.formatNotOnInstance "RAW.RESET4_2")

end Sys2Proof.Machine
end

