-- ==== Sys2Proof/Machine/Transfer.lean ====
section
/-!
DEFINITION. The meanings of WRITE and READ (`41_transfer.md`).
-/
namespace Sys2Proof.Machine

/-- WRITE (R110): `req_time` is an unsigned count of microseconds (R73), added without wrapping (R6, D24). -/
def execWrite (value : Byte) (isCommand : Bool) (time : Micros) (s : State) : Host.Outcome State Fault Refusal :=
  finish (writeByte value isCommand time.toNat s)

/-- READ (R116). -/
def execRead (s : State) : Host.Outcome State Fault Refusal := finishRead (readStatus s)

end Sys2Proof.Machine
end

