-- ==== Sys2Proof/Machine/Dispatch.lean ====
section
/-!
DEFINITION. The dispatch: one arm per constructor of `Instr`, each one direct call of its meaning.
-/
namespace Sys2Proof.Machine

def exec (i : Instr) (s : State) : Host.Outcome State Fault Refusal :=
  match i with
  | .setDirection target => Sys2Proof.Machine.execSetDirection target s
  | .write value isCommand time => Sys2Proof.Machine.execWrite value isCommand time s
  | .read => Sys2Proof.Machine.execRead s
  | .reset => Sys2Proof.Machine.execReset s
  | .command key => Sys2Proof.Machine.execCommand key s
  | .start => Sys2Proof.Machine.execStart s
  | .clear => Sys2Proof.Machine.execClear s
  | .setLine line => Sys2Proof.Machine.execSetLine line s
  | .putLine line text typing => Sys2Proof.Machine.execPutLine line text typing s
  | .clearLine line => Sys2Proof.Machine.execClearLine line s
  | .pushLine text typing => Sys2Proof.Machine.execPushLine text typing s
  | .cmdDefault v => Sys2Proof.Machine.execCmdDefault v s
  | .cmdDisplayOn => Sys2Proof.Machine.execCmdDisplayOn s
  | .cmdDisplayOff => Sys2Proof.Machine.execCmdDisplayOff s
  | .cmdDisplayClear => Sys2Proof.Machine.execCmdDisplayClear s
  | .cmdCursorHome => Sys2Proof.Machine.execCmdCursorHome s
  | .cmdModeAutoinc => Sys2Proof.Machine.execCmdModeAutoinc s
  | .cmdFuncsel8Bit => Sys2Proof.Machine.execCmdFuncsel8Bit s
  | .cmdFuncsel4Bit => Sys2Proof.Machine.execCmdFuncsel4Bit s
  | .cmdDdramSet address => Sys2Proof.Machine.execCmdDdramSet address s
  | .rawReset8 repetition => Sys2Proof.Machine.execRawReset8 repetition s
  | .rawReset4Three repetition => Sys2Proof.Machine.execRawReset4Three repetition s
  | .rawReset4Two repetition => Sys2Proof.Machine.execRawReset4Two repetition s
  | .busB8 rs value => Sys2Proof.Machine.execBusB8 rs value s
  | .busB4 rs high low => Sys2Proof.Machine.execBusB4 rs high low s
  | .busR4 value => Sys2Proof.Machine.execBusR4 value s
  | .busSt sampled => Sys2Proof.Machine.execBusSt sampled s

end Sys2Proof.Machine
end

