-- ==== Sys2Proof/Machine/Step.lean ====
section
/-!
DEFINITION. One step: the word on the request port is taken, decoded and run to completion (`00_scope.md` R4). With
nothing on the port the engine rests and holds its pins (`60_exceptions.md` R174).
-/
namespace Sys2Proof.Machine

/-- One step (R4, R84, R184). -/
def step (s : State) : Host.Outcome State Fault Refusal :=
  match takeRequest s with
  | none => .next s
  | some (w, t) =>
    match decode w with
    | .ok i => exec i t
    | .error r => .refused (.rejected r)

/-- The state with the table's word next on the request port. -/
def State.withFetchWord (s : State) (nbits w : Nat) : State := presentTableWord nbits w s

end Sys2Proof.Machine
end

