-- ==== Sys2Proof/Machine/Trace.lean ====
section
/-!
DEFINITION. Reading a trace: the bus-transaction view of the far side (`20_memory.md` R57), merging adjacent delays
(`00_scope.md` R8), the pins as the events left them, and the samples made anonymous. The engine never reads its trace
(`10_state.md` R20).
-/
namespace Sys2Proof.Machine

/-- A transaction `(rw, rs, w, value)` (R57). -/
structure Transaction where
  rw : Bool
  rs : Bool
  width : Nat
  value : Nat
  deriving DecidableEq, Repr

/-- What the far side knows while it reads a trace: the levels of RW, RS and E, and the data lines driven or sampled
since E rose. -/
structure BusView where
  rw : Bool
  rs : Bool
  enabled : Bool
  lines : List (Nat × Bool)
  deriving DecidableEq, Repr

/-- The level a pin is driven to; a line that is not driven, an absent RW among them, counts as 0 (R57). -/
def drivenLevel : PinState → Bool
  | .output v => v
  | .unconfigured => false
  | .input _ => false

/-- The far side's view of a state between two transactions. -/
def viewOf (s : State) : BusView := ⟨drivenLevel s.pinRw, drivenLevel s.pinRs, drivenLevel s.pinE, []⟩

/-- The view after one event. A rising E begins a transfer; a data line driven or sampled joins it. -/
def viewAfter (b : BusView) : Event → BusView
  | .set .e v => { b with enabled := v, lines := [] }
  | .cfgOut .e v => { b with enabled := v, lines := [] }
  | .set .rs v => { b with rs := v }
  | .cfgOut .rs v => { b with rs := v }
  | .set .rw v => { b with rw := v }
  | .cfgOut .rw v => { b with rw := v }
  | .set (.d i) v => { b with lines := b.lines ++ [(i, v)] }
  | .sample (.d i) v => { b with lines := b.lines ++ [(i, v)] }
  | .cfgOut (.d _) _ => b
  | .cfgIn _ _ => b
  | .sample .e _ => b
  | .sample .rs _ => b
  | .sample .rw _ => b
  | .delay _ => b

/-- The number whose bit `i` is the level of `D[i]` (R57). -/
def linesValue (lines : List (Nat × Bool)) : Nat := (lines.map fun p => p.2.toNat * 2 ^ p.1).sum

/-- The transaction that a falling E closes in a view (R57). -/
def closeTransaction (b : BusView) : Transaction := ⟨b.rw, b.rs, b.lines.length, linesValue b.lines⟩

/-- The sum of the delays up to the next rising E (R57). -/
def delayBeforeRise : List Event → Nat
  | [] => 0
  | .set .e true :: _ => 0
  | .delay n :: rest => n + delayBeforeRise rest
  | _ :: rest => delayBeforeRise rest

/-- The transactions of a list of events with the delay after each: one for every falling E that follows a rising
one (R57). -/
def transactions (b : BusView) : List Event → List (Transaction × Nat)
  | [] => []
  | ev :: rest =>
    if ev = .set .e false ∧ b.enabled = true then
      (closeTransaction b, delayBeforeRise rest) :: transactions (viewAfter b ev) rest
    else transactions (viewAfter b ev) rest

/-- The events a step added to the trace. -/
def newEvents (s t : State) : List Event := t.trace.drop s.trace.length

/-- The transactions a step added to the trace, with the delay after each. -/
def newTransactions (s t : State) : List (Transaction × Nat) :=
  transactions (viewOf s) (newEvents s t)

/-- The write transactions (RW low) a step added to the trace, with the delay after each. -/
def newWrites (s t : State) : List (Transaction × Nat) := (newTransactions s t).filter fun p => !p.1.rw

/-- Adjacent delays merged by addition (R8; D8). -/
def mergeDelays : List Event → List Event
  | [] => []
  | .delay n :: rest =>
    match mergeDelays rest with
    | .delay m :: more => .delay (n + m) :: more
    | more => .delay n :: more
  | ev :: rest => ev :: mergeDelays rest

/-- The least time a list of events takes, in microseconds (R8, R122, R199). -/
def totalDelay : List Event → Nat
  | [] => 0
  | .delay n :: rest => n + totalDelay rest
  | _ :: rest => totalDelay rest

/-- `PIN[p]` after one event (R7). -/
def pinAfter (p : Pin) (x : PinState) : Event → PinState
  | .cfgOut q v => if q = p then .output v else x
  | .cfgIn q pull => if q = p then .input pull else x
  | .set q v => if q = p then .output v else x
  | .sample _ _ => x
  | .delay _ => x

/-- `PIN[p]` as a list of events leaves it, from a pin never configured (R7, R24). -/
def replayPin (p : Pin) (evs : List Event) : PinState := evs.foldl (pinAfter p) .unconfigured

/-- The pin an event is about. -/
def eventPin : Event → Option Pin
  | .cfgOut p _ => some p
  | .cfgIn p _ => some p
  | .set p _ => some p
  | .sample p _ => some p
  | .delay _ => none

/-- Whether an event reconfigures a pin (R103). -/
def configures (p : Pin) : Event → Bool
  | .cfgOut q _ => q == p
  | .cfgIn q _ => q == p
  | .set _ _ => false
  | .sample _ _ => false
  | .delay _ => false

/-- A trace with the sampled levels left out. -/
def hideSamples (evs : List Event) : List Event :=
  evs.map fun ev =>
    match ev with
    | .sample p _ => .sample p false
    | ev => ev

end Sys2Proof.Machine
end

