-- ==== Sys2Proof/WellFormed.lean ====
section
/-!
DEFINITION. When an instruction is well formed on an instance. Operand ranges are in the types of `Instr`; what is
left to check is that an LCD-side format exists on the instance: `B8` and the 8-bit raw pattern need eight data lines
(R76, R132), `B4`, `R4` and the 4-bit raw patterns four (R77, R133), `ST` a Read/Write line (R117).
-/
namespace Sys2Proof

/-- The check. A host operation is well formed on every instance: what it cannot do there it answers with an error. -/
def WellFormed (cfg : Config) : Instr → Bool
  | .setDirection _ => true
  | .write _ _ _ => true
  | .read => true
  | .reset => true
  | .command _ => true
  | .start => true
  | .clear => true
  | .setLine _ => true
  | .putLine _ _ _ => true
  | .clearLine _ => true
  | .pushLine _ _ => true
  | .cmdDefault _ => true
  | .cmdDisplayOn => true
  | .cmdDisplayOff => true
  | .cmdDisplayClear => true
  | .cmdCursorHome => true
  | .cmdModeAutoinc => true
  | .cmdFuncsel8Bit => true
  | .cmdFuncsel4Bit => true
  | .cmdDdramSet _ => true
  | .rawReset8 _ => cfg.n == 8
  | .rawReset4Three _ => cfg.n == 4
  | .rawReset4Two _ => cfg.n == 4
  | .busB8 _ _ => cfg.n == 8
  | .busB4 _ _ _ => cfg.n == 4
  | .busR4 _ => cfg.n == 4
  | .busSt _ => cfg.hasRw

end Sys2Proof
end

