-- ==== Sys2Proof/Safety.lean ====
section
/-!
DEFINITION. What a safe run is: the resting states of `10_state.md` R31, the trace that explains the pins, the bus on
which two drivers never contend (`40_direction.md` R101, R102; `70_reset_and_hazards.md` R185); and the event lists the
rules give, written once as functions of the instance, the direction and the operands.
-/
namespace Sys2Proof.Machine

/-- The invariants of a resting state (R31). `lines` and `absent` say that there is one pin state for each configured
line and none for an absent Read/Write line; for released lines `released` names the pull the engine configures
(R102), where R31 says `In(_)`. -/
structure State.Resting (s : State) : Prop where
  /-- (I-a) -/
  enable : s.pinE = .output false
  lines : s.pinD.length = s.cfg.n
  /-- (I-b) -/
  driving : s.dir = .driving → ∀ p ∈ s.pinD, isOutput p = true
  released : s.dir = .released → ∀ p ∈ s.pinD, p = .input (releasedPull s.cfg)
  unknown : s.dir = .unknown → ∀ p ∈ s.pinD, p = .unconfigured
  /-- (I-c) -/
  select : isOutput s.pinRs = true
  readWrite : s.cfg.hasRw = true → isOutput s.pinRw = true
  absent : s.cfg.hasRw = false → s.pinRw = .unconfigured
  /-- (I-d) -/
  writeMode : s.cfg.hasRw = true → s.dir = .driving → s.pinRw = .output false
  /-- (I-e) -/
  eightLines : s.mode = .eightBit → s.cfg.n = 8
  fourLines : s.mode = .fourBit → s.cfg.n = 4

/-- Every pin is as the trace left it (R7, R24). -/
def State.Explained (s : State) : Prop := ∀ p : Pin, pinState p s = replayPin p s.trace

/-- At every point of the trace: while the Read/Write line says read, no data line is driven. -/
def ContentionFree (evs : List Event) : Prop :=
  ∀ past, past <+: evs → replayPin .rw past = .output true → ∀ i, isOutput (replayPin (.d i) past) = false

/-- Every event that is about a pin is about one of the pin space of the instance (R7, R30). -/
def WithinPinSpace (cfg : Config) (evs : List Event) : Prop :=
  ∀ ev ∈ evs, ∀ p, eventPin ev = some p → ∃ id ∈ cfg.pinout.pinSpace, pinIdentifier p cfg = some id

/-- A state with its environment forgotten: the answers it has ready, the count of free ones, and the sampled levels
of its trace. -/
def State.withoutSamples (s : State) : State :=
  { s with inputs := [], drawn := 0, trace := hideSamples s.trace }

/-- The next `k` answers of an environment that has `inputs` ready and has been drawn on `drawn` times (R60). -/
def answers : Nat → List Bool → Nat → List Bool
  | 0, _, _ => []
  | k + 1, b :: rest, drawn => b :: answers k rest drawn
  | k + 1, [], drawn => Config.freeLevel drawn :: answers k [] (drawn + 1)

/-- The levels the next status read samples (R117). -/
def State.nextLevels (s : State) : List Bool := answers s.cfg.n s.inputs s.drawn

/-- The events of a move to Driving (R100, R101). -/
def driveMoveEvents (cfg : Config) : List Event :=
  (if cfg.hasRw then [.set .rw false] else []) ++ (List.range cfg.n).map fun i => .cfgOut (.d i) false

/-- The events of a move to Released (R100, R102). -/
def releaseMoveEvents (cfg : Config) : List Event :=
  ((List.range cfg.n).map fun i => .cfgIn (.d i) (releasedPull cfg)) ++ (if cfg.hasRw then [.set .rw true] else [])

/-- The events of SET_DIRECTION from a direction (R100, R103). -/
def directionEvents (cfg : Config) (dir : Dir) (target : Direction) : List Event :=
  if dir = dirOf target then []
  else
    match target with
    | .driving => driveMoveEvents cfg
    | .released => releaseMoveEvents cfg

/-- The events of a status read that samples the given levels (R117). -/
def readEvents (cfg : Config) (dir : Dir) (levels : List Bool) : List Event :=
  directionEvents cfg dir .released ++ [.set .rw true, .set .rs false, .set .e true, .delay 1]
    ++ ((List.range cfg.n).zip levels).map (fun p => .sample (.d p.1) p.2) ++ [.set .e false, .delay 1]

/-- The drive loop of one transfer on the first `w` lines (R111 step 5). -/
def driveEvents (w : Nat) (level : Nat → Bool) : List Event := (List.range w).map fun i => .set (.d i) (level i)

/-- Step 5 of a write (R111): on the split path, bit `4 + i` of the byte first, then bit `i`. -/
def byteEvents (n : Nat) (path : Path) (v : Byte) : List Event :=
  match path with
  | .single => driveEvents n v.getLsbD
  | .split =>
    driveEvents 4 (fun i => v.getLsbD (4 + i)) ++ [.delay 1, .set .e false, .delay 1, .set .e true]
      ++ driveEvents 4 v.getLsbD

/-- Steps 2 to 7 of a write (R111). -/
def transferEvents (cfg : Config) (dir : Dir) (path : Path) (v : Byte) (rs : Bool) : List Event :=
  directionEvents cfg dir .driving ++ [.set .rs rs, .set .e true] ++ byteEvents cfg.n path v
    ++ [.delay 1, .set .e false] ++ (if cfg.hasRw then [.set .rw false] else [])

/-- The events of `WRITE_CORE` (R111); `levels` are the levels its status read samples when there is one. -/
def writeEvents (cfg : Config) (dir : Dir) (path : Path) (v : Byte) (isCommand : Bool) (t : Nat)
    (levels : List Bool) : List Event :=
  (if cfg.hasRw then
    readEvents cfg dir levels ++ [.set .rw false] ++ transferEvents cfg .released path v (!isCommand)
  else transferEvents cfg dir path v (!isCommand)) ++ [.delay (1 + t)]

/-- The data pins all at one state. -/
def uniformPins (n : Nat) (x : PinState) : List PinState := (List.range n).map fun _ => x

/-- The data pins that drive the bits of a byte. -/
def drivenPins (n : Nat) (v : Byte) : List PinState := (List.range n).map fun i => .output (v.getLsbD i)

/-- The state `READ_CORE` leaves (R119). -/
def afterRead (s : State) : State :=
  { s with
    dir := .released
    pinD := uniformPins s.cfg.n (.input (releasedPull s.cfg))
    pinRw := .output true
    pinRs := .output false
    trace := s.trace ++ readEvents s.cfg s.dir s.nextLevels
    inputs := s.inputs.drop s.cfg.n
    drawn := s.drawn + (s.cfg.n - s.inputs.length) }

/-- The state steps 2 to 7 of a write leave (R115). -/
def afterTransfer (path : Path) (v : Byte) (rs : Bool) (s : State) : State :=
  { s with
    dir := .driving
    pinD := drivenPins s.cfg.n v
    pinRs := .output rs
    pinRw := if s.cfg.hasRw then .output false else s.pinRw
    trace := s.trace ++ transferEvents s.cfg s.dir path v rs }

/-- The state `WRITE_CORE` leaves (R115). -/
def afterWrite (v : Byte) (isCommand : Bool) (t : Nat) (path : Path) (s : State) : State :=
  { s with
    dir := .driving
    pinD := drivenPins s.cfg.n v
    pinRs := .output (!isCommand)
    pinRw := if s.cfg.hasRw then .output false else s.pinRw
    trace := s.trace ++ writeEvents s.cfg s.dir path v isCommand t s.nextLevels
    inputs := if s.cfg.hasRw then s.inputs.drop s.cfg.n else s.inputs
    drawn := if s.cfg.hasRw then s.drawn + (s.cfg.n - s.inputs.length) else s.drawn }

/-- A write of a sequence: the byte, whether it is a command, and its `min_exec_time_us`. -/
abbrev Sent := Byte × Bool × Nat

/-- A Command Table entry sent as it stands (R140). -/
def sentEntry (t : CmdTable) (key : CmdKey) : Sent := ((tableEntry t key).value, true, (tableEntry t key).timeUs)

/-- The state a sequence of writes leaves. -/
def afterWrites (path : Path) (sent : List Sent) (s : State) : State :=
  sent.foldl (fun s w => afterWrite w.1 w.2.1 w.2.2 path s) s

/-- The state the data bytes of a text leave, `t` the time of each: a 110 ms pause between two of them when the typing
effect is on (R144). -/
def afterText (path : Path) (typing : Bool) (t : Nat) : List Byte → State → State
  | [], s => s
  | [c], s => afterWrite c false t path s
  | c :: d :: rest, s =>
    afterText path typing t (d :: rest)
      (if typing then record (.delay 110000) (afterWrite c false t path s) else afterWrite c false t path s)

/-- The state SET_LINE leaves for the row that starts at an address (R143, R79). -/
def afterSetAddress (path : Path) (address : BitVec 7) (s : State) : State :=
  afterWrite (0x80 ||| address.setWidth 8) true s.cfg.table.ddramSetTimeUs path s

/-- The state PUT_LINE leaves for line 1 (R144). -/
def afterPutLine1 (path : Path) (text : List Byte) (typing : Bool) (s : State) : State :=
  afterText path typing s.cfg.table.defaultEntry.timeUs text { afterSetAddress path 0x00 s with row1 := text }

/-- The state PUT_LINE leaves for line 2 (R144). -/
def afterPutLine2 (path : Path) (text : List Byte) (typing : Bool) (s : State) : State :=
  afterText path typing s.cfg.table.defaultEntry.timeUs text { afterSetAddress path 0x40 s with row2 := text }

/-- The state the suffix of RESET leaves (R135). -/
def afterResetSuffix (path : Path) (s : State) : State :=
  afterWrites path [sentEntry s.cfg.table .displayOff, sentEntry s.cfg.table .displayClear,
    sentEntry s.cfg.table .modeAutoinc] s

/-- The state RESET leaves with eight lines (R130, R132, R136). -/
def afterReset8 (s : State) : State :=
  afterResetSuffix .single
    { afterWrites .single [(0x30, true, 4100), (0x30, true, 100), (0x30, true, 100),
        sentEntry s.cfg.table .funcsel8Bit] s with mode := .eightBit }

/-- The state RESET leaves with four lines (R130, R133, R134, R136). -/
def afterReset4 (s : State) : State :=
  afterResetSuffix .split
    { afterWrites s.cfg.funcsel4Path [sentEntry s.cfg.table .funcsel4Bit]
        (afterWrites .single [(0x3, true, 4100), (0x3, true, 100), (0x2, true, 100), (0x2, true, 100)] s) with
      mode := .fourBit }

/-- The path `MODE` selects (R110). -/
def pathOf : Mode → Option Path
  | .unset => none
  | .eightBit => some .single
  | .fourBit => some .split

/-- The write transactions of one write on an instance of `n` lines, with the delay after each (R57, R76, R77, R113):
one of `n` lines carrying the low `n` bits, or two of four, high nibble first, 1 µs between them. -/
def sentTransactions (n : Nat) (path : Path) (w : Sent) : List (Transaction × Nat) :=
  match path with
  | .single => [(⟨false, !w.2.1, n, w.1.toNat % 2 ^ n⟩, 1 + w.2.2)]
  | .split => [(⟨false, !w.2.1, 4, w.1.toNat / 16⟩, 1), (⟨false, !w.2.1, 4, w.1.toNat % 16⟩, 1 + w.2.2)]

/-- The least time one write takes beside its `min_exec_time_us` (R122). -/
def writeOverhead (cfg : Config) (path : Path) : Nat :=
  (match path with
    | .single => 2
    | .split => 4) + (if cfg.hasRw then 2 else 0)

/-- An instruction is answered with an error (R160); what else the error leaves is not said here. -/
def AnswersError (e : Error) (i : Instr) (s : State) : Prop :=
  ∃ (t : State) (data : Byte), exec i s = .next t ∧ t.responses = s.responses ++ [⟨.error e, data⟩]

/-- The line number is 1 or 2 (R143). -/
def legalLine (line : Byte) : Bool := line == 1 || line == 2

/-- Whether no error of R160 but an unset `MODE` stands against an instruction on an instance: a legal line number
(R162), a Read/Write line for READ (R163), a legal line count for RESET (R161). -/
def operandsLegal (cfg : Config) : Instr → Bool
  | .setDirection _ => true
  | .write _ _ _ => true
  | .read => cfg.hasRw
  | .reset => cfg.n == 4 || cfg.n == 8
  | .command _ => true
  | .start => true
  | .clear => true
  | .setLine line => legalLine line
  | .putLine line _ _ => legalLine line
  | .clearLine line => legalLine line
  | .pushLine _ _ => true
  | .cmdDefault _ => true
  | .cmdDisplayOn => true
  | .cmdDisplayOff => true
  | .cmdDisplayClear => true
  | .cmdCursorHome => true
  | .cmdModeAutoinc => true
  | .cmdFuncsel8Bit => true
  | .cmdFuncsel4Bit => true
  | .cmdDdramSet _ => true
  | .rawReset8 _ => true
  | .rawReset4Three _ => true
  | .rawReset4Two _ => true
  | .busB8 _ _ => true
  | .busB4 _ _ _ => true
  | .busR4 _ => true
  | .busSt _ => true

/-- The instructions that write the line mirror (R23; D18). -/
def writesMirror : Instr → Bool
  | .putLine _ _ _ => true
  | .clearLine _ => true
  | .pushLine _ _ => true
  | .setDirection _ => false
  | .write _ _ _ => false
  | .read => false
  | .reset => false
  | .command _ => false
  | .start => false
  | .clear => false
  | .setLine _ => false
  | .cmdDefault _ => false
  | .cmdDisplayOn => false
  | .cmdDisplayOff => false
  | .cmdDisplayClear => false
  | .cmdCursorHome => false
  | .cmdModeAutoinc => false
  | .cmdFuncsel8Bit => false
  | .cmdFuncsel4Bit => false
  | .cmdDdramSet _ => false
  | .rawReset8 _ => false
  | .rawReset4Three _ => false
  | .rawReset4Two _ => false
  | .busB8 _ _ => false
  | .busB4 _ _ _ => false
  | .busR4 _ => false
  | .busSt _ => false

/-- The host operations of the request port (R72). -/
def isHostOperation : Instr → Bool
  | .setDirection _ => true
  | .write _ _ _ => true
  | .read => true
  | .reset => true
  | .command _ => true
  | .start => true
  | .clear => true
  | .setLine _ => true
  | .putLine _ _ _ => true
  | .clearLine _ => true
  | .pushLine _ _ => true
  | .cmdDefault _ => false
  | .cmdDisplayOn => false
  | .cmdDisplayOff => false
  | .cmdDisplayClear => false
  | .cmdCursorHome => false
  | .cmdModeAutoinc => false
  | .cmdFuncsel8Bit => false
  | .cmdFuncsel4Bit => false
  | .cmdDdramSet _ => false
  | .rawReset8 _ => false
  | .rawReset4Three _ => false
  | .rawReset4Two _ => false
  | .busB8 _ _ => false
  | .busB4 _ _ _ => false
  | .busR4 _ => false
  | .busSt _ => false

end Sys2Proof.Machine
end

