-- ==== Sys2Proof/Certificates/Slice0/Obligations.lean ====
section
/-!
DEFINITION. What is stated of the machine, for the provers. A statement whose docstring says "model's choice" or names a
decision D<n> of `92_eei_decisions.md` rests there on that choice.
-/
open Sys2Proof Sys2Proof.Machine

/-! ### The request port and the encodings -/

/-- Every instruction is read back from its own port word (30_encoding R72, R73, R76 to R80; tags and widths are D2, the
LCD-side words are the model's choice, log entry 9). -/
def Obligations.DecodeOfEncode : Prop := ∀ i : Instr, decode (encode i) = .ok i

/-- An LCD-side word that decodes has one meaning: the instruction's own word is that word. The bytes and levels are those
of R76 to R80; that a word stands on the port with its key or repetition beside it, and that a byte other than the row's
default is rejected, is the model's choice (log entry 9; the default bytes are PRESUMED, log entry 2). -/
def Obligations.EncodeOfDecodedLcdWord : Prop :=
  ∀ (w : LcdWord) (i : Instr), decodeLcd w = .ok i → encode i = .lcd w

/-- Reserved tags and keys are refused before they reach the engine, every other request is a host operation (R84, D21;
that a refusal stops the step is the model's reading, `93_implementation_defined.md` U11). -/
def Obligations.ReservedEncodingsRefused : Prop :=
  ∀ (s : State) (r : Request) (rest : List PortWord), s.requests = .request r :: rest →
    (0xB ≤ r.op.toNat → step s = .refused (.rejected (.reservedTag r.op))) ∧
    (r.op = 0x4 → 9 ≤ r.key.toNat → step s = .refused (.rejected (.reservedKey r.key))) ∧
    (r.op.toNat ≤ 0xA → (r.op = 0x4 → r.key.toNat ≤ 8) →
      ∃ i, decode (.request r) = .ok i ∧ isHostOperation i = true)

/-- Words written out from the encodings of R72, R73 and R76 to R80 stand for their instructions. The numbers of the tags
and the widths are D2; the key and repetition fields of the LCD-side words, and their standing on the port, are the
model's choice (log entry 9); the byte 0x01 of DISPLAY_CLEAR is PRESUMED (log entry 2). -/
def Obligations.WordsFromTheTables : Prop :=
  decode (.request { op := 0b0000, dir := 0b1 }) = .ok (.setDirection .released) ∧
  decode (.request { op := 0b0001, value := 0b10100101, cmd := 0b0, time := 0b100101 }) = .ok (.write 0xA5 false 37) ∧
  decode (.request { op := 0b0100, key := 0b1000 }) = .ok (.command .ddramSet) ∧
  decode (.request { op := 0b1000, line := 0b1, text := [0b1000001], typing := 0b1 }) =
    .ok (.putLine 1 [0x41] true) ∧
  decode (.lcd (.cmd8 0b0011 0b00000001)) = .ok .cmdDisplayClear ∧
  decode (.lcd (.cmd8 0b1000 0b11000000)) = .ok (.cmdDdramSet 0x40) ∧
  decode (.lcd (.raw4 0b00 0b0010)) = .ok (.rawReset4Two 0) ∧
  decode (.lcd (.b4 0b011010010101)) = .ok (.busB4 true 0xA 0x5) ∧
  decode (.lcd (.st 0b1010000001)) = .ok (.busSt 0x81)

/-! ### The step and block reset -/

/-- The step takes the word on the port and runs what it decodes to; a rejected word is refused by name; with nothing on
the port the engine rests (R4, R64, R184; the list of requests is the model's choice, log entry 4). -/
def Obligations.StepRunsDecodedInstruction : Prop :=
  (∀ (s : State) (w : PortWord) (rest : List PortWord), s.requests = w :: rest →
    (∀ i, decode w = .ok i → step s = exec i { s with requests := rest }) ∧
    (∀ r, decode w = .error r → step s = .refused (.rejected r))) ∧
  (∀ s : State, s.requests = [] → step s = .next s)

/-- A word of the opcode table's numbering put on the port is the next instruction run (model's choice, log entry 10). -/
def Obligations.TableWordIsNextInstruction : Prop :=
  ∀ (s : State) (nbits w : Nat) (i : Instr), decodeTableWord nbits w = some i →
    step (s.withFetchWord nbits w) = exec i s

/-- What block reset leaves (R180, R32: the spec's own values, D4; the instance of `State.reset` is the model's choice,
log entry 1). -/
def Obligations.BlockResetState : Prop :=
  (∀ cfg : Config,
    (State.blockReset cfg).cfg = cfg ∧ (State.blockReset cfg).mode = .unset ∧ (State.blockReset cfg).dir = .unknown ∧
    (State.blockReset cfg).row1 = List.replicate 16 blank ∧ (State.blockReset cfg).row2 = List.replicate 16 blank ∧
    pinState .e (State.blockReset cfg) = .output false ∧ pinState .rs (State.blockReset cfg) = .output false ∧
    (cfg.hasRw = true → pinState .rw (State.blockReset cfg) = .output false) ∧
    (∀ i, pinState (.d i) (State.blockReset cfg) = .unconfigured) ∧
    (State.blockReset cfg).trace =
      if cfg.hasRw then [.cfgOut .e false, .cfgOut .rs false, .cfgOut .rw false]
      else [.cfgOut .e false, .cfgOut .rs false]) ∧
  State.reset = State.blockReset (Config.standard 8 true)

/-- The invariants hold right after block reset, of every instance (R31, R180). -/
def Obligations.BlockResetRests : Prop :=
  ∀ cfg : Config, (State.blockReset cfg).Resting ∧ (State.blockReset cfg).Explained ∧
    ContentionFree (State.blockReset cfg).trace

/-! ### Invariants of every step -/

/-- Every step from a resting state ends in a resting state (R31, which the spec marks derived; R183). -/
def Obligations.StepKeepsResting : Prop := ∀ s t : State, s.Resting → step s = .next t → t.Resting

/-- From a resting state no step meets a fault: no pin is set that is not an output (R7, `93_implementation_defined.md`
U13). -/
def Obligations.RestingStepNeverFaults : Prop := ∀ (s : State) (f : Fault), s.Resting → step s ≠ .fault f

/-- The pins are at every step as the trace's events left them (R7, R24). -/
def Obligations.StepKeepsPinsExplained : Prop :=
  ∀ s t : State, s.pinD.length = s.cfg.n → s.Explained → step s = .next t →
    t.pinD.length = t.cfg.n ∧ t.Explained

/-- Two drivers never contend: at no point of the trace is a data line driven while the Read/Write line says read
(R101, R102, R185). -/
def Obligations.StepKeepsBusContentionFree : Prop :=
  ∀ s t : State, s.Resting → s.Explained → ContentionFree s.trace → step s = .next t → ContentionFree t.trace

/-- No step rewrites the past or the instance: the trace and the responses only grow (R64, R5, R8). -/
def Obligations.TraceAndResponsesOnlyGrow : Prop :=
  ∀ s t : State, step s = .next t → s.trace <+: t.trace ∧ s.responses <+: t.responses ∧ t.cfg = s.cfg

/-- A request that is run is answered once and leaves the port (R8, R75, R150; the list of responses is the model's
choice, log entry 5). -/
def Obligations.EachRequestAnsweredOnce : Prop :=
  ∀ (s t : State) (w : PortWord) (rest : List PortWord), s.requests = w :: rest → step s = .next t →
    t.requests = rest ∧ ∃ r, t.responses = s.responses ++ [r]

/-- Only RESET writes `MODE`, from the line count, and no step returns it to Unset (R21, R28, R136). -/
def Obligations.OnlyResetWritesMode : Prop :=
  (∀ (i : Instr) (s t : State), i ≠ .reset → exec i s = .next t → t.mode = s.mode) ∧
  (∀ s t : State, exec .reset s = .next t →
    t.mode = if s.cfg.n = 8 then .eightBit else if s.cfg.n = 4 then .fourBit else s.mode) ∧
  (∀ s t : State, s.mode ≠ .unset → step s = .next t → t.mode ≠ .unset)

/-- `DIR` is never Unknown again; SET_DIRECTION leaves its target, WRITE Driving, READ Released (R22, R115, R119). -/
def Obligations.DirectionWritten : Prop :=
  (∀ s t : State, s.dir ≠ .unknown → step s = .next t → t.dir ≠ .unknown) ∧
  (∀ (d : Direction) (s t : State), exec (.setDirection d) s = .next t → t.dir = dirOf d) ∧
  (∀ (v : Byte) (c : Bool) (n : Micros) (s t : State), s.mode ≠ .unset → exec (.write v c n) s = .next t →
    t.dir = .driving) ∧
  (∀ s t : State, s.cfg.hasRw = true → exec .read s = .next t → t.dir = .released)

/-- Without a Read/Write line no instruction touches one or samples anything (R55, R112, R116). -/
def Obligations.NoReadWriteEventsWithoutLine : Prop :=
  ∀ (i : Instr) (s t : State), s.cfg.hasRw = false → exec i s = .next t →
    t.pinRw = s.pinRw ∧ t.inputs = s.inputs ∧ t.drawn = s.drawn ∧
    ∀ ev ∈ newEvents s t, eventPin ev ≠ some .rw ∧ ∀ p b, ev ≠ .sample p b

/-- The status reads steer nothing: whatever the environment answers, every instruction but READ and BUS.ST, whose
response is the answer, ends with the same response, state and events but for the sampled levels (R112, R118; that the
result of the busy check is dropped is D10). -/
def Obligations.SamplesDoNotSteer : Prop :=
  ∀ (i : Instr) (s t : State) (xs : List Bool) (k : Nat), i ≠ .read → (∀ w, i ≠ .busSt w) → exec i s = .next t →
    ∃ u, exec i { s with inputs := xs, drawn := k } = .next u ∧ u.withoutSamples = t.withoutSamples

/-! ### Frames -/

/-- What SET_DIRECTION leaves unchanged (R100, R106). -/
def Obligations.FrameOfDirection : Prop :=
  ∀ (d : Direction) (s t : State), exec (.setDirection d) s = .next t →
    t.cfg = s.cfg ∧ t.mode = s.mode ∧ t.row1 = s.row1 ∧ t.row2 = s.row2 ∧ t.pinE = s.pinE ∧ t.pinRs = s.pinRs ∧
    t.requests = s.requests ∧ t.inputs = s.inputs ∧ t.drawn = s.drawn ∧
    (s.cfg.hasRw = false → t.pinRw = s.pinRw) ∧
    (∀ ev ∈ newEvents s t, eventPin ev ≠ none ∧ eventPin ev ≠ some .e ∧ eventPin ev ≠ some .rs)

/-- What every instruction leaves unchanged: the instance, the host's further requests and the number of data lines;
`MODE` but for RESET; both mirror rows but for PUT_LINE, CLEAR_LINE and PUSH_LINE, RESET, CLEAR, START, COMMAND, WRITE
and SET_LINE among those that keep them (R23, D18; R28); the Read/Write pin of an instance without the line. -/
def Obligations.FrameOfEveryInstruction : Prop :=
  ∀ (i : Instr) (s t : State), exec i s = .next t →
    t.cfg = s.cfg ∧ t.requests = s.requests ∧ t.pinD.length = s.pinD.length ∧
    (i ≠ .reset → t.mode = s.mode) ∧
    (writesMirror i = false → t.row1 = s.row1 ∧ t.row2 = s.row2) ∧
    (s.cfg.hasRw = false → t.pinRw = s.pinRw)

/-- PUT_LINE and CLEAR_LINE change no row but the one of their line (R144, R145). -/
def Obligations.FrameOfLineWrites : Prop :=
  ∀ (line : Byte) (text : List Byte) (typing : Bool) (s t : State),
    (exec (.putLine line text typing) s = .next t ∨ exec (.clearLine line) s = .next t) →
      (line ≠ 1 → t.row1 = s.row1) ∧ (line ≠ 2 → t.row2 = s.row2)

/-! ### Direction -/

/-- Moving to Driving: write mode is asserted before any data line becomes an output, every line becomes an output at 0,
and the levels driven before are not restored (R101). -/
def Obligations.MoveToDrivingAssertsWriteModeFirst : Prop :=
  ∀ s : State, s.Resting → s.dir ≠ .driving →
    ∃ (t : State) (outs : List Event), exec (.setDirection .driving) s = .next t ∧
      t.trace = s.trace ++ (if s.cfg.hasRw then [.set .rw false] else []) ++ outs ∧
      outs.Perm ((List.range s.cfg.n).map fun i => .cfgOut (.d i) false) ∧
      ∀ i < s.cfg.n, pinState (.d i) t = .output false

/-- SET_DIRECTION: no event when the direction is the target already, and twice the same target reconfigures each line
exactly once (R103). -/
def Obligations.SetDirectionIsIdempotent : Prop :=
  ∀ (d : Direction) (s : State),
    (s.dir = dirOf d → exec (.setDirection d) s = .next (respond .ok 0 s)) ∧
    (s.Resting → ∃ t, exec (.setDirection d) s = .next t ∧
      exec (.setDirection d) t = .next (respond .ok 0 t) ∧
      (s.dir ≠ dirOf d → ∀ i < s.cfg.n,
        (newEvents s (respond .ok 0 t)).countP (configures (.d i)) = 1))

/-- SET_DIRECTION completes from every resting state, with these events (lines in ascending order, D7) and pins (R100 to
R104; the pull is D20). -/
def Obligations.SetDirectionResult : Prop :=
  ∀ s : State, s.Resting →
    exec (.setDirection .driving) s = .next (respond .ok 0
      { s with
        dir := .driving
        pinD := if s.dir = .driving then s.pinD else uniformPins s.cfg.n (.output false)
        pinRw := if s.cfg.hasRw then .output false else s.pinRw
        trace := s.trace ++ directionEvents s.cfg s.dir .driving }) ∧
    exec (.setDirection .released) s = .next (respond .ok 0
      { s with
        dir := .released
        pinD := uniformPins s.cfg.n (.input (releasedPull s.cfg))
        pinRw := if s.cfg.hasRw ∧ s.dir ≠ .released then .output true else s.pinRw
        trace := s.trace ++ directionEvents s.cfg s.dir .released })

/-! ### Byte transfers -/

/-- WRITE completes from every resting state with `MODE` set, in the state and with the events of R111 and R115 (order of
lines D7, busy check D10). -/
def Obligations.WriteResult : Prop :=
  ∀ (s : State) (path : Sys2Proof.Path) (v : Byte) (c : Bool) (n : Micros), s.Resting → pathOf s.mode = some path →
    exec (.write v c n) s = .next (respond .ok 0 (afterWrite v c n.toNat path s))

/-- Steps 5 and 6 of a write on the two paths: on the single path one transaction of all lines, on the split path two of
four, high nibble first, with 1 µs between them; E rises before the lines are driven, 1 µs stands before each falling edge,
RS is set once. WRITE runs the path of `MODE` (R113). -/
def Obligations.WriteTransactions : Prop :=
  (∀ (s : State) (v : Byte) (c : Bool) (n : Nat), s.Resting → s.cfg.n = 4 ∨ s.cfg.n = 8 →
    ∃ (t : State) (before lines after : List Event), writeCore v c n .single s = .ok t ∧
      newWrites s t = [(⟨false, !c, s.cfg.n, v.toNat % 2 ^ s.cfg.n⟩, 1 + n)] ∧
      newEvents s t = before ++ [.set .rs (!c), .set .e true] ++ lines ++ [.delay 1, .set .e false] ++ after ∧
      lines.Perm (driveEvents s.cfg.n v.getLsbD) ∧ ∀ ev ∈ after, eventPin ev ≠ some .rs) ∧
  (∀ (s : State) (v : Byte) (c : Bool) (n : Nat), s.Resting → s.cfg.n = 4 →
    ∃ (t : State) (before high low after : List Event), writeCore v c n .split s = .ok t ∧
      newWrites s t = [(⟨false, !c, 4, v.toNat / 16⟩, 1), (⟨false, !c, 4, v.toNat % 16⟩, 1 + n)] ∧
      newEvents s t = before ++ [.set .rs (!c), .set .e true] ++ high ++ [.delay 1, .set .e false, .delay 1, .set .e true]
        ++ low ++ [.delay 1, .set .e false] ++ after ∧
      high.Perm (driveEvents 4 fun i => v.getLsbD (4 + i)) ∧ low.Perm (driveEvents 4 v.getLsbD) ∧
      ∀ ev ∈ after, eventPin ev ≠ some .rs) ∧
  (∀ (s : State) (path : Sys2Proof.Path) (v : Byte) (c : Bool) (n : Micros), pathOf s.mode = some path →
    exec (.write v c n) s = finish (writeCore v c n.toNat path s))

/-- WRITE passes any byte with either level of RS to the bus, a function set among them, and keeps `MODE` (R86). -/
def Obligations.AnyByteReachesTheBus : Prop :=
  ∀ (s : State) (v : Byte) (c : Bool) (n : Micros), s.Resting → s.mode ≠ .unset →
    ∃ t, exec (.write v c n) s = .next t ∧ t.responses = s.responses ++ [⟨.ok, 0⟩] ∧ t.mode = s.mode ∧
      (newWrites s t).foldl (fun byte p => byte * 2 ^ p.1.width + p.1.value) 0 = v.toNat ∧
      ∀ p ∈ newWrites s t, p.1.rs = !c

/-- The delays inside one write (R122, which the spec marks derived): `t + 2` on the single path, `t + 4` on the split
path, 2 more with a Read/Write line. -/
def Obligations.WriteTiming : Prop :=
  ∀ (s t : State) (path : Sys2Proof.Path) (v : Byte) (c : Bool) (n : Micros), s.Resting →
    pathOf s.mode = some path → exec (.write v c n) s = .next t →
      totalDelay (newEvents s t) = n.toNat + writeOverhead s.cfg path

/-- READ completes from every resting state of an instance with a Read/Write line, whatever `MODE` is, in the state and
with the events of R117 and R119 (width N: D19; order D7). -/
def Obligations.ReadResult : Prop :=
  ∀ s : State, s.Resting → s.cfg.hasRw = true →
    exec .read s = .next (respond .ok (readData s.nextLevels) (afterRead s))

/-- The result of a read: bit `i` is the level sampled on `D[i]`, zero-extended; the busy flag is bit `N - 1` (R118, D19;
R75, D3). -/
def Obligations.ReadDataBits : Prop :=
  ∀ levels : List Bool, levels.length ≤ 8 →
    (∀ i, (readData levels).getLsbD i = levels.getD i false) ∧
    (∀ b, levels.length < 8 → busyFlag (levels.length + 1) (readData (levels ++ [b])) = b)

/-! ### Errors -/

/-- READ answers UnsupportedOperation exactly without a Read/Write line, in every state; nothing else ever answers it; the
line cannot appear (R163). -/
def Obligations.UnsupportedOperationOnlyFromRead : Prop :=
  (∀ s : State, s.cfg.hasRw = false → AnswersError .unsupportedOperation .read s) ∧
  (∀ (i : Instr) (s t : State) (d : Byte), exec i s = .next t →
    t.responses = s.responses ++ [⟨.error .unsupportedOperation, d⟩] → i = .read ∧ s.cfg.hasRw = false) ∧
  (∀ s t : State, step s = .next t → t.cfg.hasRw = s.cfg.hasRw)

/-- Both causes of ConfigurationError: RESET with a line count other than 4 or 8, for the life of the instance; a write,
and every operation built on it, before a successful RESET, which ends it on a legal line count. SET_DIRECTION and READ
never raise it (R161). -/
def Obligations.ConfigurationErrorCauses : Prop :=
  (∀ s : State, s.cfg.n ≠ 4 → s.cfg.n ≠ 8 → AnswersError .configurationError .reset s) ∧
  (∀ s t : State, step s = .next t → t.cfg.n = s.cfg.n) ∧
  (∀ (s : State) (i : Instr), s.mode = .unset →
    ((∃ v c n, i = .write v c n) ∨ (∃ k, i = .command k) ∨ i = .start ∨ i = .clear ∨
      (∃ l, legalLine l = true ∧ (i = .setLine l ∨ i = .clearLine l ∨ ∃ text e, i = .putLine l text e)) ∨
      ∃ text e, i = .pushLine text e) →
    AnswersError .configurationError i s) ∧
  (∀ (i : Instr) (s t : State) (d : Byte), (i = .read ∨ ∃ target, i = .setDirection target) → exec i s = .next t →
    t.responses ≠ s.responses ++ [⟨.error .configurationError, d⟩]) ∧
  (∀ s : State, s.Resting → s.cfg.n = 4 ∨ s.cfg.n = 8 → ∃ t, exec .reset s = .next t ∧ t.mode ≠ .unset)

/-- SET_LINE, PUT_LINE and CLEAR_LINE answer RangeError on every line number but 1 and 2, whatever `MODE` is, and change
nothing; PUSH_LINE never does (R162). -/
def Obligations.RangeErrorCauses : Prop :=
  (∀ (line : Byte) (text : List Byte) (typing : Bool) (s : State), line ≠ 1 → line ≠ 2 →
    exec (.setLine line) s = .next (takeError .rangeError s) ∧
    exec (.putLine line text typing) s = .next (takeError .rangeError s) ∧
    exec (.clearLine line) s = .next (takeError .rangeError s)) ∧
  (∀ (text : List Byte) (typing : Bool) (s t : State) (d : Byte), exec (.pushLine text typing) s = .next t →
    t.responses ≠ s.responses ++ [⟨.error .rangeError, d⟩])

/-- An operation that answers an error has changed nothing but the answer (R166; decisions D9 and D23). -/
def Obligations.ErrorsChangeNothing : Prop :=
  ∀ (i : Instr) (s t : State) (e : Error) (d : Byte), exec i s = .next t →
    t.responses = s.responses ++ [⟨.error e, d⟩] → t = takeError e s

/-- WRITE before RESET fails, and nothing else is ordered: with `MODE` set every operation with legal operands is
answered OK, and without it SET_DIRECTION, READ and RESET are (R188). -/
def Obligations.OnlyOrderingIsResetFirst : Prop :=
  (∀ (v : Byte) (c : Bool) (n : Micros) (s : State), s.mode = .unset →
    AnswersError .configurationError (.write v c n) s) ∧
  (∀ (i : Instr) (s : State), s.Resting → isHostOperation i = true → operandsLegal s.cfg i = true →
    (s.mode ≠ .unset ∨ i = .read ∨ i = .reset ∨ ∃ d, i = .setDirection d) →
    ∃ (t : State) (data : Byte), exec i s = .next t ∧ t.responses = s.responses ++ [⟨.ok, data⟩])

/-! ### RESET -/

/-- RESET completes from every resting state of an instance with eight or four lines (R130; busy checks in the prefix are
D11, the place of the assignment to `MODE` D13, the path of FUNCSEL_4BIT the parameter of D12). -/
def Obligations.ResetResult : Prop :=
  ∀ s : State, s.Resting →
    (s.cfg.n = 8 → exec .reset s = .next (respond .ok 0 (afterReset8 s))) ∧
    (s.cfg.n = 4 → exec .reset s = .next (respond .ok 0 (afterReset4 s)))

/-- The prefix of a 4-line RESET: the nibbles 3, 3, 2, 2 as commands, one transaction of four lines each, with their
waits; each one a full write, its status read before it when there is a Read/Write line (R133). -/
def Obligations.FourLinePrefix : Prop :=
  ∀ s : State, s.Resting → s.cfg.n = 4 →
    ∃ (t : State) (more : List (Transaction × Nat)), exec .reset s = .next t ∧
      newWrites s t = [(⟨false, false, 4, 3⟩, 4101), (⟨false, false, 4, 3⟩, 101), (⟨false, false, 4, 2⟩, 101),
        (⟨false, false, 4, 2⟩, 101)] ++ more ∧
      (s.cfg.hasRw = true → ((newTransactions s t).take 8).map (fun p => (p.1.rw, p.1.rs, p.1.width)) =
        [(true, false, 4), (false, false, 4), (true, false, 4), (false, false, 4), (true, false, 4), (false, false, 4),
          (true, false, 4), (false, false, 4)])

/-- The common suffix of RESET: DISPLAY_OFF, DISPLAY_CLEAR, MODE_AUTOINC by the path of `MODE`, each with its table value
and time, and no DISPLAY_ON: that entry has no part in the trace (R135). -/
def Obligations.ResetSuffix : Prop :=
  ∀ (s : State) (path : Sys2Proof.Path), s.Resting → (s.cfg.n = 8 ∧ path = .single ∨ s.cfg.n = 4 ∧ path = .split) →
    ∃ (t : State) (before : List (Transaction × Nat)), exec .reset s = .next t ∧ pathOf t.mode = some path ∧
      newWrites s t = before ++ [sentEntry s.cfg.table .displayOff, sentEntry s.cfg.table .displayClear,
        sentEntry s.cfg.table .modeAutoinc].flatMap (sentTransactions s.cfg.n path) ∧
      ∀ on : CmdEntry, ∃ u,
        exec .reset { s with cfg := { s.cfg with table := { s.cfg.table with displayOn := on } } } = .next u ∧
        u.trace = t.trace

/-- The write transactions of RESET on eight lines: 0x30 three times, FUNCSEL_8BIT and the suffix (R132, R135; that the raw
patterns go out as commands is the spec's inference). -/
def Obligations.EightLineTransactions : Prop :=
  ∀ s : State, s.Resting → s.cfg.n = 8 →
    ∃ t, exec .reset s = .next t ∧
      newWrites s t = [(0x30, true, 4100), (0x30, true, 100), (0x30, true, 100), sentEntry s.cfg.table .funcsel8Bit,
        sentEntry s.cfg.table .displayOff, sentEntry s.cfg.table .displayClear,
        sentEntry s.cfg.table .modeAutoinc].flatMap (sentTransactions 8 .single)

/-! ### The command surface -/

/-- COMMAND, CLEAR and START complete from every resting state with `MODE` set, as the writes of their entries (R140, R142,
R141; that CLEAR keeps the mirror is D18). -/
def Obligations.CommandResult : Prop :=
  ∀ (s : State) (path : Sys2Proof.Path), s.Resting → pathOf s.mode = some path →
    (∀ k, exec (.command k) s = .next (respond .ok 0
      (afterWrite (tableEntry s.cfg.table k).value true (tableEntry s.cfg.table k).timeUs path s))) ∧
    exec .clear s = .next (respond .ok 0
      (afterWrite s.cfg.table.displayClear.value true s.cfg.table.displayClear.timeUs path s)) ∧
    exec .start s = .next (respond .ok 0
      (afterWrites path [sentEntry s.cfg.table .displayOn, sentEntry s.cfg.table .cursorHome] s))

/-- The rows of the Command Table: each one is issued as the write of its value as a command with its time (R78, R79, R140;
that the rows run by themselves is the model's choice, log entry 9). -/
def Obligations.TableRowResults : Prop :=
  ∀ (s : State) (path : Sys2Proof.Path), s.Resting → pathOf s.mode = some path →
    (∀ v, exec (.cmdDefault v) s =
      .next (respond .ok 0 (afterWrite v true s.cfg.table.defaultEntry.timeUs path s))) ∧
    exec .cmdDisplayOn s = .next (respond .ok 0 (afterWrites path [sentEntry s.cfg.table .displayOn] s)) ∧
    exec .cmdDisplayOff s = .next (respond .ok 0 (afterWrites path [sentEntry s.cfg.table .displayOff] s)) ∧
    exec .cmdDisplayClear s = .next (respond .ok 0 (afterWrites path [sentEntry s.cfg.table .displayClear] s)) ∧
    exec .cmdCursorHome s = .next (respond .ok 0 (afterWrites path [sentEntry s.cfg.table .cursorHome] s)) ∧
    exec .cmdModeAutoinc s = .next (respond .ok 0 (afterWrites path [sentEntry s.cfg.table .modeAutoinc] s)) ∧
    exec .cmdFuncsel8Bit s = .next (respond .ok 0 (afterWrites path [sentEntry s.cfg.table .funcsel8Bit] s)) ∧
    exec .cmdFuncsel4Bit s = .next (respond .ok 0 (afterWrites path [sentEntry s.cfg.table .funcsel4Bit] s)) ∧
    (∀ a : BitVec 7, exec (.cmdDdramSet a) s =
      .next (respond .ok 0 (afterWrite (0x80 + a.setWidth 8) true s.cfg.table.ddramSetTimeUs path s)))

/-- START, tag 0x5, sends DISPLAY_ON then CURSOR_HOME and keeps the mirror; before RESET it fails with no event (R141). -/
def Obligations.StartCommands : Prop :=
  decode (.request { op := 0x5 }) = .ok .start ∧
  (∀ s : State, s.mode = .unset → AnswersError .configurationError .start s ∧
    ∀ t, exec .start s = .next t → t.trace = s.trace) ∧
  (∀ (s : State) (path : Sys2Proof.Path), s.Resting → pathOf s.mode = some path →
    ∃ t a b, exec .start s = .next t ∧ t.responses = s.responses ++ [⟨.ok, 0⟩] ∧
      exec (.command .displayOn) s = .next a ∧ exec (.command .cursorHome) a = .next b ∧
      { t with responses := [] } = { b with responses := [] } ∧
      newWrites s t = [sentEntry s.cfg.table .displayOn, sentEntry s.cfg.table .cursorHome].flatMap
        (sentTransactions s.cfg.n path) ∧
      t.row1 = s.row1 ∧ t.row2 = s.row2)

/-- SET_LINE writes `CMD[DDRAM_SET].value | ROW_START[line]`, 0x80 for line 1 and 0xC0 for line 2; the value of every other
entry goes out unchanged (R79). -/
def Obligations.SetLineByte : Prop :=
  ∀ (s : State) (path : Sys2Proof.Path), s.Resting → pathOf s.mode = some path →
    (∃ t, exec (.setLine 1) s = .next t ∧
      (newWrites s t).map Prod.fst = (sentTransactions s.cfg.n path (0x80, true, 0)).map Prod.fst) ∧
    (∃ t, exec (.setLine 2) s = .next t ∧
      (newWrites s t).map Prod.fst = (sentTransactions s.cfg.n path (0xC0, true, 0)).map Prod.fst) ∧
    (∀ a : BitVec 7, ddramByte s.cfg.table a = (tableEntry s.cfg.table .ddramSet).value ||| a.setWidth 8) ∧
    (∀ k, k ≠ .ddramSet → ∃ t, exec (.command k) s = .next t ∧ (newWrites s t).map Prod.fst =
      (sentTransactions s.cfg.n path ((tableEntry s.cfg.table k).value, true, 0)).map Prod.fst)

/-- SET_LINE completes from every resting state with `MODE` set; the wait is DDRAM_SET's own, which the spec infers
(R143). -/
def Obligations.SetLineResult : Prop :=
  ∀ (s : State) (path : Sys2Proof.Path), s.Resting → pathOf s.mode = some path →
    exec (.setLine 1) s = .next (respond .ok 0 (afterSetAddress path 0x00 s)) ∧
    exec (.setLine 2) s = .next (respond .ok 0 (afterSetAddress path 0x40 s))

/-- PUT_LINE completes from every resting state with `MODE` set: the address, the mirror as given, one data byte a
character (R144; the time of a data write is D15, no padding or cutting D16, the pause between characters D17). -/
def Obligations.PutLineResult : Prop :=
  ∀ (s : State) (path : Sys2Proof.Path) (text : List Byte) (typing : Bool), s.Resting → pathOf s.mode = some path →
    exec (.putLine 1 text typing) s = .next (respond .ok 0 (afterPutLine1 path text typing s)) ∧
    exec (.putLine 2 text typing) s = .next (respond .ok 0 (afterPutLine2 path text typing s)) ∧
    (afterPutLine1 path text typing s).row1 = text ∧ (afterPutLine2 path text typing s).row2 = text

/-- What PUT_LINE puts on the bus, on line 1 and on line 2: the address command of the line, then exactly one data byte for
each character, unchanged and in order (R144, R83; D16). -/
def Obligations.PutLineBytes : Prop :=
  ∀ (s : State) (path : Sys2Proof.Path) (text : List Byte) (typing : Bool), s.Resting → pathOf s.mode = some path →
    (∃ t, exec (.putLine 1 text typing) s = .next t ∧
      (newWrites s t).map Prod.fst = (((0x80, true, 0) :: text.map fun c => (c, false, 0)).flatMap
        (sentTransactions s.cfg.n path)).map Prod.fst) ∧
    (∃ t, exec (.putLine 2 text typing) s = .next t ∧
      (newWrites s t).map Prod.fst = (((0xC0, true, 0) :: text.map fun c => (c, false, 0)).flatMap
        (sentTransactions s.cfg.n path)).map Prod.fst)

/-- The least time PUT_LINE takes: one write a character and one for the address, and `len - 1` pauses of 110 ms with the
typing effect (R144, R149; D17, D15). -/
def Obligations.PutLineTiming : Prop :=
  ∀ (s t : State) (path : Sys2Proof.Path) (line : Byte) (text : List Byte) (typing : Bool), s.Resting →
    pathOf s.mode = some path → legalLine line = true → exec (.putLine line text typing) s = .next t →
      totalDelay (newEvents s t) = s.cfg.table.ddramSetTimeUs + writeOverhead s.cfg path
        + text.length * (s.cfg.table.defaultEntry.timeUs + writeOverhead s.cfg path)
        + (if typing then (text.length - 1) * 110000 else 0)

/-- CLEAR_LINE, tag 0x9, is PUT_LINE of sixteen blanks without the effect, errors included; on lines 1 and 2 it completes
with sixteen blanks in the row, sent as data after the address of the line (R145). -/
def Obligations.ClearLineResult : Prop :=
  (∀ line : Byte, decode (.request { op := 0x9, line := line }) = .ok (.clearLine line)) ∧
  (∀ (line : Byte) (s : State),
    exec (.clearLine line) s = exec (.putLine line (List.replicate 16 blank) false) s) ∧
  (∀ (s : State) (path : Sys2Proof.Path), s.Resting → pathOf s.mode = some path →
    (∃ t, exec (.clearLine 1) s = .next t ∧ t.responses = s.responses ++ [⟨.ok, 0⟩] ∧
      t.row1 = List.replicate 16 blank ∧ t.row2 = s.row2 ∧
      (newWrites s t).map Prod.fst = (((0x80, true, 0) :: List.replicate 16 (blank, false, 0)).flatMap
        (sentTransactions s.cfg.n path)).map Prod.fst) ∧
    (∃ t, exec (.clearLine 2) s = .next t ∧ t.responses = s.responses ++ [⟨.ok, 0⟩] ∧
      t.row2 = List.replicate 16 blank ∧ t.row1 = s.row1 ∧
      (newWrites s t).map Prod.fst = (((0xC0, true, 0) :: List.replicate 16 (blank, false, 0)).flatMap
        (sentTransactions s.cfg.n path)).map Prod.fst))

/-- PUSH_LINE, tag 0xA: clear row 1, the old row 2 into row 1, clear row 2, the text into row 2, and a pause of 100 ms with the
typing effect; the mirror shifts by exactly one row; before RESET it fails with no event (R146). -/
def Obligations.PushLineShiftsOneRow : Prop :=
  (∀ (text : List Byte) (typing : Bool),
    decode (.request { op := 0xA, text := text, typing := BitVec.ofBool typing }) = .ok (.pushLine text typing)) ∧
  (∀ (text : List Byte) (typing : Bool) (s : State), s.mode = .unset →
    AnswersError .configurationError (.pushLine text typing) s ∧
      ∀ t, exec (.pushLine text typing) s = .next t → t.trace = s.trace) ∧
  (∀ (text : List Byte) (typing : Bool) (s t : State) (d : Byte), exec (.pushLine text typing) s = .next t →
    t.responses ≠ s.responses ++ [⟨.error .rangeError, d⟩]) ∧
  (∀ (s : State) (path : Sys2Proof.Path) (text : List Byte) (typing : Bool), s.Resting → pathOf s.mode = some path →
    ∃ t a b c d, exec (.pushLine text typing) s = .next t ∧ t.responses = s.responses ++ [⟨.ok, 0⟩] ∧
      exec (.clearLine 1) s = .next a ∧ exec (.putLine 1 s.row2 false) a = .next b ∧
      exec (.clearLine 2) b = .next c ∧ exec (.putLine 2 text typing) c = .next d ∧
      { t with responses := [] } = { (if typing then record (.delay 100000) d else d) with responses := [] } ∧
      t.row1 = s.row2 ∧ t.row2 = text)

/-- The state PUSH_LINE leaves, and the bytes it puts on the bus, which the spec derives (R147): four commands and
`32 + p + q` data bytes (order of lines D7, busy checks D10, times D15, text D16, pauses D17). -/
def Obligations.PushLineBytes : Prop :=
  ∀ (s : State) (path : Sys2Proof.Path) (text : List Byte) (typing : Bool), s.Resting → pathOf s.mode = some path →
    ∃ t u, exec (.pushLine text typing) s = .next t ∧
      u = afterPutLine2 path text typing (afterPutLine2 path (List.replicate 16 blank) false
        (afterPutLine1 path s.row2 false (afterPutLine1 path (List.replicate 16 blank) false s))) ∧
      t = respond .ok 0 (if typing then record (.delay 100000) u else u) ∧
      (newWrites s t).map Prod.fst =
        (((0x80, true, 0) :: (List.replicate 16 blank).map (fun c => (c, false, 0))
          ++ (0x80, true, 0) :: s.row2.map (fun c => (c, false, 0))
          ++ (0xC0, true, 0) :: (List.replicate 16 blank).map (fun c => (c, false, 0))
          ++ (0xC0, true, 0) :: text.map (fun c => (c, false, 0))).flatMap
            (sentTransactions s.cfg.n path)).map Prod.fst

/-! ### The LCD-side rows -/

/-- The raw patterns: each send of the RESET prefix is one full write as a command on the single path, with its wait (R80,
R132, R133; that the rows run by themselves is the model's choice, log entry 9). -/
def Obligations.RawPatternResults : Prop :=
  ∀ s : State, s.Resting →
    (s.cfg.n = 8 → ∀ r : Fin 3, exec (.rawReset8 r) s =
      .next (respond .ok 0 (afterWrite 0x30 true (if r = 0 then 4100 else 100) .single s))) ∧
    (s.cfg.n = 4 → ∀ r : Fin 2,
      exec (.rawReset4Three r) s =
        .next (respond .ok 0 (afterWrite 0x3 true (if r = 0 then 4100 else 100) .single s)) ∧
      exec (.rawReset4Two r) s = .next (respond .ok 0 (afterWrite 0x2 true 100 .single s)))

/-- The bus formats of a write: exactly the transactions the word describes (R57, R76, R77; that the formats run by
themselves, with no closing delay, is the model's choice, log entry 9). -/
def Obligations.BusFormatResults : Prop :=
  ∀ s : State, s.Resting →
    (s.cfg.n = 8 → ∀ (rs : Bool) (v : Byte), ∃ t, exec (.busB8 rs v) s = .next t ∧
      t = respond .ok 0 (afterTransfer .single v rs s) ∧ newTransactions s t = [(⟨false, rs, 8, v.toNat⟩, 0)]) ∧
    (s.cfg.n = 4 → ∀ (rs : Bool) (h l : Nibble), ∃ t, exec (.busB4 rs h l) s = .next t ∧
      t = respond .ok 0 (afterTransfer .split (h ++ l) rs s) ∧
      newTransactions s t = [(⟨false, rs, 4, h.toNat⟩, 1), (⟨false, rs, 4, l.toNat⟩, 0)]) ∧
    (s.cfg.n = 4 → ∀ v : Nibble, ∃ t, exec (.busR4 v) s = .next t ∧
      t = respond .ok 0 (afterTransfer .single (v.setWidth 8) false s) ∧
      newTransactions s t = [(⟨false, false, 4, v.toNat⟩, 0)])

/-- The status read of the bus format: one transaction that samples the word's bits, answered as READ answers them (R77,
R117, R118; that the format runs by itself and fixes the environment's answer is the model's choice, log entry 9). -/
def Obligations.BusStatusResult : Prop :=
  ∀ (s : State) (w : Byte), s.Resting → s.cfg.hasRw = true → s.cfg.n ≤ 8 →
    ∃ t, exec (.busSt w) s = .next t ∧
      t = respond .ok (BitVec.ofNat 8 (w.toNat % 2 ^ s.cfg.n))
        (afterRead { s with inputs := answeredLevels s.cfg.n w ++ s.inputs }) ∧
      t.inputs = s.inputs ∧ newTransactions s t = [(⟨true, false, s.cfg.n, w.toNat % 2 ^ s.cfg.n⟩, 1)]

/-- `exec` refuses exactly the instructions that are not well formed on the instance: a format another number of lines, or
a Read/Write line, would be needed for (model's choice, log entry 9). -/
def Obligations.OnlyForeignFormatsRefused : Prop :=
  ∀ (i : Instr) (s : State), (∃ r, exec i s = .refused r) ↔ WellFormed s.cfg i = false

/-! ### The pin space -/

/-- The engine reaches no pin but those of its pinout: the trace of block reset is about them, and no step adds an event
about another (R7, R30, R50; that an identifier is a number is the model's choice, log entry 21). -/
def Obligations.StepStaysWithinPinSpace : Prop :=
  (∀ cfg : Config, WithinPinSpace cfg (State.blockReset cfg).trace) ∧
  (∀ s t : State, s.Resting → WithinPinSpace s.cfg s.trace → step s = .next t → WithinPinSpace t.cfg t.trace)
end

