-- ==== Sys2Proof/Laws/State.lean ====
section
/-!
SUPPORT. The state's small lemmas: what each update does to each field, so that no later proof unfolds a record update.
-/
namespace Sys2Proof.Machine

@[simp] theorem record_cfg (ev : Event) (s : State) : (record ev s).cfg = s.cfg := rfl
@[simp] theorem record_mode (ev : Event) (s : State) : (record ev s).mode = s.mode := rfl
@[simp] theorem record_dir (ev : Event) (s : State) : (record ev s).dir = s.dir := rfl
@[simp] theorem record_row1 (ev : Event) (s : State) : (record ev s).row1 = s.row1 := rfl
@[simp] theorem record_row2 (ev : Event) (s : State) : (record ev s).row2 = s.row2 := rfl
@[simp] theorem record_pinD (ev : Event) (s : State) : (record ev s).pinD = s.pinD := rfl
@[simp] theorem record_pinE (ev : Event) (s : State) : (record ev s).pinE = s.pinE := rfl
@[simp] theorem record_pinRs (ev : Event) (s : State) : (record ev s).pinRs = s.pinRs := rfl
@[simp] theorem record_pinRw (ev : Event) (s : State) : (record ev s).pinRw = s.pinRw := rfl
@[simp] theorem record_trace (ev : Event) (s : State) : (record ev s).trace = s.trace ++ [ev] := rfl
@[simp] theorem record_responses (ev : Event) (s : State) : (record ev s).responses = s.responses := rfl
@[simp] theorem record_requests (ev : Event) (s : State) : (record ev s).requests = s.requests := rfl
@[simp] theorem record_inputs (ev : Event) (s : State) : (record ev s).inputs = s.inputs := rfl
@[simp] theorem record_drawn (ev : Event) (s : State) : (record ev s).drawn = s.drawn := rfl

@[simp] theorem delay_cfg (us : Nat) (s : State) : (delay us s).cfg = s.cfg := rfl
@[simp] theorem delay_mode (us : Nat) (s : State) : (delay us s).mode = s.mode := rfl
@[simp] theorem delay_dir (us : Nat) (s : State) : (delay us s).dir = s.dir := rfl
@[simp] theorem delay_row1 (us : Nat) (s : State) : (delay us s).row1 = s.row1 := rfl
@[simp] theorem delay_row2 (us : Nat) (s : State) : (delay us s).row2 = s.row2 := rfl
@[simp] theorem delay_pinD (us : Nat) (s : State) : (delay us s).pinD = s.pinD := rfl
@[simp] theorem delay_pinE (us : Nat) (s : State) : (delay us s).pinE = s.pinE := rfl
@[simp] theorem delay_pinRs (us : Nat) (s : State) : (delay us s).pinRs = s.pinRs := rfl
@[simp] theorem delay_pinRw (us : Nat) (s : State) : (delay us s).pinRw = s.pinRw := rfl
@[simp] theorem delay_trace (us : Nat) (s : State) : (delay us s).trace = s.trace ++ [.delay us] := rfl
@[simp] theorem delay_responses (us : Nat) (s : State) : (delay us s).responses = s.responses := rfl
@[simp] theorem delay_requests (us : Nat) (s : State) : (delay us s).requests = s.requests := rfl
@[simp] theorem delay_inputs (us : Nat) (s : State) : (delay us s).inputs = s.inputs := rfl
@[simp] theorem delay_drawn (us : Nat) (s : State) : (delay us s).drawn = s.drawn := rfl

@[simp] theorem delayMs_cfg (ms : Nat) (s : State) : (delayMs ms s).cfg = s.cfg := rfl
@[simp] theorem delayMs_mode (ms : Nat) (s : State) : (delayMs ms s).mode = s.mode := rfl
@[simp] theorem delayMs_dir (ms : Nat) (s : State) : (delayMs ms s).dir = s.dir := rfl
@[simp] theorem delayMs_row1 (ms : Nat) (s : State) : (delayMs ms s).row1 = s.row1 := rfl
@[simp] theorem delayMs_row2 (ms : Nat) (s : State) : (delayMs ms s).row2 = s.row2 := rfl
@[simp] theorem delayMs_pinD (ms : Nat) (s : State) : (delayMs ms s).pinD = s.pinD := rfl
@[simp] theorem delayMs_pinE (ms : Nat) (s : State) : (delayMs ms s).pinE = s.pinE := rfl
@[simp] theorem delayMs_pinRs (ms : Nat) (s : State) : (delayMs ms s).pinRs = s.pinRs := rfl
@[simp] theorem delayMs_pinRw (ms : Nat) (s : State) : (delayMs ms s).pinRw = s.pinRw := rfl
@[simp] theorem delayMs_trace (ms : Nat) (s : State) : (delayMs ms s).trace = s.trace ++ [.delay (1000 * ms)] := rfl
@[simp] theorem delayMs_responses (ms : Nat) (s : State) : (delayMs ms s).responses = s.responses := rfl
@[simp] theorem delayMs_requests (ms : Nat) (s : State) : (delayMs ms s).requests = s.requests := rfl
@[simp] theorem delayMs_inputs (ms : Nat) (s : State) : (delayMs ms s).inputs = s.inputs := rfl
@[simp] theorem delayMs_drawn (ms : Nat) (s : State) : (delayMs ms s).drawn = s.drawn := rfl

@[simp] theorem respond_cfg (st : Status) (d : Byte) (s : State) : (respond st d s).cfg = s.cfg := rfl
@[simp] theorem respond_mode (st : Status) (d : Byte) (s : State) : (respond st d s).mode = s.mode := rfl
@[simp] theorem respond_dir (st : Status) (d : Byte) (s : State) : (respond st d s).dir = s.dir := rfl
@[simp] theorem respond_row1 (st : Status) (d : Byte) (s : State) : (respond st d s).row1 = s.row1 := rfl
@[simp] theorem respond_row2 (st : Status) (d : Byte) (s : State) : (respond st d s).row2 = s.row2 := rfl
@[simp] theorem respond_pinD (st : Status) (d : Byte) (s : State) : (respond st d s).pinD = s.pinD := rfl
@[simp] theorem respond_pinE (st : Status) (d : Byte) (s : State) : (respond st d s).pinE = s.pinE := rfl
@[simp] theorem respond_pinRs (st : Status) (d : Byte) (s : State) : (respond st d s).pinRs = s.pinRs := rfl
@[simp] theorem respond_pinRw (st : Status) (d : Byte) (s : State) : (respond st d s).pinRw = s.pinRw := rfl
@[simp] theorem respond_trace (st : Status) (d : Byte) (s : State) : (respond st d s).trace = s.trace := rfl
@[simp] theorem respond_responses (st : Status) (d : Byte) (s : State) : (respond st d s).responses = s.responses ++ [⟨st, d⟩] := rfl
@[simp] theorem respond_requests (st : Status) (d : Byte) (s : State) : (respond st d s).requests = s.requests := rfl
@[simp] theorem respond_inputs (st : Status) (d : Byte) (s : State) : (respond st d s).inputs = s.inputs := rfl
@[simp] theorem respond_drawn (st : Status) (d : Byte) (s : State) : (respond st d s).drawn = s.drawn := rfl

@[simp] theorem takeError_cfg (e : Error) (s : State) : (takeError e s).cfg = s.cfg := rfl
@[simp] theorem takeError_mode (e : Error) (s : State) : (takeError e s).mode = s.mode := rfl
@[simp] theorem takeError_dir (e : Error) (s : State) : (takeError e s).dir = s.dir := rfl
@[simp] theorem takeError_row1 (e : Error) (s : State) : (takeError e s).row1 = s.row1 := rfl
@[simp] theorem takeError_row2 (e : Error) (s : State) : (takeError e s).row2 = s.row2 := rfl
@[simp] theorem takeError_pinD (e : Error) (s : State) : (takeError e s).pinD = s.pinD := rfl
@[simp] theorem takeError_pinE (e : Error) (s : State) : (takeError e s).pinE = s.pinE := rfl
@[simp] theorem takeError_pinRs (e : Error) (s : State) : (takeError e s).pinRs = s.pinRs := rfl
@[simp] theorem takeError_pinRw (e : Error) (s : State) : (takeError e s).pinRw = s.pinRw := rfl
@[simp] theorem takeError_trace (e : Error) (s : State) : (takeError e s).trace = s.trace := rfl
@[simp] theorem takeError_responses (e : Error) (s : State) : (takeError e s).responses = s.responses ++ [⟨.error e, 0⟩] := rfl
@[simp] theorem takeError_requests (e : Error) (s : State) : (takeError e s).requests = s.requests := rfl
@[simp] theorem takeError_inputs (e : Error) (s : State) : (takeError e s).inputs = s.inputs := rfl
@[simp] theorem takeError_drawn (e : Error) (s : State) : (takeError e s).drawn = s.drawn := rfl

@[simp] theorem setDir_cfg (d : Dir) (s : State) : (setDir d s).cfg = s.cfg := rfl
@[simp] theorem setDir_mode (d : Dir) (s : State) : (setDir d s).mode = s.mode := rfl
@[simp] theorem setDir_dir (d : Dir) (s : State) : (setDir d s).dir = d := rfl
@[simp] theorem setDir_row1 (d : Dir) (s : State) : (setDir d s).row1 = s.row1 := rfl
@[simp] theorem setDir_row2 (d : Dir) (s : State) : (setDir d s).row2 = s.row2 := rfl
@[simp] theorem setDir_pinD (d : Dir) (s : State) : (setDir d s).pinD = s.pinD := rfl
@[simp] theorem setDir_pinE (d : Dir) (s : State) : (setDir d s).pinE = s.pinE := rfl
@[simp] theorem setDir_pinRs (d : Dir) (s : State) : (setDir d s).pinRs = s.pinRs := rfl
@[simp] theorem setDir_pinRw (d : Dir) (s : State) : (setDir d s).pinRw = s.pinRw := rfl
@[simp] theorem setDir_trace (d : Dir) (s : State) : (setDir d s).trace = s.trace := rfl
@[simp] theorem setDir_responses (d : Dir) (s : State) : (setDir d s).responses = s.responses := rfl
@[simp] theorem setDir_requests (d : Dir) (s : State) : (setDir d s).requests = s.requests := rfl
@[simp] theorem setDir_inputs (d : Dir) (s : State) : (setDir d s).inputs = s.inputs := rfl
@[simp] theorem setDir_drawn (d : Dir) (s : State) : (setDir d s).drawn = s.drawn := rfl

@[simp] theorem setMode_cfg (m : Mode) (s : State) : (setMode m s).cfg = s.cfg := rfl
@[simp] theorem setMode_mode (m : Mode) (s : State) : (setMode m s).mode = m := rfl
@[simp] theorem setMode_dir (m : Mode) (s : State) : (setMode m s).dir = s.dir := rfl
@[simp] theorem setMode_row1 (m : Mode) (s : State) : (setMode m s).row1 = s.row1 := rfl
@[simp] theorem setMode_row2 (m : Mode) (s : State) : (setMode m s).row2 = s.row2 := rfl
@[simp] theorem setMode_pinD (m : Mode) (s : State) : (setMode m s).pinD = s.pinD := rfl
@[simp] theorem setMode_pinE (m : Mode) (s : State) : (setMode m s).pinE = s.pinE := rfl
@[simp] theorem setMode_pinRs (m : Mode) (s : State) : (setMode m s).pinRs = s.pinRs := rfl
@[simp] theorem setMode_pinRw (m : Mode) (s : State) : (setMode m s).pinRw = s.pinRw := rfl
@[simp] theorem setMode_trace (m : Mode) (s : State) : (setMode m s).trace = s.trace := rfl
@[simp] theorem setMode_responses (m : Mode) (s : State) : (setMode m s).responses = s.responses := rfl
@[simp] theorem setMode_requests (m : Mode) (s : State) : (setMode m s).requests = s.requests := rfl
@[simp] theorem setMode_inputs (m : Mode) (s : State) : (setMode m s).inputs = s.inputs := rfl
@[simp] theorem setMode_drawn (m : Mode) (s : State) : (setMode m s).drawn = s.drawn := rfl

@[simp] theorem putPin_d (i : Nat) (x : PinState) (s : State) : putPin (.d i) x s = { s with pinD := s.pinD.set i x } := rfl
@[simp] theorem pinState_d (i : Nat) (s : State) : pinState (.d i) s = s.pinD.getD i .unconfigured := rfl
@[simp] theorem putPin_e (x : PinState) (s : State) : putPin .e x s = { s with pinE := x } := rfl
@[simp] theorem pinState_e (s : State) : pinState .e s = s.pinE := rfl
@[simp] theorem putPin_rs (x : PinState) (s : State) : putPin .rs x s = { s with pinRs := x } := rfl
@[simp] theorem pinState_rs (s : State) : pinState .rs s = s.pinRs := rfl
@[simp] theorem putPin_rw (x : PinState) (s : State) : putPin .rw x s = { s with pinRw := x } := rfl
@[simp] theorem pinState_rw (s : State) : pinState .rw s = s.pinRw := rfl
@[simp] theorem putPin_cfg (p : Pin) (x : PinState) (s : State) : (putPin p x s).cfg = s.cfg := by cases p <;> rfl
@[simp] theorem putPin_mode (p : Pin) (x : PinState) (s : State) : (putPin p x s).mode = s.mode := by cases p <;> rfl
@[simp] theorem putPin_dir (p : Pin) (x : PinState) (s : State) : (putPin p x s).dir = s.dir := by cases p <;> rfl
@[simp] theorem putPin_row1 (p : Pin) (x : PinState) (s : State) : (putPin p x s).row1 = s.row1 := by cases p <;> rfl
@[simp] theorem putPin_row2 (p : Pin) (x : PinState) (s : State) : (putPin p x s).row2 = s.row2 := by cases p <;> rfl
@[simp] theorem putPin_trace (p : Pin) (x : PinState) (s : State) : (putPin p x s).trace = s.trace := by cases p <;> rfl
@[simp] theorem putPin_responses (p : Pin) (x : PinState) (s : State) : (putPin p x s).responses = s.responses := by cases p <;> rfl
@[simp] theorem putPin_requests (p : Pin) (x : PinState) (s : State) : (putPin p x s).requests = s.requests := by cases p <;> rfl
@[simp] theorem putPin_inputs (p : Pin) (x : PinState) (s : State) : (putPin p x s).inputs = s.inputs := by cases p <;> rfl
@[simp] theorem putPin_drawn (p : Pin) (x : PinState) (s : State) : (putPin p x s).drawn = s.drawn := by cases p <;> rfl

@[simp] theorem setRow_cfg (l : Byte) (t : List Byte) (s : State) : (setRow l t s).cfg = s.cfg := by
  unfold setRow; split <;> [rfl; (split <;> rfl)]
@[simp] theorem setRow_mode (l : Byte) (t : List Byte) (s : State) : (setRow l t s).mode = s.mode := by
  unfold setRow; split <;> [rfl; (split <;> rfl)]
@[simp] theorem setRow_dir (l : Byte) (t : List Byte) (s : State) : (setRow l t s).dir = s.dir := by
  unfold setRow; split <;> [rfl; (split <;> rfl)]
@[simp] theorem setRow_pinD (l : Byte) (t : List Byte) (s : State) : (setRow l t s).pinD = s.pinD := by
  unfold setRow; split <;> [rfl; (split <;> rfl)]
@[simp] theorem setRow_pinE (l : Byte) (t : List Byte) (s : State) : (setRow l t s).pinE = s.pinE := by
  unfold setRow; split <;> [rfl; (split <;> rfl)]
@[simp] theorem setRow_pinRs (l : Byte) (t : List Byte) (s : State) : (setRow l t s).pinRs = s.pinRs := by
  unfold setRow; split <;> [rfl; (split <;> rfl)]
@[simp] theorem setRow_pinRw (l : Byte) (t : List Byte) (s : State) : (setRow l t s).pinRw = s.pinRw := by
  unfold setRow; split <;> [rfl; (split <;> rfl)]
@[simp] theorem setRow_trace (l : Byte) (t : List Byte) (s : State) : (setRow l t s).trace = s.trace := by
  unfold setRow; split <;> [rfl; (split <;> rfl)]
@[simp] theorem setRow_responses (l : Byte) (t : List Byte) (s : State) : (setRow l t s).responses = s.responses := by
  unfold setRow; split <;> [rfl; (split <;> rfl)]
@[simp] theorem setRow_requests (l : Byte) (t : List Byte) (s : State) : (setRow l t s).requests = s.requests := by
  unfold setRow; split <;> [rfl; (split <;> rfl)]
@[simp] theorem setRow_inputs (l : Byte) (t : List Byte) (s : State) : (setRow l t s).inputs = s.inputs := by
  unfold setRow; split <;> [rfl; (split <;> rfl)]
@[simp] theorem setRow_drawn (l : Byte) (t : List Byte) (s : State) : (setRow l t s).drawn = s.drawn := by
  unfold setRow; split <;> [rfl; (split <;> rfl)]

@[simp] theorem isOutput_output (v : Bool) : isOutput (.output v) = true := rfl
@[simp] theorem isOutput_input (p : Pull) : isOutput (.input p) = false := rfl
@[simp] theorem isOutput_unconfigured : isOutput .unconfigured = false := rfl
@[simp] theorem dirOf_driving : dirOf .driving = .driving := rfl
@[simp] theorem dirOf_released : dirOf .released = .released := rfl

/-- `PinSet` on an output. -/
theorem pinSet_ok {p : Pin} {s : State} (h : isOutput (pinState p s) = true) (v : Bool) :
    pinSet p v s = .ok (record (.set p v) (putPin p (.output v) s)) := by
  simp [pinSet, h]

/-- `PinSet` answers a state only on an output, and then exactly one. -/
theorem pinSet_cases {p : Pin} {v : Bool} {s t : State} (h : pinSet p v s = .ok t) :
    isOutput (pinState p s) = true ∧ t = record (.set p v) (putPin p (.output v) s) := by
  unfold pinSet at h
  split at h
  · exact ⟨‹_›, by simpa using h.symm⟩
  · cases h

@[simp] theorem standard_n (n : Nat) (hasRw : Bool) : (Config.standard n hasRw).n = n := by
  simp [Config.standard, Config.n, Pinout.standard]

@[simp] theorem standard_hasRw (n : Nat) (hasRw : Bool) : (Config.standard n hasRw).hasRw = hasRw := by
  cases hasRw <;> rfl

/-- The pin space has `N + 3` identifiers with a Read/Write line and `N + 2` without (R30). -/
theorem pinSpace_length (cfg : Config) :
    cfg.pinout.pinSpace.length = cfg.n + 2 + cfg.hasRw.toNat := by
  simp only [Pinout.pinSpace, Config.n, Config.hasRw]
  cases cfg.pinout.readWrite <;> simp

@[simp] theorem pinIdentifier_e (cfg : Config) : pinIdentifier .e cfg = some cfg.pinout.enable := rfl

@[simp] theorem pinIdentifier_rs (cfg : Config) : pinIdentifier .rs cfg = some cfg.pinout.registerSelect := rfl

/-- A data line has an identifier exactly when it is configured (R50). -/
theorem pinIdentifier_d_isSome (i : Nat) (cfg : Config) : (pinIdentifier (.d i) cfg).isSome = true ↔ i < cfg.n := by
  simp [pinIdentifier, Config.n]

/-- The Read/Write line has an identifier exactly when it is configured (R50). -/
theorem pinIdentifier_rw_isSome (cfg : Config) : (pinIdentifier .rw cfg).isSome = cfg.hasRw := rfl

/-- What a role stands for is in the pin space. -/
theorem pinIdentifier_mem {p : Pin} {cfg : Config} {id : PinId} (h : pinIdentifier p cfg = some id) :
    id ∈ cfg.pinout.pinSpace := by
  match p with
  | .d i => simp [Pinout.pinSpace, List.mem_of_getElem? h]
  | .e | .rs =>
    obtain rfl := Option.some.inj h
    simp [Pinout.pinSpace]
  | .rw =>
    have hr : cfg.pinout.readWrite = some id := h
    simp [Pinout.pinSpace, hr]

/-- A row has a window exactly when its number is 1 to `ROWS`; the window is 40 cells long (R5, R63). -/
theorem rowWindow_spec (line : Byte) :
    ((rowWindow line).isSome = decide (1 ≤ line.toNat ∧ line.toNat ≤ rows)) ∧
    ∀ first last, rowWindow line = some (first, last) → rowStart line = some first ∧
      last.toNat + 1 = first.toNat + 0x28 := by
  by_cases h1 : line = 1
  · subst h1
    exact ⟨by decide, fun first last h => by cases h; exact ⟨rfl, rfl⟩⟩
  · by_cases h2 : line = 2
    · subst h2
      exact ⟨by decide, fun first last h => by cases h; exact ⟨rfl, rfl⟩⟩
    · have hs : rowStart line = none := by rw [rowStart, if_neg h1, if_neg h2]
      have hn : rowWindow line = none := by simp only [rowWindow, hs]
      refine ⟨?_, by simp [hn]⟩
      have ht1 : line.toNat ≠ 1 := fun h => h1 (BitVec.eq_of_toNat_eq h)
      have ht2 : line.toNat ≠ 2 := fun h => h2 (BitVec.eq_of_toNat_eq h)
      simp only [hn, Option.isSome_none, rows]
      exact (decide_eq_false (by omega)).symm

end Sys2Proof.Machine
end

