-- ==== Sys2Proof/Laws/Loops.lean ====
section
/-!
SUPPORT. What the loops over the data lines do: the pins they leave and the events they append.
-/
namespace Sys2Proof.Machine

/-- The data pins after a loop that puts `f i` on each line of `is`. -/
def putLines (f : Nat → PinState) (is : List Nat) (pins : List PinState) : List PinState :=
  is.foldl (fun pins i => pins.set i (f i)) pins

@[simp] theorem putLines_nil (f : Nat → PinState) (pins : List PinState) : putLines f [] pins = pins := rfl

@[simp] theorem putLines_cons (f : Nat → PinState) (i : Nat) (is : List Nat) (pins : List PinState) :
    putLines f (i :: is) pins = putLines f is (pins.set i (f i)) := rfl

@[simp] theorem putLines_length (f : Nat → PinState) (is : List Nat) (pins : List PinState) :
    (putLines f is pins).length = pins.length := by
  induction is generalizing pins with
  | nil => rfl
  | cons i is ih => simp [ih]

theorem putLines_getElem? (f : Nat → PinState) (is : List Nat) (pins : List PinState) (j : Nat) :
    (putLines f is pins)[j]? = if j ∈ is ∧ j < pins.length then some (f j) else pins[j]? := by
  induction is generalizing pins with
  | nil => simp
  | cons i is ih =>
    rw [putLines_cons, ih, List.getElem?_set]
    by_cases hj : j < pins.length <;> by_cases hm : j ∈ is <;> by_cases hi : i = j <;> simp_all <;> aesop

/-- A loop over all lines leaves exactly what it puts. -/
theorem putLines_range (f : Nat → PinState) {n : Nat} {pins : List PinState} (h : pins.length = n) :
    putLines f (List.range n) pins = (List.range n).map f := by
  apply List.ext_getElem?
  intro j
  rw [putLines_getElem?]
  by_cases hj : j < n <;> simp [hj, h]

theorem configureOutputs_eq (is : List Nat) (s : State) :
    configureOutputs is s =
      { s with
        pinD := putLines (fun _ => .output false) is s.pinD
        trace := s.trace ++ is.map fun i => .cfgOut (.d i) false } := by
  induction is generalizing s with
  | nil => simp [configureOutputs]
  | cons i is ih =>
    rw [configureOutputs, List.foldl_cons, ← configureOutputs, ih]
    simp [pinCfgOut, record]

theorem configureInputs_eq (is : List Nat) (s : State) :
    configureInputs is s =
      { s with
        pinD := putLines (fun _ => .input (releasedPull s.cfg)) is s.pinD
        trace := s.trace ++ is.map fun i => .cfgIn (.d i) (releasedPull s.cfg) } := by
  induction is generalizing s with
  | nil => simp [configureInputs]
  | cons i is ih =>
    rw [configureInputs, List.foldl_cons, ← configureInputs, ih]
    simp [pinCfgIn, record]

/-- A drive loop over outputs completes. -/
theorem driveLines_eq (level : Nat → Bool) (is : List Nat) (s : State)
    (h : ∀ i ∈ is, isOutput (pinState (.d i) s) = true) :
    driveLines level is s =
      .ok { s with
        pinD := putLines (fun i => .output (level i)) is s.pinD
        trace := s.trace ++ is.map fun i => .set (.d i) (level i) } := by
  induction is generalizing s with
  | nil => simp [driveLines]
  | cons i is ih =>
    have hi := h i (by simp)
    rw [driveLines, pinSet_ok hi]
    simp only [bind, Except.bind]
    rw [ih]
    · simp [record]
    · intro j hj
      have hj' := h j (by simp [hj])
      by_cases hij : i = j <;> by_cases hl : j < s.pinD.length <;>
        simp_all [record, List.getD_eq_getElem?_getD]

theorem sampleLines_eq (is : List Nat) (s : State) :
    sampleLines is s =
      (answers is.length s.inputs s.drawn,
        { s with
          trace := s.trace ++ (is.zip (answers is.length s.inputs s.drawn)).map fun p => .sample (.d p.1) p.2
          inputs := s.inputs.drop is.length
          drawn := s.drawn + (is.length - s.inputs.length) }) := by
  induction is generalizing s with
  | nil => simp [sampleLines, answers]
  | cons i is ih =>
    simp only [sampleLines, ih]
    rcases hs : s.inputs with _ | ⟨b, rest⟩
    · simp [pinSample, answerSample, hs, answers, record]
      omega
    · simp [pinSample, answerSample, hs, answers, record]

@[simp] theorem answers_length (k : Nat) (inputs : List Bool) (drawn : Nat) :
    (answers k inputs drawn).length = k := by
  induction k generalizing inputs drawn with
  | zero => rfl
  | succ k ih => cases inputs <;> simp [answers, ih]

end Sys2Proof.Machine
end

