-- ==== Sys2Proof/Laws/Bus.lean ====
section
/-!
SUPPORT. One lemma for each procedure of layer L1: from a resting state (R31) it completes, in the state and with the
events its rule gives, and rests again.
-/
namespace Sys2Proof.Machine

@[simp] theorem uniformPins_length (n : Nat) (x : PinState) : (uniformPins n x).length = n := by
  simp [uniformPins]

@[simp] theorem drivenPins_length (n : Nat) (v : Byte) : (drivenPins n v).length = n := by simp [drivenPins]

theorem uniformPins_mem {n : Nat} {x p : PinState} (h : p ∈ uniformPins n x) : p = x := by
  simp only [uniformPins, List.mem_map] at h
  obtain ⟨_, _, rfl⟩ := h
  rfl

theorem drivenPins_mem {n : Nat} {v : Byte} {p : PinState} (h : p ∈ drivenPins n v) : isOutput p = true := by
  simp only [drivenPins, List.mem_map] at h
  obtain ⟨_, _, rfl⟩ := h
  rfl

/-- A list of pins that are all `x` is the uniform one of its length. -/
theorem eq_uniformPins {n : Nat} {x : PinState} {pins : List PinState} (hl : pins.length = n)
    (h : ∀ p ∈ pins, p = x) : pins = uniformPins n x := by
  rw [List.eq_replicate_of_mem h, hl, uniformPins, List.map_const']
  simp

/-- Bit `i` of the high nibble is bit `4 + i` of the byte (R53). -/
theorem highNibble_getLsbD (v : Byte) {i : Nat} (h : i < 4) : (highNibble v).getLsbD i = v.getLsbD (4 + i) := by
  simp [highNibble, h]

/-- Bit `i` of the low nibble is bit `i` of the byte (R53). -/
theorem lowNibble_getLsbD (v : Byte) {i : Nat} (h : i < 4) : (lowNibble v).getLsbD i = v.getLsbD i := by
  simp [lowNibble, h]

/-- SET_DIRECTION(Driving) (R100, R101, R103). -/
theorem setDirection_driving {s : State} (h : s.Resting) :
    ∃ pins, setDirection .driving s =
      .ok { s with
        dir := .driving
        pinD := pins
        pinRw := if s.cfg.hasRw then .output false else s.pinRw
        trace := s.trace ++ directionEvents s.cfg s.dir .driving } ∧
      pins.length = s.cfg.n ∧ (∀ p ∈ pins, isOutput p = true) ∧
      (s.dir ≠ .driving → pins = uniformPins s.cfg.n (.output false)) ∧ (s.dir = .driving → pins = s.pinD) := by
  by_cases hd : s.dir = .driving
  · refine ⟨s.pinD, ?_, h.lines, h.driving hd, by simp [hd], by simp⟩
    have hw := h.writeMode
    cases hr : s.cfg.hasRw <;> simp_all [setDirection, directionEvents]
    · cases s; simp_all
    · cases s; simp_all
  · refine ⟨uniformPins s.cfg.n (.output false), ?_, by simp, ?_, by simp, by simp [hd]⟩
    · have hl := h.lines
      have hp := putLines_range (fun _ => PinState.output false) hl
      cases hr : s.cfg.hasRw
      · simp [setDirection, directionEvents, driveMoveEvents, hd, setReadWrite, hr, bind, Except.bind,
          configureOutputs_eq, dataLines, hp, uniformPins, setDir]
      · have ho := h.readWrite hr
        simp [setDirection, directionEvents, driveMoveEvents, hd, setReadWrite, hr, bind, Except.bind,
          configureOutputs_eq, dataLines, hp, uniformPins, setDir, pinSet_ok (p := .rw) (s := s) ho, record]
    · intro p hp
      rw [uniformPins_mem hp]; rfl

/-- SET_DIRECTION(Released) (R100, R102, R103). -/
theorem setDirection_released {s : State} (h : s.Resting) :
    setDirection .released s =
      .ok { s with
        dir := .released
        pinD := uniformPins s.cfg.n (.input (releasedPull s.cfg))
        pinRw := if s.cfg.hasRw ∧ s.dir ≠ .released then .output true else s.pinRw
        trace := s.trace ++ directionEvents s.cfg s.dir .released } := by
  by_cases hd : s.dir = .released
  · have hp := eq_uniformPins h.lines (h.released hd)
    cases s
    simp_all [setDirection, directionEvents]
  · have hp := putLines_range (fun _ => PinState.input (releasedPull s.cfg)) h.lines
    cases hr : s.cfg.hasRw
    · simp [setDirection, directionEvents, releaseMoveEvents, hd, setReadWrite, hr, bind, Except.bind,
        configureInputs_eq, dataLines, hp, uniformPins, setDir]
    · have ho := h.readWrite hr
      simp [setDirection, directionEvents, releaseMoveEvents, hd, setReadWrite, hr, bind, Except.bind,
        configureInputs_eq, dataLines, hp, uniformPins, setDir, pinSet, ho, record]

/-- `READ_CORE` (R117, R119). -/
theorem readCore_eq {s : State} (h : s.Resting) (hr : s.cfg.hasRw = true) :
    readCore s = .ok (s.nextLevels, afterRead s) := by
  have ho := h.readWrite hr
  have hrw : isOutput (if s.cfg.hasRw = true ∧ s.dir ≠ .released then PinState.output true else s.pinRw) = true := by
    split <;> simp_all
  have hs := h.select
  have he := h.enable
  simp only [readCore, setDirection_released h, bind, Except.bind]
  simp only [pinSet, pinState_rw, hrw, if_true, putPin_rw, record, pinState_rs, hs, putPin_rs, pinState_e, he,
    isOutput_output, putPin_e, delay, dataLines, sampleLines_eq, List.length_range]
  simp [afterRead, readEvents, State.nextLevels, holdUs, he]

theorem afterRead_resting {s : State} (h : s.Resting) (hr : s.cfg.hasRw = true) : (afterRead s).Resting where
  enable := h.enable
  lines := by simp [afterRead]
  driving := by simp [afterRead]
  released := fun _ _ hp => uniformPins_mem hp
  unknown := by simp [afterRead]
  select := rfl
  readWrite := fun _ => rfl
  absent := by simp [afterRead, hr]
  writeMode := by simp [afterRead]
  eightLines := h.eightLines
  fourLines := h.fourLines

/-- Step 1 of a write without a Read/Write line (R112). -/
theorem busyCheck_without {s : State} (hr : s.cfg.hasRw = false) : busyCheck s = .ok s := by
  simp [busyCheck, hr]

/-- The state step 1 of a write leaves when there is a Read/Write line (R112). -/
def afterBusyCheck (s : State) : State := record (.set .rw false) { afterRead s with pinRw := .output false }

/-- Step 1 of a write with a Read/Write line (R112). -/
theorem busyCheck_with {s : State} (h : s.Resting) (hr : s.cfg.hasRw = true) :
    busyCheck s = .ok (afterBusyCheck s) := by
  simp [busyCheck, hr, readCore_eq h hr, bind, Except.bind, pinSet, afterRead, afterBusyCheck]

theorem afterBusyCheck_resting {s : State} (h : s.Resting) (hr : s.cfg.hasRw = true) :
    (afterBusyCheck s).Resting where
  enable := h.enable
  lines := (afterRead_resting h hr).lines
  driving := by simp [afterBusyCheck, afterRead]
  released := (afterRead_resting h hr).released
  unknown := by simp [afterBusyCheck, afterRead]
  select := rfl
  readWrite := fun _ => rfl
  absent := by simp [afterBusyCheck, afterRead, hr]
  writeMode := fun _ _ => rfl
  eightLines := h.eightLines
  fourLines := h.fourLines

/-- Step 5 of a write (R111), on data lines that are outputs; the split path is used with four lines only. -/
theorem driveByte_eq {path : Path} {s : State} (v : Byte) (hl : s.pinD.length = s.cfg.n)
    (ho : ∀ p ∈ s.pinD, isOutput p = true) (he : s.pinE = .output true) (hp : path = .split → s.cfg.n = 4) :
    driveByte path v s =
      .ok { s with pinD := drivenPins s.cfg.n v, trace := s.trace ++ byteEvents s.cfg.n path v } := by
  have hout : ∀ {t : State}, (∀ p ∈ t.pinD, isOutput p = true) → t.pinD.length = s.cfg.n →
      ∀ i ∈ List.range s.cfg.n, isOutput (pinState (.d i) t) = true := by
    intro t ht hlt i hi
    have hi' : i < t.pinD.length := by rw [hlt]; exact List.mem_range.mp hi
    simp only [pinState_d, List.getD_eq_getElem?_getD, List.getElem?_eq_getElem hi', Option.getD_some]
    exact ht _ (List.getElem_mem hi')
  cases path with
  | single =>
    simp only [driveByte, dataLines]
    rw [driveLines_eq _ _ _ (hout ho hl), putLines_range _ hl]
    rfl
  | split =>
    have hn := hp rfl
    have hd : ∀ i ∈ List.range 4, isOutput (pinState (.d i) s) = true := by rw [← hn]; exact hout ho hl
    have hhi : (List.range 4).map (fun i => Event.set (.d i) ((highNibble v).getLsbD i))
        = driveEvents 4 (fun i => v.getLsbD (4 + i)) :=
      List.map_congr_left fun i hi => by rw [highNibble_getLsbD v (List.mem_range.mp hi)]
    have hlo : (List.range 4).map (fun i => Event.set (.d i) ((lowNibble v).getLsbD i))
        = driveEvents 4 v.getLsbD :=
      List.map_congr_left fun i hi => by rw [lowNibble_getLsbD v (List.mem_range.mp hi)]
    have hpins : (List.range 4).map (fun i => PinState.output ((lowNibble v).getLsbD i)) = drivenPins 4 v :=
      List.map_congr_left fun i hi => by rw [lowNibble_getLsbD v (List.mem_range.mp hi)]
    rw [hn] at hl
    simp only [driveByte, bind, Except.bind]
    rw [driveLines_eq _ _ _ hd, putLines_range _ hl]
    simp only [delay, record, pinSet, pinState_e, he, isOutput_output, if_true, putPin_e]
    rw [driveLines_eq, putLines_range _ (by simp), hpins]
    · simp [hhi, hlo, byteEvents, holdUs, hn]
    · intro i hi
      have hi' := List.mem_range.mp hi
      simp [List.getD_eq_getElem?_getD, hi']

/-- Steps 2 to 7 of a write (R111). -/
theorem transferByte_eq {path : Path} {s : State} (h : s.Resting) (hp : path = .split → s.cfg.n = 4) (v : Byte)
    (rs : Bool) : transferByte path v rs s = .ok (afterTransfer path v rs s) := by
  obtain ⟨pins, hd, hl, ho, -, -⟩ := setDirection_driving h
  have hs := h.select
  have he := h.enable
  simp only [transferByte, hd, bind, Except.bind]
  simp only [pinSet, pinState_rs, hs, if_true, record, putPin_rs, pinState_e, he, isOutput_output, putPin_e]
  rw [driveByte_eq v (by simpa using hl) (by simpa using ho) rfl (by simpa using hp)]
  cases hr : s.cfg.hasRw <;>
    simp [delay, record, setReadWrite, hr, pinSet, afterTransfer, transferEvents, holdUs, he]

theorem afterTransfer_resting {path : Path} {s : State} (h : s.Resting) (v : Byte) (rs : Bool) :
    (afterTransfer path v rs s).Resting where
  enable := h.enable
  lines := by simp [afterTransfer]
  driving := fun _ _ hp => drivenPins_mem hp
  released := by simp [afterTransfer]
  unknown := by simp [afterTransfer]
  select := rfl
  readWrite := fun hr => by
    have hr' : s.cfg.hasRw = true := hr
    simp [afterTransfer, hr']
  absent := fun hr => by
    have hr' : s.cfg.hasRw = false := hr
    simp [afterTransfer, hr', h.absent hr']
  writeMode := fun hr _ => by
    have hr' : s.cfg.hasRw = true := hr
    simp [afterTransfer, hr']
  eightLines := h.eightLines
  fourLines := h.fourLines

/-- `WRITE_CORE` (R111, R115). -/
theorem writeCore_eq {path : Path} {s : State} (h : s.Resting) (hp : path = .split → s.cfg.n = 4) (v : Byte)
    (isCommand : Bool) (t : Nat) : writeCore v isCommand t path s = .ok (afterWrite v isCommand t path s) := by
  cases hr : s.cfg.hasRw
  · simp [writeCore, busyCheck_without hr, bind, Except.bind, transferByte_eq h hp, afterTransfer, afterWrite, hr,
      writeEvents, delay, record, gapUs, rsLevel]
  · have hb := afterBusyCheck_resting h hr
    simp only [writeCore, busyCheck_with h hr, bind, Except.bind]
    rw [transferByte_eq hb (by simpa [afterBusyCheck, afterRead] using hp)]
    simp [afterBusyCheck, afterRead, afterTransfer, afterWrite, hr, writeEvents, delay, record, gapUs, rsLevel]

theorem afterWrite_resting {path : Path} {s : State} (h : s.Resting) (v : Byte) (isCommand : Bool) (t : Nat) :
    (afterWrite v isCommand t path s).Resting where
  enable := h.enable
  lines := by simp [afterWrite]
  driving := fun _ _ hp => drivenPins_mem hp
  released := by simp [afterWrite]
  unknown := by simp [afterWrite]
  select := rfl
  readWrite := fun hr => by
    have hr' : s.cfg.hasRw = true := hr
    simp [afterWrite, hr']
  absent := fun hr => by
    have hr' : s.cfg.hasRw = false := hr
    simp [afterWrite, hr', h.absent hr']
  writeMode := fun hr _ => by
    have hr' : s.cfg.hasRw = true := hr
    simp [afterWrite, hr']
  eightLines := h.eightLines
  fourLines := h.fourLines

/-- WRITE with `MODE` set (R110). -/
theorem writeByte_eq {path : Path} {s : State} (h : s.Resting) (hm : pathOf s.mode = some path) (v : Byte)
    (isCommand : Bool) (t : Nat) : writeByte v isCommand t s = .ok (afterWrite v isCommand t path s) := by
  cases hs : s.mode <;> simp [hs, pathOf] at hm <;> subst hm
  · simp [writeByte, hs, writeCore_eq h]
  · simp [writeByte, hs, writeCore_eq h fun _ => h.fourLines hs]

/-- WRITE with `MODE` unset (R114). -/
theorem writeByte_unset {s : State} (hm : s.mode = .unset) (v : Byte) (isCommand : Bool) (t : Nat) :
    writeByte v isCommand t s = .error (.raise .configurationError s) := by
  simp [writeByte, hm]

end Sys2Proof.Machine
end

