-- ==== Sys2Proof/Laws/Frame.lean ====
section
/-!
SUPPORT. What the procedures of layer L1 leave unchanged, in every state, resting or not: said once for the primitives
and carried through the procedures by one lemma about sequencing.
-/
namespace Sys2Proof.Machine

/-- What every transfer keeps: the instance, `MODE`, the mirror, the responses and the host's requests; the number of
data lines; the past of the trace; and, without a Read/Write line, its pin and the environment. -/
structure Kept (s t : State) : Prop where
  cfg : t.cfg = s.cfg
  mode : t.mode = s.mode
  row1 : t.row1 = s.row1
  row2 : t.row2 = s.row2
  responses : t.responses = s.responses
  requests : t.requests = s.requests
  lines : t.pinD.length = s.pinD.length
  past : s.trace <+: t.trace
  absent : s.cfg.hasRw = false → t.pinRw = s.pinRw

theorem Kept.refl (s : State) : Kept s s := ⟨rfl, rfl, rfl, rfl, rfl, rfl, rfl, List.prefix_refl _, fun _ => rfl⟩

theorem Kept.trans {s t u : State} (h : Kept s t) (k : Kept t u) : Kept s u where
  cfg := k.cfg.trans h.cfg
  mode := k.mode.trans h.mode
  row1 := k.row1.trans h.row1
  row2 := k.row2.trans h.row2
  responses := k.responses.trans h.responses
  requests := k.requests.trans h.requests
  lines := k.lines.trans h.lines
  past := h.past.trans k.past
  absent := fun hr => (k.absent (by rw [h.cfg]; exact hr)).trans (h.absent hr)

/-- What holds of the state a procedure ends in, be it by an error; a fault leaves no state. -/
def Ends (P : State → Prop) : Result State → Prop
  | .ok t => P t
  | .error (.raise _ t) => P t
  | .error (.fault _) => True

@[simp] theorem ends_ok (P : State → Prop) (t : State) : Ends P (.ok t) = P t := rfl
@[simp] theorem ends_raise (P : State → Prop) (e : Error) (t : State) : Ends P (.error (.raise e t)) = P t := rfl
@[simp] theorem ends_fault (P : State → Prop) (f : Fault) : Ends P (.error (.fault f)) = True := rfl

/-- Sequencing: the second step is only asked of a state the first may end in. -/
theorem Ends.bind {P : State → Prop} {r : Result State} {f : State → Result State} (h : Ends P r)
    (k : ∀ t, r = .ok t → P t → Ends P (f t)) : Ends P (r >>= f) := by
  rcases r with (⟨e, t⟩ | g) | t
  · exact h
  · trivial
  · exact k t rfl h

/-- The same when the first step also answers a value. -/
theorem Ends.bindPair {α : Type} {P : State → Prop} {r : Result (α × State)} {f : α × State → Result State}
    (h : Ends P (r.map Prod.snd)) (k : ∀ a t, r = .ok (a, t) → P t → Ends P (f (a, t))) : Ends P (r >>= f) := by
  rcases r with (⟨e, t⟩ | g) | ⟨a, t⟩
  · exact h
  · trivial
  · exact k a t rfl h

/-- A pin event keeps all but its pin and the trace; the absent Read/Write pin is never the one. -/
theorem kept_putPin (p : Pin) (x : PinState) (ev : Event) (s : State) (hp : p = .rw → s.cfg.hasRw = true) :
    Kept s (record ev (putPin p x s)) where
  cfg := by simp
  mode := by simp
  row1 := by simp
  row2 := by simp
  responses := by simp
  requests := by simp
  lines := by cases p <;> simp
  past := by simp
  absent := by cases p <;> simp_all

theorem kept_pinSet (p : Pin) (v : Bool) (s : State) (hp : p = .rw → s.cfg.hasRw = true) :
    Ends (Kept s) (pinSet p v s) := by
  unfold pinSet
  split
  · exact kept_putPin p _ _ s hp
  · trivial

theorem kept_record (ev : Event) (s : State) : Kept s (record ev s) :=
  ⟨rfl, rfl, rfl, rfl, rfl, rfl, rfl, by simp, fun _ => rfl⟩

theorem kept_delay (us : Nat) (s : State) : Kept s (delay us s) := kept_record _ s

theorem kept_setDir (d : Dir) (s : State) : Kept s (setDir d s) :=
  ⟨rfl, rfl, rfl, rfl, rfl, rfl, rfl, List.prefix_refl _, fun _ => rfl⟩

/-- A step that may not be tried on an absent line, after another one. -/
theorem kept_then {s t : State} {r : Result State} (h : Kept s t) (k : Ends (Kept t) r) : Ends (Kept s) r := by
  rcases r with (⟨e, u⟩ | g) | u
  · exact h.trans k
  · trivial
  · exact h.trans k

theorem kept_configureOutputs (is : List Nat) (s : State) : Kept s (configureOutputs is s) := by
  induction is generalizing s with
  | nil => exact Kept.refl s
  | cons i is ih => exact (kept_putPin (.d i) (.output false) (.cfgOut (.d i) false) s (by simp)).trans (ih _)

theorem kept_configureInputs (is : List Nat) (s : State) : Kept s (configureInputs is s) := by
  induction is generalizing s with
  | nil => exact Kept.refl s
  | cons i is ih => exact (kept_putPin (.d i) _ (.cfgIn (.d i) _) s (by simp)).trans (ih _)

theorem kept_driveLines (level : Nat → Bool) (is : List Nat) (s : State) :
    Ends (Kept s) (driveLines level is s) := by
  induction is generalizing s with
  | nil => exact Kept.refl s
  | cons i is ih => exact (kept_pinSet (.d i) _ s (by simp)).bind fun t _ h => kept_then h (ih t)

theorem kept_pinSample (p : Pin) (s : State) : Kept s (pinSample p s).2 := by
  rcases hs : s.inputs with _ | ⟨b, rest⟩ <;>
    constructor <;> simp [pinSample, answerSample, hs, record]

theorem kept_sampleLines (is : List Nat) (s : State) : Kept s (sampleLines is s).2 := by
  induction is generalizing s with
  | nil => exact Kept.refl s
  | cons i is ih => exact (kept_pinSample (.d i) s).trans (ih _)

theorem kept_setReadWrite (v : Bool) (s : State) : Ends (Kept s) (setReadWrite v s) := by
  unfold setReadWrite
  split
  · exact kept_pinSet .rw v s fun _ => ‹_›
  · exact Kept.refl s

theorem kept_setDirection (target : Direction) (s : State) : Ends (Kept s) (setDirection target s) := by
  unfold setDirection
  split
  · exact Kept.refl s
  · cases target with
    | driving =>
      exact (kept_setReadWrite false s).bind fun t _ h =>
        h.trans ((kept_configureOutputs _ t).trans (kept_setDir _ _))
    | released =>
      exact (kept_then (kept_configureInputs _ s) (kept_setReadWrite true _)).bind fun t _ h =>
        h.trans (kept_setDir _ t)

/-- The status read, on an instance with a Read/Write line. -/
theorem kept_readCore {s : State} (hr : s.cfg.hasRw = true) : Ends (Kept s) ((readCore s).map Prod.snd) := by
  have key : Ends (Kept s) (do
      let s ← setDirection .released s
      let s ← pinSet .rw true s
      let s ← pinSet .rs false s
      let s ← pinSet .e true s
      let s ← pinSet .e false (sampleLines (dataLines s.cfg) (delay holdUs s)).2
      .ok (delay holdUs s)) := by
    refine (kept_setDirection .released s).bind fun t _ h => ?_
    refine (kept_then h (kept_pinSet .rw true t fun _ => by rw [h.cfg]; exact hr)).bind fun t _ h => ?_
    refine (kept_then h (kept_pinSet .rs false t (by simp))).bind fun t _ h => ?_
    refine (kept_then h (kept_pinSet .e true t (by simp))).bind fun t _ h => ?_
    refine (kept_then (h.trans ((kept_delay _ t).trans (kept_sampleLines _ _)))
      (kept_pinSet .e false _ (by simp))).bind fun t _ h => ?_
    exact h.trans (kept_delay _ t)
  unfold readCore
  generalize setDirection .released s = r at *
  rcases r with (⟨e, t⟩ | g) | t <;> simp only [bind, Except.bind, Except.map] at key ⊢ <;> try exact key
  generalize pinSet .rw true t = r at *
  rcases r with (⟨e, t⟩ | g) | t <;> simp only at key ⊢ <;> try exact key
  generalize pinSet .rs false t = r at *
  rcases r with (⟨e, t⟩ | g) | t <;> simp only at key ⊢ <;> try exact key
  generalize pinSet .e true t = r at *
  rcases r with (⟨e, t⟩ | g) | t <;> simp only at key ⊢ <;> try exact key
  generalize pinSet .e false (sampleLines (dataLines t.cfg) (delay holdUs t)).2 = r at *
  rcases r with (⟨e, t⟩ | g) | t <;> simp only at key ⊢ <;> exact key

theorem kept_busyCheck (s : State) : Ends (Kept s) (busyCheck s) := by
  unfold busyCheck
  split
  · next hr =>
    exact (kept_readCore hr).bindPair fun _ t _ h =>
      kept_then h (kept_pinSet .rw false t fun _ => by rw [h.cfg]; exact hr)
  · exact Kept.refl s

theorem kept_driveByte (path : Path) (v : Byte) (s : State) : Ends (Kept s) (driveByte path v s) := by
  cases path with
  | single => exact kept_driveLines _ _ s
  | split =>
    refine (kept_driveLines _ _ s).bind fun t _ h => ?_
    refine (kept_then (h.trans (kept_delay _ t)) (kept_pinSet .e false _ (by simp))).bind fun t _ h => ?_
    refine (kept_then (h.trans (kept_delay _ t)) (kept_pinSet .e true _ (by simp))).bind fun t _ h => ?_
    exact kept_then h (kept_driveLines _ _ t)

theorem kept_transferByte (path : Path) (v : Byte) (rs : Bool) (s : State) :
    Ends (Kept s) (transferByte path v rs s) := by
  refine (kept_setDirection .driving s).bind fun t _ h => ?_
  refine (kept_then h (kept_pinSet .rs rs t (by simp))).bind fun t _ h => ?_
  refine (kept_then h (kept_pinSet .e true t (by simp))).bind fun t _ h => ?_
  refine (kept_then h (kept_driveByte path v t)).bind fun t _ h => ?_
  refine (kept_then (h.trans (kept_delay _ t)) (kept_pinSet .e false _ (by simp))).bind fun t _ h => ?_
  exact kept_then h (kept_setReadWrite false t)

theorem kept_writeCore (v : Byte) (isCommand : Bool) (t : Nat) (path : Path) (s : State) :
    Ends (Kept s) (writeCore v isCommand t path s) := by
  refine (kept_busyCheck s).bind fun u _ h => ?_
  refine (kept_then h (kept_transferByte path v _ u)).bind fun u _ h => ?_
  exact h.trans (kept_delay _ u)

theorem kept_writeByte (v : Byte) (isCommand : Bool) (t : Nat) (s : State) :
    Ends (Kept s) (writeByte v isCommand t s) := by
  unfold writeByte
  split
  · exact Kept.refl s
  · exact kept_writeCore _ _ _ _ s
  · exact kept_writeCore _ _ _ _ s

/-- A write fails with an error only when `MODE` is unset, and then in the state it was asked in (R114). -/
theorem kept_issueEntry (key : CmdKey) (s : State) : Ends (Kept s) (issueEntry key s) := kept_writeByte _ _ _ s

theorem kept_setAddress (address : BitVec 7) (s : State) : Ends (Kept s) (setAddress address s) :=
  kept_writeByte _ _ _ s

theorem kept_setLine (line : Byte) (s : State) : Ends (Kept s) (setLine line s) := by
  unfold setLine
  split
  · exact Kept.refl s
  · exact kept_setAddress _ s

theorem kept_writeText (typing : Bool) (text : List Byte) (s : State) : Ends (Kept s) (writeText typing text s) := by
  induction text generalizing s with
  | nil => exact Kept.refl s
  | cons c rest ih =>
    refine (kept_writeByte c false _ s).bind fun t _ h => kept_then (h.trans ?_) (ih _)
    unfold typingPause
    split
    · exact kept_delay _ t
    · exact Kept.refl t

end Sys2Proof.Machine
end

