-- ==== Sys2Proof/Laws/Lines.lean ====
section
/-!
SUPPORT. One lemma for each procedure of layer L2 that others call: from a resting state with `MODE` set it completes
in the state its rule gives.
-/
namespace Sys2Proof.Machine

/-- COMMAND (R140). -/
theorem issueEntry_eq {path : Path} {s : State} (h : s.Resting) (hm : pathOf s.mode = some path) (key : CmdKey) :
    issueEntry key s = .ok (afterWrites path [sentEntry s.cfg.table key] s) := writeByte_eq h hm _ _ _

/-- The DDRAM_SET command (R79, R143). -/
theorem setAddress_eq {path : Path} {s : State} (h : s.Resting) (hm : pathOf s.mode = some path)
    (address : BitVec 7) : setAddress address s = .ok (afterSetAddress path address s) := writeByte_eq h hm _ _ _

/-- SET_LINE on a line that does not exist (R143). -/
theorem setLine_bad {line : Byte} (h1 : line ≠ 1) (h2 : line ≠ 2) (s : State) :
    setLine line s = .error (.raise .rangeError s) := by
  have hn : rowStart line = none := by rw [rowStart, if_neg h1, if_neg h2]
  rw [setLine, hn]

theorem afterWrites_resting {path : Path} {s : State} (h : s.Resting) (sent : List Sent) :
    (afterWrites path sent s).Resting := by
  induction sent generalizing s with
  | nil => exact h
  | cons w rest ih => exact ih (afterWrite_resting h w.1 w.2.1 w.2.2)

@[simp] theorem afterWrite_cfg (v : Byte) (c : Bool) (t : Nat) (path : Path) (s : State) :
    (afterWrite v c t path s).cfg = s.cfg := rfl

@[simp] theorem afterWrite_mode (v : Byte) (c : Bool) (t : Nat) (path : Path) (s : State) :
    (afterWrite v c t path s).mode = s.mode := rfl

@[simp] theorem afterWrites_cfg (path : Path) (sent : List Sent) (s : State) :
    (afterWrites path sent s).cfg = s.cfg := by
  induction sent generalizing s with
  | nil => rfl
  | cons w rest ih => exact ih _

@[simp] theorem afterWrites_mode (path : Path) (sent : List Sent) (s : State) :
    (afterWrites path sent s).mode = s.mode := by
  induction sent generalizing s with
  | nil => rfl
  | cons w rest ih => exact ih _

theorem record_resting {s : State} (h : s.Resting) (ev : Event) : (record ev s).Resting := by
  obtain ⟨h1, h2, h3, h4, h5, h6, h7, h8, h9, h10, h11⟩ := h
  exact ⟨h1, h2, h3, h4, h5, h6, h7, h8, h9, h10, h11⟩

/-- The mirror is no part of what rests. -/
theorem rows_resting {s : State} (h : s.Resting) (r1 r2 : List Byte) : State.Resting { s with row1 := r1, row2 := r2 } := by
  obtain ⟨h1, h2, h3, h4, h5, h6, h7, h8, h9, h10, h11⟩ := h
  exact ⟨h1, h2, h3, h4, h5, h6, h7, h8, h9, h10, h11⟩

/-- The response is no part of what rests. -/
theorem respond_resting {s : State} (h : s.Resting) (st : Status) (d : Byte) : (respond st d s).Resting := by
  obtain ⟨h1, h2, h3, h4, h5, h6, h7, h8, h9, h10, h11⟩ := h
  exact ⟨h1, h2, h3, h4, h5, h6, h7, h8, h9, h10, h11⟩

/-- `MODE` may be set to what the line count allows (R31 I-e). -/
theorem setMode_resting {s : State} (h : s.Resting) {m : Mode} (h8 : m = .eightBit → s.cfg.n = 8)
    (h4 : m = .fourBit → s.cfg.n = 4) : (setMode m s).Resting := by
  obtain ⟨h1, h2, h3, h4', h5, h6, h7, h8', h9, -, -⟩ := h
  exact ⟨h1, h2, h3, h4', h5, h6, h7, h8', h9, h8, h4⟩

/-- The data bytes of a text (R144). -/
theorem writeText_eq {path : Path} (typing : Bool) (text : List Byte) {s : State} (h : s.Resting)
    (hm : pathOf s.mode = some path) :
    writeText typing text s = .ok (afterText path typing s.cfg.table.defaultEntry.timeUs text s) ∧
      (afterText path typing s.cfg.table.defaultEntry.timeUs text s).Resting ∧
      (afterText path typing s.cfg.table.defaultEntry.timeUs text s).cfg = s.cfg ∧
      (afterText path typing s.cfg.table.defaultEntry.timeUs text s).mode = s.mode := by
  induction text generalizing s with
  | nil => exact ⟨rfl, h, rfl, rfl⟩
  | cons c rest ih =>
    have hw := writeByte_eq h hm c false (dataUs s.cfg.table)
    have hr : (afterWrite c false (dataUs s.cfg.table) path s).Resting := afterWrite_resting h _ _ _
    simp only [writeText, hw, bind, Except.bind]
    cases rest with
    | nil => exact ⟨by simp [typingPause, writeText, afterText, dataUs, tableEntry], hr, rfl, rfl⟩
    | cons d more =>
      cases typing
      · exact ih hr hm
      · exact ih (record_resting hr _) hm

/-- PUT_LINE on line 1 (R144). -/
theorem putLine_one {path : Path} (text : List Byte) (typing : Bool) {s : State} (h : s.Resting)
    (hm : pathOf s.mode = some path) : putLine 1 text typing s = .ok (afterPutLine1 path text typing s) := by
  have hs : setLine 1 s = .ok (afterSetAddress path 0x00 s) := setAddress_eq h hm 0x00
  simp only [putLine, hs, bind, Except.bind]
  exact (writeText_eq typing text (rows_resting (afterWrite_resting h _ _ _) _ _) hm).1

/-- PUT_LINE on line 2 (R144). -/
theorem putLine_two {path : Path} (text : List Byte) (typing : Bool) {s : State} (h : s.Resting)
    (hm : pathOf s.mode = some path) : putLine 2 text typing s = .ok (afterPutLine2 path text typing s) := by
  have hs : setLine 2 s = .ok (afterSetAddress path 0x40 s) := setAddress_eq h hm 0x40
  simp only [putLine, hs, bind, Except.bind]
  exact (writeText_eq typing text (rows_resting (afterWrite_resting h _ _ _) _ _) hm).1

/-- After PUT_LINE the engine rests. -/
theorem afterPutLine_resting {path : Path} (text : List Byte) (typing : Bool) {s : State} (h : s.Resting)
    (hm : pathOf s.mode = some path) :
    (afterPutLine1 path text typing s).Resting ∧ (afterPutLine2 path text typing s).Resting :=
  ⟨(writeText_eq typing text (rows_resting (afterWrite_resting h _ _ _) _ _) hm).2.1,
    (writeText_eq typing text (rows_resting (afterWrite_resting h _ _ _) _ _) hm).2.1⟩

end Sys2Proof.Machine
end

