-- ==== Sys2Proof/Laws/PerInstr.lean ====
section
/-!
SUPPORT. Statements made for every instruction, one lemma per constructor.
-/
namespace Sys2Proof.Laws.PortForm

/-- The form in which an instruction stands at the port: a host operation as a request with a tag of R72 (0x0 to 0xA),
a row of the LCD side as a word of its format (R70). -/
def Statement (i : Instr) : Prop :=
  if Machine.isHostOperation i then ∃ r, encode i = .request r ∧ r.op.toNat ≤ 0xA else ∃ w, encode i = .lcd w

theorem setDirection (target : Direction) : Statement (.setDirection target) := ⟨_, rfl, by simp⟩
theorem write (value : Byte) (isCommand : Bool) (time : Micros) : Statement (.write value isCommand time) := ⟨_, rfl, by simp⟩
theorem read : Statement .read := ⟨_, rfl, by simp⟩
theorem reset : Statement .reset := ⟨_, rfl, by simp⟩
theorem command (key : CmdKey) : Statement (.command key) := ⟨_, rfl, by simp⟩
theorem start : Statement .start := ⟨_, rfl, by simp⟩
theorem clear : Statement .clear := ⟨_, rfl, by simp⟩
theorem setLine (line : Byte) : Statement (.setLine line) := ⟨_, rfl, by simp⟩
theorem putLine (line : Byte) (text : List Byte) (typing : Bool) : Statement (.putLine line text typing) := ⟨_, rfl, by simp⟩
theorem clearLine (line : Byte) : Statement (.clearLine line) := ⟨_, rfl, by simp⟩
theorem pushLine (text : List Byte) (typing : Bool) : Statement (.pushLine text typing) := ⟨_, rfl, by simp⟩
theorem cmdDefault (v : Byte) : Statement (.cmdDefault v) := ⟨_, rfl⟩
theorem cmdDisplayOn : Statement .cmdDisplayOn := ⟨_, rfl⟩
theorem cmdDisplayOff : Statement .cmdDisplayOff := ⟨_, rfl⟩
theorem cmdDisplayClear : Statement .cmdDisplayClear := ⟨_, rfl⟩
theorem cmdCursorHome : Statement .cmdCursorHome := ⟨_, rfl⟩
theorem cmdModeAutoinc : Statement .cmdModeAutoinc := ⟨_, rfl⟩
theorem cmdFuncsel8Bit : Statement .cmdFuncsel8Bit := ⟨_, rfl⟩
theorem cmdFuncsel4Bit : Statement .cmdFuncsel4Bit := ⟨_, rfl⟩
theorem cmdDdramSet (address : BitVec 7) : Statement (.cmdDdramSet address) := ⟨_, rfl⟩
theorem rawReset8 (repetition : Fin 3) : Statement (.rawReset8 repetition) := ⟨_, rfl⟩
theorem rawReset4Three (repetition : Fin 2) : Statement (.rawReset4Three repetition) := ⟨_, rfl⟩
theorem rawReset4Two (repetition : Fin 2) : Statement (.rawReset4Two repetition) := ⟨_, rfl⟩
theorem busB8 (rs : Bool) (value : Byte) : Statement (.busB8 rs value) := ⟨_, rfl⟩
theorem busB4 (rs : Bool) (high low : Nibble) : Statement (.busB4 rs high low) := ⟨_, rfl⟩
theorem busR4 (value : Nibble) : Statement (.busR4 value) := ⟨_, rfl⟩
theorem busSt (sampled : Byte) : Statement (.busSt sampled) := ⟨_, rfl⟩

end Sys2Proof.Laws.PortForm
end

