-- ==== Sys2Proof/Laws/Sequences.lean ====
section
/-!
SUPPORT. One lemma for each procedure that is a sequence of others: RESET (`42_mode_reset.md`), START and PUSH_LINE
(`43_command_surface.md`), from a resting state.
-/
namespace Sys2Proof.Machine

/-- `MODE` set has a path (R110). -/
theorem exists_path {s : State} (h : s.mode ≠ .unset) : ∃ path, pathOf s.mode = some path := by
  cases hm : s.mode <;> simp_all [pathOf]

/-- One write of a sequence on the single path, `MODE` not asked (R132, R133). -/
theorem writeCore_single {s : State} (h : s.Resting) (v : Byte) (c : Bool) (t : Nat) :
    writeCore v c t .single s = .ok (afterWrites .single [(v, c, t)] s) := writeCore_eq h (by simp) v c t

theorem afterWrites_append (path : Path) (a b : List Sent) (s : State) :
    afterWrites path b (afterWrites path a s) = afterWrites path (a ++ b) s := by
  simp [afterWrites]

/-- The prefix of RESET on eight lines (R132, R136). -/
theorem resetPrefix8_eq {s : State} (h : s.Resting) :
    resetPrefix8 s = .ok (setMode .eightBit (afterWrites .single [(0x30, true, 4100), (0x30, true, 100),
      (0x30, true, 100), sentEntry s.cfg.table .funcsel8Bit] s)) := by
  have h1 := afterWrites_resting (path := .single) h [(0x30, true, 4100)]
  have h2 := afterWrites_resting (path := .single) h1 [(0x30, true, 100)]
  have h3 := afterWrites_resting (path := .single) h2 [(0x30, true, 100)]
  simp only [resetPrefix8, sendRaw8, reset8Pattern, reset8Wait, bind, Except.bind, writeCore_single h,
    writeCore_single h1, writeCore_single h2, writeCore_single h3, afterWrites_cfg]
  rfl

/-- The prefix of RESET on four lines (R133, R134, R136). -/
theorem resetPrefix4_eq {s : State} (h : s.Resting) (hn : s.cfg.n = 4) :
    resetPrefix4 s = .ok (setMode .fourBit (afterWrites s.cfg.funcsel4Path [sentEntry s.cfg.table .funcsel4Bit]
      (afterWrites .single [(0x3, true, 4100), (0x3, true, 100), (0x2, true, 100), (0x2, true, 100)] s))) := by
  have h1 := afterWrites_resting (path := .single) h [(0x3, true, 4100)]
  have h2 := afterWrites_resting (path := .single) h1 [(0x3, true, 100)]
  have h3 := afterWrites_resting (path := .single) h2 [(0x2, true, 100)]
  have h4 := afterWrites_resting (path := .single) h3 [(0x2, true, 100)]
  have hlast (v : Byte) (c : Bool) (t : Nat) :=
    writeCore_eq (path := s.cfg.funcsel4Path) h4 (fun _ => by simpa using hn) v c t
  simp only [resetPrefix4, sendRaw4Three, sendRaw4Two, reset4ThreePattern, reset4TwoPattern, reset4ThreeWait,
    reset4TwoWait, bind, Except.bind,
    writeCore_single h, writeCore_single h1, writeCore_single h2, writeCore_single h3, afterWrites_cfg, hlast]
  rfl

/-- The suffix of RESET (R135). -/
theorem resetSuffix_eq {path : Path} {s : State} (h : s.Resting) (hm : pathOf s.mode = some path) :
    resetSuffix s = .ok (afterResetSuffix path s) ∧ (afterResetSuffix path s).Resting := by
  have h1 := afterWrites_resting (path := path) h [sentEntry s.cfg.table .displayOff]
  have h2 := afterWrites_resting (path := path) h1 [sentEntry s.cfg.table .displayClear]
  refine ⟨?_, afterWrites_resting h _⟩
  simp only [resetSuffix, bind, Except.bind, issueEntry_eq h hm]
  rw [issueEntry_eq h1 (by simpa using hm)]
  simp only [afterWrites_cfg]
  rw [issueEntry_eq h2 (by simpa using hm)]
  simp only [afterWrites_cfg]
  rfl

/-- RESET on eight lines (R130). -/
theorem resetDisplay_eight {s : State} (h : s.Resting) (hn : s.cfg.n = 8) :
    resetDisplay s = .ok (afterReset8 s) ∧ (afterReset8 s).Resting := by
  have h1 := afterWrites_resting (path := .single) h [(0x30, true, 4100), (0x30, true, 100), (0x30, true, 100),
    sentEntry s.cfg.table .funcsel8Bit]
  have h2 := setMode_resting (m := .eightBit) h1 (fun _ => by simpa using hn) (by simp)
  obtain ⟨he, hr⟩ := resetSuffix_eq (path := .single) h2 rfl
  refine ⟨?_, hr⟩
  simp only [resetDisplay, hn, if_true, bind, Except.bind, resetPrefix8_eq h, he]
  rfl

/-- RESET on four lines (R130). -/
theorem resetDisplay_four {s : State} (h : s.Resting) (hn : s.cfg.n = 4) :
    resetDisplay s = .ok (afterReset4 s) ∧ (afterReset4 s).Resting := by
  have h1 := afterWrites_resting (path := .single) h [(0x3, true, 4100), (0x3, true, 100), (0x2, true, 100),
    (0x2, true, 100)]
  have h2 := afterWrites_resting (path := s.cfg.funcsel4Path) h1 [sentEntry s.cfg.table .funcsel4Bit]
  have h3 := setMode_resting (m := .fourBit) h2 (by simp) (fun _ => by simpa using hn)
  obtain ⟨he, hr⟩ := resetSuffix_eq (path := .split) h3 rfl
  refine ⟨?_, hr⟩
  have hne : ¬s.cfg.n = 8 := by omega
  simp only [resetDisplay, if_neg hne, if_pos hn, bind, Except.bind, resetPrefix4_eq h hn, he]
  rfl

/-- START (R141). -/
theorem startDisplay_eq {path : Path} {s : State} (h : s.Resting) (hm : pathOf s.mode = some path) :
    startDisplay s = .ok (afterWrites path [sentEntry s.cfg.table .displayOn, sentEntry s.cfg.table .cursorHome] s) := by
  have h1 := afterWrites_resting (path := path) h [sentEntry s.cfg.table .displayOn]
  simp only [startDisplay, bind, Except.bind, issueEntry_eq h hm]
  rw [issueEntry_eq h1 (by simpa using hm)]
  simp only [afterWrites_cfg]
  rfl

/-- A text is data on the bus: it keeps the instance, `MODE`, both rows, the responses and the requests. -/
theorem afterText_keeps (path : Path) (typing : Bool) (t : Nat) (text : List Byte) (s : State) :
    (afterText path typing t text s).cfg = s.cfg ∧ (afterText path typing t text s).mode = s.mode ∧
    (afterText path typing t text s).row1 = s.row1 ∧ (afterText path typing t text s).row2 = s.row2 ∧
    (afterText path typing t text s).responses = s.responses ∧
    (afterText path typing t text s).requests = s.requests := by
  induction text generalizing s with
  | nil => exact ⟨rfl, rfl, rfl, rfl, rfl, rfl⟩
  | cons c rest ih =>
    cases rest with
    | nil => exact ⟨rfl, rfl, rfl, rfl, rfl, rfl⟩
    | cons d more => cases typing <;> exact ih _

/-- What PUT_LINE on line 1 keeps, and the row it writes (R144). -/
theorem afterPutLine1_keeps (path : Path) (text : List Byte) (typing : Bool) (s : State) :
    (afterPutLine1 path text typing s).cfg = s.cfg ∧ (afterPutLine1 path text typing s).mode = s.mode ∧
    (afterPutLine1 path text typing s).row1 = text ∧ (afterPutLine1 path text typing s).row2 = s.row2 ∧
    (afterPutLine1 path text typing s).responses = s.responses ∧
    (afterPutLine1 path text typing s).requests = s.requests := afterText_keeps path typing _ text _

/-- What PUT_LINE on line 2 keeps, and the row it writes (R144). -/
theorem afterPutLine2_keeps (path : Path) (text : List Byte) (typing : Bool) (s : State) :
    (afterPutLine2 path text typing s).cfg = s.cfg ∧ (afterPutLine2 path text typing s).mode = s.mode ∧
    (afterPutLine2 path text typing s).row1 = s.row1 ∧ (afterPutLine2 path text typing s).row2 = text ∧
    (afterPutLine2 path text typing s).responses = s.responses ∧
    (afterPutLine2 path text typing s).requests = s.requests := afterText_keeps path typing _ text _

/-- The state the four line writes of PUSH_LINE leave (R146). -/
def afterPush (path : Path) (text : List Byte) (typing : Bool) (s : State) : State :=
  afterPutLine2 path text typing (afterPutLine2 path blankRow false
    (afterPutLine1 path s.row2 false (afterPutLine1 path blankRow false s)))

/-- The four line writes of PUSH_LINE rest, and shift the mirror by one row (R146). -/
theorem pushLine_eq {path : Path} {s : State} (h : s.Resting) (hm : pathOf s.mode = some path) (text : List Byte)
    (typing : Bool) :
    pushLine text typing s =
      .ok (if typing then delayMs pushMs (afterPush path text typing s) else afterPush path text typing s) ∧
    (afterPush path text typing s).Resting ∧ (afterPush path text typing s).row1 = s.row2 ∧
    (afterPush path text typing s).row2 = text ∧ (afterPush path text typing s).responses = s.responses := by
  unfold afterPush
  obtain ⟨a, ha⟩ : ∃ a, a = afterPutLine1 path blankRow false s := ⟨_, rfl⟩
  obtain ⟨-, ma, -, ra, pa, -⟩ := afterPutLine1_keeps path blankRow false s
  have rest_a := (afterPutLine_resting blankRow false h hm).1
  have ea := putLine_one blankRow false h hm
  rw [← ha] at ma ra pa rest_a ea ⊢
  have hma : pathOf a.mode = some path := by rw [ma]; exact hm
  obtain ⟨b, hb⟩ : ∃ b, b = afterPutLine1 path s.row2 false a := ⟨_, rfl⟩
  obtain ⟨-, mb, row1b, -, pb, -⟩ := afterPutLine1_keeps path s.row2 false a
  have rest_b := (afterPutLine_resting s.row2 false rest_a hma).1
  have eb := putLine_one s.row2 false rest_a hma
  rw [← hb] at mb row1b pb rest_b eb ⊢
  have hmb : pathOf b.mode = some path := by rw [mb]; exact hma
  obtain ⟨c, hc⟩ : ∃ c, c = afterPutLine2 path blankRow false b := ⟨_, rfl⟩
  obtain ⟨-, mc, row1c, -, pc, -⟩ := afterPutLine2_keeps path blankRow false b
  have rest_c := (afterPutLine_resting blankRow false rest_b hmb).2
  have ec := putLine_two blankRow false rest_b hmb
  rw [← hc] at mc row1c pc rest_c ec ⊢
  have hmc : pathOf c.mode = some path := by rw [mc]; exact hmb
  obtain ⟨-, -, row1d, row2d, pd, -⟩ := afterPutLine2_keeps path text typing c
  refine ⟨?_, (afterPutLine_resting text typing rest_c hmc).2, ?_, row2d, ?_⟩
  · simp only [pushLine, clearLine, bind, Except.bind, ea, ra, eb, ec, putLine_two text typing rest_c hmc]
  · rw [row1d, row1c, row1b]
  · rw [pd, pc, pb, pa]

end Sys2Proof.Machine
end

