-- ==== Sys2Proof/Laws/PinSpace.lean ====
section
/-!
SUPPORT. The event lists of the rules are about the pins of the instance's pinout only (`10_state.md` R30,
`20_memory.md` R50).
-/
namespace Sys2Proof.Machine

/-- What an event may be about: nothing, E, RS, a configured data line, a configured Read/Write line. -/
theorem withinPinSpace_iff (cfg : Config) (evs : List Event) :
    WithinPinSpace cfg evs ↔
      ∀ ev ∈ evs, (∀ i, eventPin ev = some (.d i) → i < cfg.n) ∧ (eventPin ev = some .rw → cfg.hasRw = true) := by
  have key : ∀ p, (∃ id ∈ cfg.pinout.pinSpace, pinIdentifier p cfg = some id) ↔ (pinIdentifier p cfg).isSome = true := by
    intro p
    rw [Option.isSome_iff_exists]
    exact ⟨fun ⟨id, _, h⟩ => ⟨id, h⟩, fun ⟨id, h⟩ => ⟨id, pinIdentifier_mem h, h⟩⟩
  simp only [WithinPinSpace, key]
  constructor
  · intro h ev hev
    exact ⟨fun i hi => (pinIdentifier_d_isSome i cfg).mp (h ev hev _ hi), fun hr => h ev hev _ hr⟩
  · intro h ev hev p hp
    match p with
    | .d i => exact (pinIdentifier_d_isSome i cfg).mpr ((h ev hev).1 i hp)
    | .e | .rs => rfl
    | .rw => exact (h ev hev).2 hp

@[simp] theorem withinPinSpace_nil (cfg : Config) : WithinPinSpace cfg [] := by simp [WithinPinSpace]

@[simp] theorem withinPinSpace_append (cfg : Config) (xs ys : List Event) :
    WithinPinSpace cfg (xs ++ ys) ↔ WithinPinSpace cfg xs ∧ WithinPinSpace cfg ys := by
  simp [WithinPinSpace, or_imp, forall_and]

@[simp] theorem withinPinSpace_cons (cfg : Config) (ev next : Event) (evs : List Event) :
    WithinPinSpace cfg (ev :: next :: evs) ↔ WithinPinSpace cfg [ev] ∧ WithinPinSpace cfg (next :: evs) :=
  withinPinSpace_append cfg [ev] (next :: evs)

@[simp] theorem withinPinSpace_delay (cfg : Config) (us : Nat) : WithinPinSpace cfg [.delay us] := by
  simp [withinPinSpace_iff, eventPin]

@[simp] theorem withinPinSpace_e (cfg : Config) (v : Bool) : WithinPinSpace cfg [.set .e v] := by
  simp [withinPinSpace_iff, eventPin]

@[simp] theorem withinPinSpace_rs (cfg : Config) (v : Bool) : WithinPinSpace cfg [.set .rs v] := by
  simp [withinPinSpace_iff, eventPin]

theorem withinPinSpace_rw {cfg : Config} (h : cfg.hasRw = true) (v : Bool) : WithinPinSpace cfg [.set .rw v] := by
  simp [withinPinSpace_iff, eventPin, h]

/-- A loop over lines the instance has. -/
theorem withinPinSpace_loop {cfg : Config} {w : Nat} (hw : w ≤ cfg.n) (f : Nat → Event)
    (hf : ∀ i, eventPin (f i) = some (.d i)) : WithinPinSpace cfg ((List.range w).map f) := by
  rw [withinPinSpace_iff]
  intro ev hev
  obtain ⟨i, hi, rfl⟩ := List.mem_map.mp hev
  refine ⟨fun j hj => ?_, fun h => ?_⟩
  · have hij : i = j := by simpa [hf] using hj
    exact hij ▸ Nat.lt_of_lt_of_le (List.mem_range.mp hi) hw
  · simp [hf] at h

/-- SET_DIRECTION (R100). -/
theorem withinPinSpace_direction (cfg : Config) (dir : Dir) (target : Direction) :
    WithinPinSpace cfg (directionEvents cfg dir target) := by
  unfold directionEvents
  split
  · simp
  · cases target <;> simp only [driveMoveEvents, releaseMoveEvents, withinPinSpace_append]
    · refine ⟨?_, withinPinSpace_loop (Nat.le_refl _) _ fun _ => rfl⟩
      split
      · exact withinPinSpace_rw ‹_› _
      · simp
    · refine ⟨withinPinSpace_loop (Nat.le_refl _) _ fun _ => rfl, ?_⟩
      split
      · exact withinPinSpace_rw ‹_› _
      · simp

/-- The status read (R117). -/
theorem withinPinSpace_read {cfg : Config} (h : cfg.hasRw = true) (dir : Dir) (levels : List Bool) :
    WithinPinSpace cfg (readEvents cfg dir levels) := by
  have hs : WithinPinSpace cfg (((List.range cfg.n).zip levels).map fun p => .sample (.d p.1) p.2) := by
    rw [withinPinSpace_iff]
    intro ev hev
    obtain ⟨⟨i, b⟩, hp, rfl⟩ := List.mem_map.mp hev
    have hi : i < cfg.n := List.mem_range.mp (List.of_mem_zip hp).1
    refine ⟨fun j hj => ?_, fun hr => by simp [eventPin] at hr⟩
    have hij : i = j := by simpa [eventPin] using hj
    exact hij ▸ hi
  simp only [readEvents, withinPinSpace_append, withinPinSpace_direction, hs, true_and]
  simp [withinPinSpace_rw h]

/-- Steps 2 to 7 of a write (R111); the split path is used with four lines only. -/
theorem withinPinSpace_transfer {cfg : Config} {path : Path} (hp : path = .split → cfg.n = 4) (dir : Dir) (v : Byte)
    (rs : Bool) : WithinPinSpace cfg (transferEvents cfg dir path v rs) := by
  have hb : WithinPinSpace cfg (byteEvents cfg.n path v) := by
    cases path with
    | single => exact withinPinSpace_loop (Nat.le_refl _) _ fun _ => rfl
    | split =>
      have hl (f : Nat → Bool) : WithinPinSpace cfg (driveEvents 4 f) :=
        withinPinSpace_loop (Nat.le_of_eq (hp rfl).symm) _ fun _ => rfl
      simp only [byteEvents, withinPinSpace_append, hl, true_and, and_true]
      simp
  simp only [transferEvents, withinPinSpace_append, withinPinSpace_direction, hb, true_and]
  refine ⟨⟨by simp, by simp⟩, ?_⟩
  split
  · exact withinPinSpace_rw ‹_› _
  · simp

/-- A write (R111). -/
theorem withinPinSpace_write {cfg : Config} {path : Path} (hp : path = .split → cfg.n = 4) (dir : Dir) (v : Byte)
    (c : Bool) (t : Nat) (levels : List Bool) : WithinPinSpace cfg (writeEvents cfg dir path v c t levels) := by
  simp only [writeEvents, withinPinSpace_append, withinPinSpace_delay, and_true]
  split
  · next h =>
    simp only [withinPinSpace_append, withinPinSpace_read h, withinPinSpace_rw h, true_and]
    exact withinPinSpace_transfer hp _ _ _
  · exact withinPinSpace_transfer hp _ _ _

/-- A sequence of writes keeps a trace in the pin space. -/
theorem withinPinSpace_writes {path : Path} (sent : List Sent) {s : State} (hp : path = .split → s.cfg.n = 4)
    (h : WithinPinSpace s.cfg s.trace) : WithinPinSpace s.cfg (afterWrites path sent s).trace := by
  induction sent generalizing s with
  | nil => exact h
  | cons w rest ih =>
    exact ih (s := afterWrite w.1 w.2.1 w.2.2 path s) hp
      ((withinPinSpace_append _ _ _).mpr ⟨h, withinPinSpace_write hp _ _ _ _ _⟩)

/-- The data bytes of a text keep a trace in the pin space. -/
theorem withinPinSpace_text {path : Path} (typing : Bool) (t : Nat) (text : List Byte) {s : State}
    (hp : path = .split → s.cfg.n = 4) (h : WithinPinSpace s.cfg s.trace) :
    WithinPinSpace s.cfg (afterText path typing t text s).trace := by
  induction text generalizing s with
  | nil => exact h
  | cons c rest ih =>
    have hw : WithinPinSpace s.cfg (afterWrite c false t path s).trace :=
      (withinPinSpace_append _ _ _).mpr ⟨h, withinPinSpace_write hp _ _ _ _ _⟩
    cases rest with
    | nil => exact hw
    | cons d more =>
      cases typing
      · exact ih (s := afterWrite c false t path s) hp hw
      · exact ih (s := record (.delay 110000) (afterWrite c false t path s)) hp
          ((withinPinSpace_append _ _ _).mpr ⟨hw, withinPinSpace_delay _ _⟩)

end Sys2Proof.Machine
end

