-- ==== Sys2Proof/Laws/Transactions.lean ====
section
/-!
SUPPORT. The bus-transaction view (`20_memory.md` R57) of the event lists: how it runs over a list in pieces, and what a
status read and a byte write look like in it.
-/
namespace Sys2Proof.Machine

/-- The view after a list of events. -/
def viewThrough (b : BusView) (evs : List Event) : BusView := evs.foldl viewAfter b

@[simp] theorem viewThrough_nil (b : BusView) : viewThrough b [] = b := rfl

@[simp] theorem viewThrough_cons (b : BusView) (ev : Event) (evs : List Event) :
    viewThrough b (ev :: evs) = viewThrough (viewAfter b ev) evs := rfl

@[simp] theorem viewThrough_append (b : BusView) (xs ys : List Event) :
    viewThrough b (xs ++ ys) = viewThrough (viewThrough b xs) ys := by simp [viewThrough]

/-- The transactions, delays apart, of a list in two pieces. -/
theorem transactions_append_fst (b : BusView) (xs ys : List Event) :
    (transactions b (xs ++ ys)).map Prod.fst =
      (transactions b xs).map Prod.fst ++ (transactions (viewThrough b xs) ys).map Prod.fst := by
  induction xs generalizing b with
  | nil => rfl
  | cons ev xs ih =>
    simp only [List.cons_append, transactions, viewThrough_cons]
    split <;> simp [ih]

theorem delayBeforeRise_append {ys : List Event} (h : delayBeforeRise ys = 0) (xs : List Event) :
    delayBeforeRise (xs ++ ys) = delayBeforeRise xs := by
  induction xs with
  | nil => simpa [delayBeforeRise] using h
  | cons ev xs ih =>
    match ev with
    | .set .e true => rfl
    | .delay n => simp [delayBeforeRise, ih]
    | .set .e false | .set (.d _) _ | .set .rs _ | .set .rw _ | .cfgOut _ _ | .cfgIn _ _ | .sample _ _ =>
      simpa [delayBeforeRise] using ih

/-- The transactions of a list in two pieces, of which the second waits for nothing before E rises. -/
theorem transactions_append {ys : List Event} (h : delayBeforeRise ys = 0) (b : BusView) (xs : List Event) :
    transactions b (xs ++ ys) = transactions b xs ++ transactions (viewThrough b xs) ys := by
  induction xs generalizing b with
  | nil => rfl
  | cons ev xs ih =>
    simp only [List.cons_append, transactions, viewThrough_cons, delayBeforeRise_append h]
    split <;> simp [ih]

/-- Events that leave E alone close no transaction. -/
theorem transactions_quiet (b : BusView) (xs ys : List Event) (h : ∀ ev ∈ xs, eventPin ev ≠ some .e) :
    transactions b (xs ++ ys) = transactions (viewThrough b xs) ys := by
  induction xs generalizing b with
  | nil => rfl
  | cons ev xs ih =>
    have hev : ev ≠ .set .e false := fun he => h ev (by simp) (by rw [he]; rfl)
    simp only [List.cons_append, transactions, hev, false_and, if_false, viewThrough_cons]
    exact ih _ fun e he => h e (by simp [he])

/-- Events that are no delays and leave E alone do not delay a rise. -/
theorem delayBeforeRise_quiet (xs ys : List Event)
    (h : ∀ ev ∈ xs, eventPin ev ≠ some .e ∧ eventPin ev ≠ none) :
    delayBeforeRise (xs ++ ys) = delayBeforeRise ys := by
  induction xs with
  | nil => rfl
  | cons ev xs ih =>
    have hev := h ev (by simp)
    have hr := ih fun e he => h e (by simp [he])
    match ev with
    | .set .e _ => exact absurd rfl hev.1
    | .delay n => exact absurd rfl hev.2
    | .set (.d _) _ | .set .rs _ | .set .rw _ | .cfgOut _ _ | .cfgIn _ _ | .sample _ _ =>
      simpa [delayBeforeRise] using hr

/-- A view in which lines are configured is the same view. -/
theorem viewThrough_configure (b : BusView) (is : List Nat) (f : Nat → Event)
    (h : ∀ i, (∃ v, f i = .cfgOut (.d i) v) ∨ ∃ p, f i = .cfgIn (.d i) p) :
    viewThrough b (is.map f) = b := by
  induction is with
  | nil => rfl
  | cons i is ih => rcases h i with ⟨v, hv⟩ | ⟨p, hp⟩ <;> simp [*, viewAfter]

/-- A drive loop joins its lines to the transfer. -/
theorem viewThrough_drive (b : BusView) (w : Nat) (level : Nat → Bool) :
    viewThrough b (driveEvents w level) =
      { b with lines := b.lines ++ (List.range w).map fun i => (i, level i) } := by
  unfold driveEvents
  induction List.range w generalizing b with
  | nil => simp
  | cons i is ih => simp [viewAfter, ih]

/-- A sample loop joins its lines to the transfer. -/
theorem viewThrough_sample (b : BusView) (ps : List (Nat × Bool)) :
    viewThrough b (ps.map fun p => .sample (.d p.1) p.2) = { b with lines := b.lines ++ ps } := by
  induction ps generalizing b with
  | nil => simp
  | cons p ps ih => simp [viewAfter, ih]

/-- A direction change leaves RS and E alone and RW as the target asks (R101, R102). -/
theorem viewThrough_direction (b : BusView) (cfg : Config) (dir : Dir) (target : Direction) :
    viewThrough b (directionEvents cfg dir target) =
      { b with rw := if cfg.hasRw ∧ dir ≠ dirOf target then decide (target = .released) else b.rw } := by
  have ho (c : BusView) := viewThrough_configure c (List.range cfg.n) (fun i => .cfgOut (.d i) false) (by simp)
  have hi (c : BusView) :=
    viewThrough_configure c (List.range cfg.n) (fun i => .cfgIn (.d i) (releasedPull cfg)) (by simp)
  by_cases hd : dir = dirOf target
  · simp [directionEvents, hd]
  · cases target <;> simp only [dirOf] at hd <;> cases hr : cfg.hasRw <;>
      simp [directionEvents, driveMoveEvents, releaseMoveEvents, dirOf, hd, hr, ho, hi, viewAfter]

theorem direction_quiet (cfg : Config) (dir : Dir) (target : Direction) :
    ∀ ev ∈ directionEvents cfg dir target, eventPin ev ≠ some .e ∧ eventPin ev ≠ none := by
  intro ev hev
  unfold directionEvents at hev
  split at hev
  · simp at hev
  · cases target <;> simp only [driveMoveEvents, releaseMoveEvents, List.mem_append, List.mem_map] at hev
    · rcases hev with hev | ⟨i, -, rfl⟩
      · cases hr : cfg.hasRw <;> simp [hr] at hev
        simp [hev, eventPin]
      · simp [eventPin]
    · rcases hev with ⟨i, -, rfl⟩ | hev
      · simp [eventPin]
      · cases hr : cfg.hasRw <;> simp [hr] at hev
        simp [hev, eventPin]

theorem drive_quiet (w : Nat) (level : Nat → Bool) :
    ∀ ev ∈ driveEvents w level, eventPin ev ≠ some .e ∧ eventPin ev ≠ none := by
  intro ev hev
  simp only [driveEvents, List.mem_map] at hev
  obtain ⟨i, -, rfl⟩ := hev
  simp [eventPin]

/-- The value on `w` lines that carry the bits of a byte: its low `w` bits. -/
theorem linesValue_byte (v : Byte) {w : Nat} (hw : w = 4 ∨ w = 8) :
    linesValue ((List.range w).map fun i => (i, v.getLsbD i)) = v.toNat % 2 ^ w := by
  rcases hw with rfl | rfl <;> revert v <;> decide +kernel

/-- The value on four lines that carry the high nibble of a byte. -/
theorem linesValue_high (v : Byte) :
    linesValue ((List.range 4).map fun i => (i, v.getLsbD (4 + i))) = v.toNat / 16 := by
  revert v; decide +kernel

/-- A drive loop in a transfer that E has just begun. -/
theorem transactions_drive (b : BusView) (w : Nat) (level : Nat → Bool) (rest : List Event) :
    transactions { b with enabled := true, lines := [] } (driveEvents w level ++ rest) =
      transactions { b with enabled := true, lines := (List.range w).map fun i => (i, level i) } rest := by
  rw [transactions_quiet _ _ _ fun ev h => (drive_quiet w level ev h).1, viewThrough_drive]
  simp

/-- Steps 2 to 7 of a write, in the view, from a view that is in write mode once the direction is Driving (R113). -/
theorem transactions_transfer {cfg : Config} {dir : Dir} {path : Path} {b : BusView} (v : Byte) (rs : Bool) (t : Nat)
    (hn : path = .single ∨ cfg.n = 4) (h8 : cfg.n = 4 ∨ cfg.n = 8)
    (hrw : (cfg.hasRw = true → dir = .driving → b.rw = false) ∧ (cfg.hasRw = false → b.rw = false)) :
    transactions b (transferEvents cfg dir path v rs ++ [.delay (1 + t)]) = sentTransactions cfg.n path (v, !rs, t) := by
  have hq := direction_quiet cfg dir .driving
  have hv : (viewThrough b (directionEvents cfg dir .driving)).rw = false := by
    rw [viewThrough_direction]
    cases hr : cfg.hasRw <;> by_cases hd : dir = .driving <;> simp_all
  simp only [transferEvents, List.append_assoc]
  rw [transactions_quiet _ _ _ fun ev h => (hq ev h).1]
  generalize viewThrough b (directionEvents cfg dir .driving) = c at hv
  cases path with
  | single =>
    simp only [byteEvents, List.cons_append, List.nil_append, transactions, viewAfter]
    simp only [Event.set.injEq, reduceCtorEq, and_false, false_and, if_false]
    rw [transactions_quiet _ _ _ fun ev h => (drive_quiet _ _ ev h).1, viewThrough_drive]
    cases hr : cfg.hasRw <;>
      simp [transactions, viewAfter, closeTransaction, delayBeforeRise, sentTransactions, hv, linesValue_byte v h8]
  | split =>
    have hn : cfg.n = 4 := by simpa using hn
    simp only [byteEvents, List.append_assoc, List.cons_append, List.nil_append, transactions, viewAfter]
    simp only [Event.set.injEq, reduceCtorEq, and_false, false_and, if_false]
    rw [transactions_quiet _ _ _ fun ev h => (drive_quiet _ _ ev h).1, viewThrough_drive]
    simp only [transactions, viewAfter, reduceCtorEq, false_and, if_false]
    simp only [Event.set.injEq, reduceCtorEq, and_false, if_false, and_self, if_true]
    rw [transactions_quiet _ _ _ fun ev h => (drive_quiet _ _ ev h).1, viewThrough_drive]
    have hlow := linesValue_byte v (w := 4) (.inl rfl)
    cases hr : cfg.hasRw <;>
      simp [transactions, viewAfter, closeTransaction, delayBeforeRise, sentTransactions, hv, linesValue_high, hlow]

/-- A status read in the view: one read transaction (R117, R57). -/
theorem transactions_read {cfg : Config} {dir : Dir} {b : BusView} (levels : List Bool) (rest : List Event) :
    transactions b (readEvents cfg dir levels ++ rest) =
      (⟨true, false, ((List.range cfg.n).zip levels).length, linesValue ((List.range cfg.n).zip levels)⟩,
        1 + delayBeforeRise rest) :: transactions ⟨true, false, false, []⟩ rest := by
  have hs : ∀ ev ∈ ((List.range cfg.n).zip levels).map (fun p => Event.sample (.d p.1) p.2),
      eventPin ev ≠ some .e := by
    intro ev hev
    obtain ⟨p, -, rfl⟩ := List.mem_map.mp hev
    simp [eventPin]
  simp only [readEvents, List.append_assoc]
  rw [transactions_quiet _ _ _ fun ev h => (direction_quiet _ _ _ ev h).1]
  simp only [List.cons_append, List.nil_append, transactions, viewAfter]
  simp only [Event.set.injEq, reduceCtorEq, and_false, false_and, if_false]
  rw [transactions_quiet _ _ _ hs, viewThrough_sample]
  simp [transactions, viewAfter, closeTransaction, delayBeforeRise]

/-- A write begins no sooner than the events before it let it: no delay stands before its first rise of E. -/
theorem delayBeforeRise_write (cfg : Config) (dir : Dir) (path : Path) (v : Byte) (c : Bool) (t : Nat)
    (levels : List Bool) (rest : List Event) :
    delayBeforeRise (writeEvents cfg dir path v c t levels ++ rest) = 0 := by
  cases hr : cfg.hasRw <;>
    simp only [writeEvents, readEvents, transferEvents, hr, if_true, if_false, Bool.false_eq_true,
      List.append_assoc] <;>
    rw [delayBeforeRise_quiet _ _ (direction_quiet _ _ _)] <;> rfl

/-- One write in the view: its own transactions, and the status read before it when there is a Read/Write line
(R111, R113). -/
theorem transactions_write {cfg : Config} {dir : Dir} {path : Path} {b : BusView} (v : Byte) (c : Bool) (t : Nat)
    (levels : List Bool) (hn : path = .single ∨ cfg.n = 4) (h8 : cfg.n = 4 ∨ cfg.n = 8)
    (hb : cfg.hasRw = false → b.rw = false) :
    transactions b (writeEvents cfg dir path v c t levels) =
      (if cfg.hasRw then
        [(⟨true, false, ((List.range cfg.n).zip levels).length, linesValue ((List.range cfg.n).zip levels)⟩, 1)]
      else []) ++ sentTransactions cfg.n path (v, c, t) := by
  cases hr : cfg.hasRw with
  | false =>
    simp only [writeEvents, hr, Bool.false_eq_true, if_false, List.nil_append]
    rw [transactions_transfer v (!c) t hn h8 ⟨by simp [hr], fun _ => hb hr⟩]
    simp
  | true =>
    simp only [writeEvents, hr, if_true, List.append_assoc]
    rw [transactions_read]
    have hd : delayBeforeRise ([.set .rw false] ++ (transferEvents cfg .released path v (!c) ++ [.delay (1 + t)])) = 0 := by
      simp only [transferEvents, List.append_assoc, List.cons_append, List.nil_append, delayBeforeRise]
      rw [delayBeforeRise_quiet _ _ (direction_quiet _ _ _)]
      rfl
    rw [hd]
    simp only [List.cons_append, List.nil_append, transactions, viewAfter]
    simp only [Event.set.injEq, reduceCtorEq, false_and, if_false]
    rw [transactions_transfer v (!c) t hn h8 ⟨by simp, by simp⟩]
    simp

theorem sentTransactions_writes (n : Nat) (path : Path) (w : Sent) :
    (sentTransactions n path w).filter (fun p => !p.1.rw) = sentTransactions n path w := by
  cases path <;> rfl

/-- Events that leave the Read/Write pin alone leave its level in the view. -/
theorem viewThrough_rw (b : BusView) (xs : List Event) (h : ∀ ev ∈ xs, eventPin ev ≠ some .rw) :
    (viewThrough b xs).rw = b.rw := by
  induction xs generalizing b with
  | nil => rfl
  | cons ev xs ih =>
    have hev := h ev (by simp)
    rw [viewThrough_cons, ih _ fun e he => h e (by simp [he])]
    match ev with
    | .set .rw _ | .cfgOut .rw _ => exact absurd rfl hev
    | .cfgIn _ _ | .set .e _ | .set (.d _) _ | .set .rs _ | .delay _ | .cfgOut .e _ | .cfgOut .rs _ | .cfgOut (.d _) _
    | .sample (.d _) _ | .sample .e _ | .sample .rs _ | .sample .rw _ => rfl

/-- A write of an instance without a Read/Write line has no event on one (R55). -/
theorem writeEvents_without {cfg : Config} (hr : cfg.hasRw = false) (dir : Dir) (path : Path) (v : Byte) (c : Bool)
    (t : Nat) (levels : List Bool) : ∀ ev ∈ writeEvents cfg dir path v c t levels, eventPin ev ≠ some .rw := by
  have hd : ∀ ev ∈ directionEvents cfg dir .driving, eventPin ev ≠ some .rw := by
    intro ev hev
    unfold directionEvents at hev
    split at hev
    · simp at hev
    · simp [driveMoveEvents, hr] at hev
      obtain ⟨i, -, rfl⟩ := hev
      simp [eventPin]
  have hl : ∀ (w : Nat) (f : Nat → Bool), ∀ ev ∈ driveEvents w f, eventPin ev ≠ some .rw := by
    intro w f ev hev
    obtain ⟨i, -, rfl⟩ := List.mem_map.mp hev
    simp [eventPin]
  intro ev hev
  simp only [writeEvents, transferEvents, hr, Bool.false_eq_true, if_false, List.append_nil, List.mem_append,
    List.mem_cons, List.not_mem_nil, or_false] at hev
  rcases hev with (((h | rfl | rfl) | h) | rfl | rfl) | rfl <;> try simp [eventPin]
  · exact hd _ h
  · cases path with
    | single => exact hl _ _ _ h
    | split =>
      simp only [byteEvents, List.mem_append, List.mem_cons, List.not_mem_nil, or_false] at h
      rcases h with (h | rfl | rfl | rfl | rfl) | h <;> try simp
      · exact hl _ _ _ h
      · exact hl _ _ _ h

/-- A list of events puts exactly these write transactions on the bus, from every view of an instance that agrees with
an absent Read/Write line; no delay stands before its first transfer. -/
structure Sends (cfg : Config) (evs : List Event) (sent : List (Transaction × Nat)) : Prop where
  writes : ∀ b : BusView, (cfg.hasRw = false → b.rw = false) →
    (transactions b evs).filter (fun p => !p.1.rw) = sent
  low : ∀ b : BusView, (cfg.hasRw = false → b.rw = false) → cfg.hasRw = false → (viewThrough b evs).rw = false
  atOnce : delayBeforeRise evs = 0

theorem Sends.nil (cfg : Config) : Sends cfg [] [] := ⟨fun _ _ => rfl, fun _ h hr => h hr, rfl⟩

theorem Sends.append {cfg : Config} {xs ys : List Event} {a b : List (Transaction × Nat)} (h : Sends cfg xs a)
    (k : Sends cfg ys b) : Sends cfg (xs ++ ys) (a ++ b) where
  writes v hv := by
    rw [transactions_append k.atOnce, List.filter_append, h.writes v hv, k.writes _ (h.low v hv)]
  low v hv hr := by rw [viewThrough_append]; exact k.low _ (h.low v hv) hr
  atOnce := by rw [delayBeforeRise_append k.atOnce, h.atOnce]

theorem sends_write {cfg : Config} {path : Path} (hn : path = .single ∨ cfg.n = 4) (h8 : cfg.n = 4 ∨ cfg.n = 8)
    (dir : Dir) (w : Sent) (levels : List Bool) :
    Sends cfg (writeEvents cfg dir path w.1 w.2.1 w.2.2 levels) (sentTransactions cfg.n path w) where
  writes b hb := by
    rw [transactions_write w.1 w.2.1 w.2.2 levels hn h8 hb, List.filter_append]
    split <;> simp [sentTransactions_writes]
  low b hb hr := by rw [viewThrough_rw _ _ (writeEvents_without hr _ _ _ _ _ _)]; exact hb hr
  atOnce := by simpa using delayBeforeRise_write cfg dir path w.1 w.2.1 w.2.2 levels []

/-- A sequence of writes appends its transactions, in order (R64). -/
theorem sends_writes {path : Path} {s : State} (hn : path = .single ∨ s.cfg.n = 4) (h8 : s.cfg.n = 4 ∨ s.cfg.n = 8)
    (sent : List Sent) : ∃ evs, (afterWrites path sent s).trace = s.trace ++ evs ∧
      Sends s.cfg evs (sent.flatMap (sentTransactions s.cfg.n path)) := by
  induction sent generalizing s with
  | nil => exact ⟨[], by simp [afterWrites], Sends.nil _⟩
  | cons w rest ih =>
    obtain ⟨evs, he, hs⟩ := ih (s := afterWrite w.1 w.2.1 w.2.2 path s) hn h8
    refine ⟨writeEvents s.cfg s.dir path w.1 w.2.1 w.2.2 s.nextLevels ++ evs, ?_, ?_⟩
    · rw [← List.append_assoc]; exact he
    · exact (sends_write hn h8 _ w _).append hs

/-- The view of a resting state agrees with an absent Read/Write line. -/
theorem viewOf_rw {s : State} (h : s.Resting) (hr : s.cfg.hasRw = false) : (viewOf s).rw = false := by
  simp [viewOf, h.absent hr, drivenLevel]

/-- The write transactions of a step, from what its events send. -/
theorem newWrites_eq {s t : State} {evs : List Event} {sent : List (Transaction × Nat)} (h : s.Resting)
    (ht : t.trace = s.trace ++ evs) (hs : Sends s.cfg evs sent) : newWrites s t = sent := by
  simp only [newWrites, newTransactions, newEvents, ht, List.drop_left]
  exact hs.writes _ (viewOf_rw h)

end Sys2Proof.Machine
end

