-- ==== Sys2Proof/Tests/Slice0.lean ====
section
/-!
SUPPORT. Tests of one step each, with the expected results of `95_test_vectors.md` (named in each docstring) or written
out by hand from the rule named; the smoke test of WellFormed; and, for each statement with hypotheses, a state and
operands that meet them.
-/
namespace Sys2Proof.Tests
open Sys2Proof.Machine

/-! ### Small states and readings of an outcome -/

abbrev Ended := Host.Outcome State Fault Refusal

/-- The events a step appended. -/
def eventsOf (s : State) : Ended → List Event
  | .next t => newEvents s t
  | .fault _ => []
  | .refused _ => []

/-- The transactions a step appended, with the delay after each. -/
def transactionsOf (s : State) : Ended → List (Transaction × Nat)
  | .next t => newTransactions s t
  | .fault _ => []
  | .refused _ => []

/-- The last response. -/
def responseOf : Ended → Option Response
  | .next t => t.responses.getLast?
  | .fault _ => none
  | .refused _ => none

/-- The mirror after a step. -/
def rowsOf : Ended → Option (List Byte × List Byte)
  | .next t => some (t.row1, t.row2)
  | .fault _ => none
  | .refused _ => none

/-- Why a step was refused. -/
def refusalOf : Ended → Option Refusal
  | .next _ => none
  | .fault _ => none
  | .refused r => some r

/-- A fresh instance. -/
def fresh (n : Nat) (hasRw : Bool) : State := State.blockReset (Config.standard n hasRw)

/-- An instance in a mode with its data lines driven low, as after a RESET. -/
def driving (n : Nat) (hasRw : Bool) (mode : Mode) : State :=
  { fresh n hasRw with mode := mode, dir := .driving, pinD := uniformPins n (.output false) }

/-- A command transaction of eight lines and the delay after it. -/
def cmd8 (v t : Nat) : Transaction × Nat := (⟨false, false, 8, v⟩, t)

/-- A data transaction of eight lines and the delay after it. -/
def data8 (v t : Nat) : Transaction × Nat := (⟨false, true, 8, v⟩, t)

/-- A command transaction of four lines and the delay after it. -/
def cmd4 (v t : Nat) : Transaction × Nat := (⟨false, false, 4, v⟩, t)

/-! ### SET_DIRECTION -/

/-- B-DIR1. -/
theorem test_setDirection_driving : eventsOf (fresh 4 true) (exec (.setDirection .driving) (fresh 4 true)) =
    [.set .rw false, .cfgOut (.d 0) false, .cfgOut (.d 1) false, .cfgOut (.d 2) false, .cfgOut (.d 3) false] := by
  decide +kernel

/-- B-DIR3. -/
theorem test_setDirection_released :
    eventsOf (driving 4 true .unset) (exec (.setDirection .released) (driving 4 true .unset)) =
    [.cfgIn (.d 0) .down, .cfgIn (.d 1) .down, .cfgIn (.d 2) .down, .cfgIn (.d 3) .down, .set .rw true] := by
  decide +kernel

/-! ### WRITE, READ, RESET -/

/-- B-WR3. -/
theorem test_write_split : eventsOf (driving 4 false .fourBit) (exec (.write 0xA5 false 37) (driving 4 false .fourBit)) =
    [.set .rs true, .set .e true, .set (.d 0) false, .set (.d 1) true, .set (.d 2) false, .set (.d 3) true, .delay 1,
      .set .e false, .delay 1, .set .e true, .set (.d 0) true, .set (.d 1) false, .set (.d 2) true, .set (.d 3) false,
      .delay 1, .set .e false, .delay 38] := by
  decide +kernel

/-- B-WR5, with the environment's answers 1, 0, 0, 1. -/
theorem test_write_busy_check :
    eventsOf (fresh 4 true)
      (exec (.write 0xC0 true 37) { fresh 4 true with mode := .fourBit, inputs := [true, false, false, true] }) =
    [.cfgIn (.d 0) .down, .cfgIn (.d 1) .down, .cfgIn (.d 2) .down, .cfgIn (.d 3) .down, .set .rw true, .set .rw true,
      .set .rs false, .set .e true, .delay 1, .sample (.d 0) true, .sample (.d 1) false, .sample (.d 2) false,
      .sample (.d 3) true, .set .e false, .delay 1, .set .rw false, .set .rw false, .cfgOut (.d 0) false,
      .cfgOut (.d 1) false, .cfgOut (.d 2) false, .cfgOut (.d 3) false, .set .rs false, .set .e true,
      .set (.d 0) false, .set (.d 1) false, .set (.d 2) true, .set (.d 3) true, .delay 1, .set .e false, .delay 1,
      .set .e true, .set (.d 0) false, .set (.d 1) false, .set (.d 2) false, .set (.d 3) false, .delay 1,
      .set .e false, .set .rw false, .delay 38] := by
  decide +kernel

/-- B-RD3: the environment answers D0 = 1, D1 to D6 = 0, D7 = 1. -/
theorem test_read_value : responseOf (exec .read
    { fresh 8 true with inputs := [true, false, false, false, false, false, false, true] }) = some ⟨.ok, 0x81⟩ := by
  decide +kernel

/-- B-RD4. -/
theorem test_read_without_line :
    exec .read (fresh 8 false) = .next (respond (.error .unsupportedOperation) 0 (fresh 8 false)) := rfl

/-- B-RST1: 99 events, 5945 µs. -/
theorem test_reset_eight : transactionsOf (fresh 8 false) (exec .reset (fresh 8 false)) =
    [cmd8 0x30 4101, cmd8 0x30 101, cmd8 0x30 101, cmd8 0x38 38, cmd8 0x08 38, cmd8 0x01 1521, cmd8 0x06 38] ∧
    (eventsOf (fresh 8 false) (exec .reset (fresh 8 false))).length = 99 ∧
    totalDelay (eventsOf (fresh 8 false) (exec .reset (fresh 8 false))) = 5945 := by
  decide +kernel

/-- B-RST2. -/
theorem test_reset_four : transactionsOf (fresh 4 false) (exec .reset (fresh 4 false)) =
    [cmd4 0x3 4101, cmd4 0x3 101, cmd4 0x2 101, cmd4 0x2 101, cmd4 0x8 38, cmd4 0x0 1, cmd4 0x8 38, cmd4 0x0 1,
      cmd4 0x1 1521, cmd4 0x0 1, cmd4 0x6 38] := by
  decide +kernel

/-! ### The command surface, on the instance of B-L2 -/

/-- B-L2-1. -/
theorem test_command : transactionsOf (driving 8 false .eightBit)
    (exec (.command .displayOn) (driving 8 false .eightBit)) = [cmd8 0x0C 38] := by
  decide +kernel

/-- B-L2-13. -/
theorem test_command_before_reset : exec (.command .displayOn) (fresh 8 false) =
    .next (respond (.error .configurationError) 0 (fresh 8 false)) := rfl

/-- B-L2-2. -/
theorem test_start : transactionsOf (driving 8 false .eightBit) (exec .start (driving 8 false .eightBit)) =
    [cmd8 0x0C 38, cmd8 0x02 1521] := by
  decide +kernel

/-- B-L2-3. -/
theorem test_clear : transactionsOf (driving 8 false .eightBit) (exec .clear (driving 8 false .eightBit)) =
    [cmd8 0x01 1521] := by
  decide +kernel

/-- B-L2-5. -/
theorem test_setLine : transactionsOf (driving 8 false .eightBit) (exec (.setLine 2) (driving 8 false .eightBit)) =
    [cmd8 0xC0 38] := by
  decide +kernel

/-- B-L2-6. -/
theorem test_setLine_range : exec (.setLine 0) (driving 8 false .eightBit) =
    .next (respond (.error .rangeError) 0 (driving 8 false .eightBit)) := rfl

/-- B-L2-10. -/
theorem test_putLine_typing : transactionsOf (driving 8 false .eightBit)
    (exec (.putLine 1 [0x41, 0x42] true) (driving 8 false .eightBit)) =
    [cmd8 0x80 38, data8 0x41 110038, data8 0x42 38] := by
  decide +kernel

/-- B-L2-7. -/
theorem test_putLine_range : exec (.putLine 3 [0x58] false) (driving 8 false .eightBit) =
    .next (respond (.error .rangeError) 0 (driving 8 false .eightBit)) := rfl

/-- B-L2-9. -/
theorem test_clearLine : transactionsOf (driving 8 false .eightBit)
    (exec (.clearLine 2) (driving 8 false .eightBit)) = cmd8 0xC0 38 :: List.replicate 16 (data8 0x20 38) := by
  decide +kernel

/-- B-L2-12: the mirror. -/
theorem test_pushLine_rows : rowsOf (exec (.pushLine [0x48, 0x49] true)
    { driving 8 false .eightBit with row2 := [0x58, 0x59, 0x5A] }) = some ([0x58, 0x59, 0x5A], [0x48, 0x49]) := by
  decide +kernel

/-- B-L2-12: the last command and the text, with both pauses. -/
theorem test_pushLine_end : (transactionsOf (driving 8 false .eightBit) (exec (.pushLine [0x48, 0x49] true)
    { driving 8 false .eightBit with row2 := [0x58, 0x59, 0x5A] })).drop 38 =
    [cmd8 0xC0 38, data8 0x48 110038, data8 0x49 100038] := by
  decide +kernel

/-! ### The rows of the LCD side -/

/-- R78 index 0, with a byte of one's own. -/
theorem test_cmdDefault : transactionsOf (driving 8 false .eightBit)
    (exec (.cmdDefault 0x5A) (driving 8 false .eightBit)) = [cmd8 0x5A 38] := by
  decide +kernel

/-- R78 index 1. -/
theorem test_cmdDisplayOn : transactionsOf (driving 8 false .eightBit)
    (exec .cmdDisplayOn (driving 8 false .eightBit)) = [cmd8 0x0C 38] := by
  decide +kernel

/-- R78 index 2. -/
theorem test_cmdDisplayOff : transactionsOf (driving 8 false .eightBit)
    (exec .cmdDisplayOff (driving 8 false .eightBit)) = [cmd8 0x08 38] := by
  decide +kernel

/-- R78 index 3. -/
theorem test_cmdDisplayClear : transactionsOf (driving 8 false .eightBit)
    (exec .cmdDisplayClear (driving 8 false .eightBit)) = [cmd8 0x01 1521] := by
  decide +kernel

/-- R78 index 4. -/
theorem test_cmdCursorHome : transactionsOf (driving 8 false .eightBit)
    (exec .cmdCursorHome (driving 8 false .eightBit)) = [cmd8 0x02 1521] := by
  decide +kernel

/-- R78 index 5. -/
theorem test_cmdModeAutoinc : transactionsOf (driving 8 false .eightBit)
    (exec .cmdModeAutoinc (driving 8 false .eightBit)) = [cmd8 0x06 38] := by
  decide +kernel

/-- R78 index 6. -/
theorem test_cmdFuncsel8Bit : transactionsOf (driving 8 false .eightBit)
    (exec .cmdFuncsel8Bit (driving 8 false .eightBit)) = [cmd8 0x38 38] := by
  decide +kernel

/-- R78 index 7, on four lines: the nibbles 2 and 8 (the nibble-packing table of the vectors). -/
theorem test_cmdFuncsel4Bit : transactionsOf (driving 4 false .fourBit)
    (exec .cmdFuncsel4Bit (driving 4 false .fourBit)) = [cmd4 0x2 1, cmd4 0x8 38] := by
  decide +kernel

/-- R79: the address 0x67, the last of row 2 (R63). -/
theorem test_cmdDdramSet : transactionsOf (driving 8 false .eightBit)
    (exec (.cmdDdramSet 0x67) (driving 8 false .eightBit)) = [cmd8 0xE7 38] := by
  decide +kernel

/-- R80, R132: the first repetition. -/
theorem test_rawReset8 : transactionsOf (fresh 8 false) (exec (.rawReset8 0) (fresh 8 false)) = [cmd8 0x30 4101] := by
  decide +kernel

/-- R80, R133: the second repetition. -/
theorem test_rawReset4Three : transactionsOf (fresh 4 false) (exec (.rawReset4Three 1) (fresh 4 false)) =
    [cmd4 0x3 101] := by
  decide +kernel

/-- R80, R133: the first repetition. -/
theorem test_rawReset4Two : transactionsOf (fresh 4 false) (exec (.rawReset4Two 0) (fresh 4 false)) =
    [cmd4 0x2 101] := by
  decide +kernel

/-- R76. -/
theorem test_busB8 : transactionsOf (driving 8 false .unset) (exec (.busB8 true 0xA5) (driving 8 false .unset)) =
    [data8 0xA5 0] := by
  decide +kernel

/-- R77. -/
theorem test_busB4 : transactionsOf (driving 4 true .unset) (exec (.busB4 true 0xA 0x5) (driving 4 true .unset)) =
    [(⟨false, true, 4, 0xA⟩, 1), (⟨false, true, 4, 0x5⟩, 0)] := by
  decide +kernel

/-- R77. -/
theorem test_busR4 : transactionsOf (driving 4 false .unset) (exec (.busR4 0x9) (driving 4 false .unset)) =
    [cmd4 0x9 0] := by
  decide +kernel

/-- R77 on four lines: only the low four of the word's bits are sampled. -/
theorem test_busSt : responseOf (exec (.busSt 0xF8) (driving 4 true .fourBit)) = some ⟨.ok, 0x08⟩ := by
  decide +kernel

/-! ### Decoding: words written out bit by bit from R72, R73, R76 to R80 -/

/-- R72, R73: one request of each shape. -/
theorem test_decode_requests :
    decode (.request { op := 0b0000, dir := 0b0 }) = .ok (.setDirection .driving) ∧
    decode (.request { op := 0b0001, value := 0b00110000, cmd := 0b1, time := 0b1000000000100 }) =
      .ok (.write 0x30 true 4100) ∧
    decode (.request { op := 0b0010 }) = .ok .read ∧ decode (.request { op := 0b0011 }) = .ok .reset ∧
    decode (.request { op := 0b0100, key := 0b0101 }) = .ok (.command .modeAutoinc) ∧
    decode (.request { op := 0b0101 }) = .ok .start ∧ decode (.request { op := 0b0110 }) = .ok .clear ∧
    decode (.request { op := 0b0111, line := 0b10 }) = .ok (.setLine 2) ∧
    decode (.request { op := 0b1000, line := 0b1, text := [0b1000001, 0b1000010], typing := 0b0 }) =
      .ok (.putLine 1 [0x41, 0x42] false) ∧
    decode (.request { op := 0b1001, line := 0b10 }) = .ok (.clearLine 2) ∧
    decode (.request { op := 0b1010, text := [0b1011000], typing := 0b1 }) = .ok (.pushLine [0x58] true) := by
  decide

/-- R78, R79: every row of the Command Table. -/
theorem test_decode_command_table :
    decode (.lcd (.cmd8 0b0000 0b01011010)) = .ok (.cmdDefault 0x5A) ∧
    decode (.lcd (.cmd8 0b0001 0b00001100)) = .ok .cmdDisplayOn ∧
    decode (.lcd (.cmd8 0b0010 0b00001000)) = .ok .cmdDisplayOff ∧
    decode (.lcd (.cmd8 0b0011 0b00000001)) = .ok .cmdDisplayClear ∧
    decode (.lcd (.cmd8 0b0100 0b00000010)) = .ok .cmdCursorHome ∧
    decode (.lcd (.cmd8 0b0101 0b00000110)) = .ok .cmdModeAutoinc ∧
    decode (.lcd (.cmd8 0b0110 0b00111000)) = .ok .cmdFuncsel8Bit ∧
    decode (.lcd (.cmd8 0b0111 0b00101000)) = .ok .cmdFuncsel4Bit ∧
    decode (.lcd (.cmd8 0b1000 0b11000000)) = .ok (.cmdDdramSet 0x40) := by
  decide

/-- R76, R77, R80: the raw patterns and the bus formats. -/
theorem test_decode_bus_words :
    decode (.lcd (.raw8 0b10 0b00110000)) = .ok (.rawReset8 2) ∧
    decode (.lcd (.raw4 0b01 0b0011)) = .ok (.rawReset4Three 1) ∧
    decode (.lcd (.raw4 0b00 0b0010)) = .ok (.rawReset4Two 0) ∧
    decode (.lcd (.b8 0b0110100101)) = .ok (.busB8 true 0xA5) ∧
    decode (.lcd (.b4 0b011010010101)) = .ok (.busB4 true 0xA 0x5) ∧
    decode (.lcd (.r4 0b001000)) = .ok (.busR4 0x8) ∧
    decode (.lcd (.st 0b1010000001)) = .ok (.busSt 0x81) := by
  decide

/-- R84 and the levels of R76, R77: what is rejected, by name. -/
theorem test_decode_rejects :
    decode (.request { op := 0b1011 }) = .error (.reservedTag 0xB) ∧
    decode (.request { op := 0b0100, key := 0b1001 }) = .error (.reservedKey 9) ∧
    decode (.lcd (.cmd8 0b0001 0b00001101)) = .error (.notACommandEntry 1 0x0D) ∧
    decode (.lcd (.cmd8 0b1000 0b01000000)) = .error (.notACommandEntry 8 0x40) ∧
    decode (.lcd (.raw8 0b11 0b00110000)) = .error (.noSuchRepetition 3) ∧
    decode (.lcd (.raw4 0b00 0b0001)) = .error (.notARawPattern 0x01) ∧
    decode (.lcd (.b8 0b1110100101)) = .error (.notABusWord 0b1110100101) ∧
    decode (.lcd (.b4 0b011010000101)) = .error (.notABusWord 0b011010000101) ∧
    decode (.lcd (.r4 0b010000)) = .error (.notABusWord 0b010000) ∧
    decode (.lcd (.st 0b1110000001)) = .error (.notABusWord 0b1110000001) := by
  decide

/-- Log entry 10: what the opcode table's numbers are read as. -/
theorem test_table_words :
    decodeTableWord 8 0x0 = some (.setDirection .driving) ∧ decodeTableWord 8 0xA = some (.pushLine [] false) ∧
    decodeTableWord 8 0xB = none ∧ decodeTableWord 8 0x0C = some .cmdDisplayOn ∧
    decodeTableWord 8 0x38 = some .cmdFuncsel8Bit ∧ decodeTableWord 8 0x28 = some .cmdFuncsel4Bit ∧
    decodeTableWord 8 0x80 = some (.cmdDdramSet 0) ∧ decodeTableWord 8 0x30 = some (.rawReset8 0) ∧
    decodeTableWord 8 0x5A = some (.cmdDefault 0x5A) ∧ decodeTableWord 16 0x1A5 = some (.busB8 true 0xA5) ∧
    decodeTableWord 16 0x281 = some (.busSt 0x81) ∧ decodeTableWord 16 0x695 = some (.busB4 true 0xA 0x5) := by
  decide

/-- R5, R63: the windows of the two rows, and no other. -/
theorem test_row_windows : rowWindow 1 = some (0x00, 0x27) ∧ rowWindow 2 = some (0x40, 0x67) ∧
    rowWindow 0 = none ∧ rowWindow 3 = none := by
  decide

/-- R5, R50, R180: roles and identifiers of a pinout of four data lines and no Read/Write line. -/
theorem test_pinIdentifier : let cfg := { Config.standard 4 false with pinout := ⟨[25, 24, 23, 18], 8, 7, none⟩ }
    cfg.n = 4 ∧ cfg.hasRw = false ∧ pinIdentifier (.d 0) cfg = some 25 ∧ pinIdentifier (.d 3) cfg = some 18 ∧
    pinIdentifier (.d 4) cfg = none ∧ pinIdentifier .e cfg = some 8 ∧ pinIdentifier .rs cfg = some 7 ∧
    pinIdentifier .rw cfg = none := by
  decide

/-- R75: the response codes. -/
theorem test_status_codes : statusCode .ok = 0 ∧ statusCode (.error .configurationError) = 1 ∧
    statusCode (.error .rangeError) = 2 ∧ statusCode (.error .unsupportedOperation) = 3 := by
  decide

/-- R118: the busy flag of B-RD3 (bit 7 of 0x81) and of B-RD5 (bit 3 of 0x08). -/
theorem test_busy_flag : busyFlag 8 0x81 = true ∧ busyFlag 4 0x08 = true ∧ busyFlag 8 0x7F = false := by
  decide

/-- R8: two adjacent delays are one with the sum. -/
theorem test_merge_delays : mergeDelays [.delay 38, .delay 110000, .set .e true, .delay 1] =
    [.delay 110038, .set .e true, .delay 1] := by
  decide

/-- P5 step 6: a request is taken from the port, and the error changes nothing but the answer. -/
theorem test_step_takes_request :
    step { driving 8 false .eightBit with requests := [.request { op := 0x7, line := 0 }] } =
      .next { driving 8 false .eightBit with responses := [⟨.error .rangeError, 0⟩] } := rfl

/-- R84: a reserved tag is refused. -/
theorem test_step_refuses_reserved :
    step { fresh 8 true with requests := [.request { op := 0xF }] } = .refused (.rejected (.reservedTag 0xF)) := rfl

/-! ### WellFormed: an ill-formed term for each check -/

theorem test_illFormed_raw8 : WellFormed (Config.standard 4 true) (.rawReset8 0) = false := by decide
theorem test_illFormed_raw4Three : WellFormed (Config.standard 8 true) (.rawReset4Three 0) = false := by decide
theorem test_illFormed_raw4Two : WellFormed (Config.standard 5 true) (.rawReset4Two 1) = false := by decide
theorem test_illFormed_b8 : WellFormed (Config.standard 9 true) (.busB8 true 0) = false := by decide
theorem test_illFormed_b4 : WellFormed (Config.standard 8 true) (.busB4 true 0 0) = false := by decide
theorem test_illFormed_r4 : WellFormed (Config.standard 3 true) (.busR4 0) = false := by decide
theorem test_illFormed_st : WellFormed (Config.standard 8 false) (.busSt 0) = false := by decide

/-- An ill-formed instruction is refused by its own name. -/
theorem test_refuses_foreign_format : refusalOf (exec (.busR4 0) (fresh 8 true)) =
    some (.formatNotOnInstance "BUS.R4") := by
  decide +kernel

/-! ### Hypotheses that are met -/

/-- The resting states the statements ask for: eight and four lines, with and without a Read/Write line, driven, with
`MODE` set. -/
theorem driving_resting (rw : Bool) :
    (driving 8 rw .eightBit).Resting ∧ (driving 4 rw .fourBit).Resting ∧ (driving 8 rw .unset).Resting := by
  cases rw <;> refine ⟨⟨?_, ?_, ?_, ?_, ?_, ?_, ?_, ?_, ?_, ?_, ?_⟩, ⟨?_, ?_, ?_, ?_, ?_, ?_, ?_, ?_, ?_, ?_, ?_⟩,
    ⟨?_, ?_, ?_, ?_, ?_, ?_, ?_, ?_, ?_, ?_, ?_⟩⟩ <;> decide

/-- A fresh instance of any of these line counts rests, with its direction unknown. -/
theorem fresh_resting (rw : Bool) : (fresh 8 rw).Resting ∧ (fresh 4 rw).Resting := by
  cases rw <;> refine ⟨⟨?_, ?_, ?_, ?_, ?_, ?_, ?_, ?_, ?_, ?_, ?_⟩, ⟨?_, ?_, ?_, ?_, ?_, ?_, ?_, ?_, ?_, ?_, ?_⟩⟩ <;>
    decide

theorem witness_EncodeOfDecodedLcdWord : decodeLcd (.b4 0b011010010101) = .ok (.busB4 true 0xA 0x5) := by decide

/-- Reserved tags at both ends, reserved keys at both ends, and the last legal tag and key. -/
theorem witness_ReservedEncodingsRefused :
    (∃ s : State, s.requests = [.request { op := 0xB }]) ∧ (0xB : Nat) ≤ (0xB : BitVec 4).toNat ∧
    (0xB : Nat) ≤ (0xF : BitVec 4).toNat ∧ (9 : Nat) ≤ (9 : BitVec 4).toNat ∧ (9 : Nat) ≤ (15 : BitVec 4).toNat ∧
    (0xA : BitVec 4).toNat ≤ 0xA ∧ (8 : BitVec 4).toNat ≤ 8 :=
  ⟨⟨{ fresh 8 true with requests := [.request { op := 0xB }] }, rfl⟩, by decide⟩

theorem witness_StepRunsDecodedInstruction :
    ({ fresh 8 true with requests := [.request { op := 0x3 }] } : State).requests = .request { op := 0x3 } :: [] ∧
    decode (.request { op := 0x3 }) = .ok .reset ∧ decode (.request { op := 0xB }) = .error (.reservedTag 0xB) ∧
    (fresh 8 true).requests = [] := by
  decide

theorem witness_TableWordIsNextInstruction : decodeTableWord 8 0x30 = some (.rawReset8 0) := by decide

/-- `State.reset`, with a request on the port, meets every invariant and takes a step. -/
theorem witness_StepKeepsResting :
    (driving 8 true .eightBit).Resting ∧
    (∃ t, step { driving 8 true .eightBit with requests := [.request { op := 0x0, dir := 1 }] } = .next t) ∧
    (driving 8 true .eightBit).pinD.length = (driving 8 true .eightBit).cfg.n :=
  ⟨(driving_resting true).1, ⟨_, rfl⟩, by decide⟩

/-- A block-reset trace explains the pins and shows no contention. -/
theorem witness_StepKeepsPinsExplained :
    (fresh 4 true).Explained ∧ ContentionFree (fresh 4 true).trace ∧ (fresh 4 true).Resting ∧
    (∃ t, step { fresh 4 true with requests := [.request { op := 0x2 }] } = .next t) := by
  refine ⟨?_, ?_, (fresh_resting true).2, ⟨_, rfl⟩⟩
  · intro p
    match p with
    | .e | .rs | .rw => rfl
    | .d i =>
      match i with
      | 0 | 1 | 2 | 3 => rfl
      | k + 4 => rfl
  · intro past hp hrw
    have h : past ∈ (fresh 4 true).trace.inits := (List.mem_inits _ _).mpr hp
    have hi : (fresh 4 true).trace.inits =
        [[], [.cfgOut .e false], [.cfgOut .e false, .cfgOut .rs false],
          [.cfgOut .e false, .cfgOut .rs false, .cfgOut .rw false]] := by decide
    rw [hi] at h
    simp only [List.mem_cons, List.not_mem_nil, or_false] at h
    rcases h with rfl | rfl | rfl | rfl <;> exact absurd hrw (by decide)

theorem witness_TraceAndResponsesOnlyGrow :
    ∃ t, step { fresh 4 true with requests := [.request { op := 0x3 }] } = .next t := ⟨_, rfl⟩

theorem witness_EachRequestAnsweredOnce :
    ∃ t, step { fresh 8 false with requests := [.request { op := 0x2 }, .request { op := 0x3 }] } = .next t :=
  ⟨_, rfl⟩

/-- An instruction that is no RESET, a RESET on eight, four and five lines, and a state with `MODE` set. -/
theorem witness_OnlyResetWritesMode :
    (∃ t, exec (.setDirection .driving) (fresh 8 true) = .next t) ∧ (∃ t, exec .reset (fresh 8 true) = .next t) ∧
    (∃ t, exec .reset (fresh 4 true) = .next t) ∧ (∃ t, exec .reset (fresh 5 true) = .next t) ∧
    (driving 8 true .eightBit).mode ≠ .unset :=
  ⟨⟨_, rfl⟩, ⟨_, rfl⟩, ⟨_, rfl⟩, ⟨_, rfl⟩, by decide⟩

theorem witness_DirectionWritten :
    (driving 8 true .eightBit).dir ≠ .unknown ∧ (∃ t, step (driving 8 true .eightBit) = .next t) ∧
    (∃ t, exec (.write 0 true 0) (driving 8 true .eightBit) = .next t) ∧
    (driving 8 true .eightBit).cfg.hasRw = true ∧ (∃ t, exec .read (driving 8 true .eightBit) = .next t) :=
  ⟨by decide, ⟨_, rfl⟩, ⟨_, rfl⟩, by decide, ⟨_, rfl⟩⟩

theorem witness_NoReadWriteEventsWithoutLine :
    (driving 4 false .fourBit).cfg.hasRw = false ∧ ∃ t, exec .start (driving 4 false .fourBit) = .next t :=
  ⟨by decide, ⟨_, rfl⟩⟩

theorem witness_SamplesDoNotSteer :
    Instr.write 0x41 false 37 ≠ .read ∧ (∀ w, Instr.write 0x41 false 37 ≠ .busSt w) ∧
    ∃ t, exec (.write 0x41 false 37) (driving 8 true .eightBit) = .next t :=
  ⟨by decide, by intro w; simp, ⟨_, rfl⟩⟩

theorem witness_FrameOfEveryInstruction :
    (∃ t, exec (.setDirection .released) (fresh 8 false) = .next t) ∧ (∃ t, exec .clear (driving 4 true .fourBit) = .next t) ∧
    writesMirror .reset = false ∧ (fresh 8 false).cfg.hasRw = false :=
  ⟨⟨_, rfl⟩, ⟨_, rfl⟩, rfl, rfl⟩

theorem witness_FrameOfDirection :
    (∃ t, exec (.setDirection .released) (driving 4 true .fourBit) = .next t) ∧
    (∃ t, exec (.setDirection .driving) (fresh 8 false) = .next t) ∧ (fresh 8 false).cfg.hasRw = false :=
  ⟨⟨_, rfl⟩, ⟨_, rfl⟩, rfl⟩

theorem witness_FrameOfLineWrites :
    (∃ t, exec (.putLine 1 [] false) (driving 8 false .eightBit) = .next t) ∧
    (∃ t, exec (.putLine 3 [0x58] false) (driving 8 false .eightBit) = .next t) ∧
    ∃ t, exec (.clearLine 0) (driving 8 false .eightBit) = .next t :=
  ⟨⟨_, rfl⟩, ⟨_, rfl⟩, ⟨_, rfl⟩⟩

/-- A move from Released and from Unknown, and a target that is there already. -/
theorem witness_SetDirection :
    (fresh 4 true).Resting ∧ (fresh 4 true).dir ≠ .driving ∧ (fresh 4 true).dir ≠ dirOf .released ∧
    (driving 4 true .fourBit).dir = dirOf .driving :=
  ⟨(fresh_resting true).2, by decide, by decide, by decide⟩

/-- For every statement about a resting state with `MODE` set: both modes, on both instances. -/
theorem witness_ResultsWithModeSet :
    (driving 8 true .eightBit).Resting ∧ pathOf (driving 8 true .eightBit).mode = some .single ∧
    (driving 8 true .eightBit).mode = .eightBit ∧ (driving 4 false .fourBit).Resting ∧
    pathOf (driving 4 false .fourBit).mode = some .split ∧ (driving 4 false .fourBit).mode = .fourBit ∧
    (driving 4 false .fourBit).mode ≠ .unset :=
  ⟨(driving_resting true).1, rfl, rfl, (driving_resting false).2.1, rfl, rfl, by decide⟩

/-- WriteTiming and PutLineTiming: a completed write, and lines 1 and 2. -/
theorem witness_Timing :
    (∃ t, exec (.write 0xFF false 0) (driving 8 false .eightBit) = .next t) ∧
    (∃ t, exec (.putLine 2 [] true) (driving 8 false .eightBit) = .next t) ∧ legalLine 1 = true ∧ legalLine 2 = true ∧
    legalLine 0 = false ∧ legalLine 3 = false :=
  ⟨⟨_, rfl⟩, ⟨_, rfl⟩, by decide, by decide, by decide, by decide⟩

theorem witness_ReadResult : (driving 4 true .fourBit).Resting ∧ (driving 4 true .fourBit).cfg.hasRw = true :=
  ⟨(driving_resting true).2.1, by decide⟩

/-- Eight levels and none; seven before the last one. -/
theorem witness_ReadDataBits :
    (List.replicate 8 true).length ≤ 8 ∧ ([] : List Bool).length ≤ 8 ∧ (List.replicate 7 true).length < 8 := by
  decide

theorem witness_UnsupportedOperationOnlyFromRead :
    (fresh 8 false).cfg.hasRw = false ∧
    ∃ t, exec .read (fresh 8 false) = .next t ∧
      t.responses = (fresh 8 false).responses ++ [⟨.error .unsupportedOperation, 0⟩] :=
  ⟨by decide, ⟨_, rfl, rfl⟩⟩

/-- Line counts 3, 5 and 9, `MODE` unset, a legal line, and legal line counts. -/
theorem witness_ConfigurationErrorCauses :
    (fresh 3 true).cfg.n ≠ 4 ∧ (fresh 5 true).cfg.n ≠ 4 ∧ (fresh 9 true).cfg.n ≠ 8 ∧ (fresh 8 true).mode = .unset ∧
    legalLine 2 = true ∧ (∃ t, exec .read (fresh 8 true) = .next t) ∧ (fresh 4 true).Resting ∧ (fresh 4 true).cfg.n = 4 :=
  ⟨by decide, by decide, by decide, by decide, by decide, ⟨_, rfl⟩, (fresh_resting true).2, rfl⟩

/-- Line numbers 0, 3 and 255, and a PUSH_LINE that is answered. -/
theorem witness_RangeErrorCauses :
    ((0 : Byte) ≠ 1 ∧ (0 : Byte) ≠ 2) ∧ ((3 : Byte) ≠ 1 ∧ (3 : Byte) ≠ 2) ∧ ((255 : Byte) ≠ 1 ∧ (255 : Byte) ≠ 2) ∧
    ∃ t, exec (.pushLine [0x58] false) (fresh 8 false) = .next t :=
  ⟨by decide, by decide, by decide, ⟨_, rfl⟩⟩

theorem witness_ErrorsChangeNothing :
    ∃ t, exec (.setLine 3) (driving 8 true .eightBit) = .next t ∧
      t.responses = (driving 8 true .eightBit).responses ++ [⟨.error .rangeError, 0⟩] :=
  ⟨_, rfl, rfl⟩

theorem witness_OnlyOrderingIsResetFirst :
    (fresh 8 true).mode = .unset ∧ (fresh 8 true).Resting ∧ isHostOperation .reset = true ∧
    operandsLegal (fresh 8 true).cfg .reset = true ∧ operandsLegal (fresh 8 true).cfg .read = true ∧
    (driving 8 true .eightBit).mode ≠ .unset ∧ operandsLegal (driving 8 true .eightBit).cfg (.putLine 2 [] true) = true :=
  ⟨by decide, (fresh_resting true).1, by decide, by decide, by decide, by decide, by decide⟩

/-- RESET and the LCD-side rows: fresh instances of eight and of four lines, and one with a Read/Write line. -/
theorem witness_ResetAndFormats :
    (fresh 8 false).Resting ∧ (fresh 8 false).cfg.n = 8 ∧ (fresh 4 true).Resting ∧ (fresh 4 true).cfg.n = 4 ∧
    (fresh 4 true).cfg.hasRw = true ∧ (fresh 4 true).cfg.n ≤ 8 :=
  ⟨(fresh_resting false).1, rfl, (fresh_resting true).2, rfl, rfl, by decide⟩

/-- A resting state whose trace is about its pinout, that takes a step; and a key other than DDRAM_SET. -/
theorem witness_StepStaysWithinPinSpace :
    (fresh 4 true).Resting ∧ WithinPinSpace (fresh 4 true).cfg (fresh 4 true).trace ∧
    (∃ t, step { fresh 4 true with requests := [.request { op := 0x2 }] } = .next t) ∧
    CmdKey.displayOn ≠ .ddramSet := by
  refine ⟨(fresh_resting true).2, ?_, ⟨_, rfl⟩, by decide⟩
  intro ev hev p hp
  have hmem : ev ∈ [Event.cfgOut .e false, .cfgOut .rs false, .cfgOut .rw false] := hev
  have h : ev = .cfgOut .e false ∨ ev = .cfgOut .rs false ∨ ev = .cfgOut .rw false := by simpa using hmem
  rcases h with rfl | rfl | rfl <;> cases hp
  · exact ⟨4, by decide, rfl⟩
  · exact ⟨5, by decide, rfl⟩
  · exact ⟨6, by decide, rfl⟩

/-- A format on an instance that lacks it. -/
theorem witness_OnlyForeignFormatsRefused : WellFormed (fresh 4 true).cfg (.busB8 true 0) = false := by decide

end Sys2Proof.Tests
end

/-!
PROOFS. What WRITE, SET_LINE and COMMAND put on the bus (`30_encoding.md` R79, R86): each is one write, so each step's
new write transactions are the ones its byte, level and path give.
-/
namespace Sys2Proof.Machine

/-- At rest a path goes with its line count (R31, I-e). -/
theorem lines_of_pathOf {path : Path} {s : State} (h : s.Resting) (hm : pathOf s.mode = some path) :
    (path = .single ∧ s.cfg.n = 8) ∨ (path = .split ∧ s.cfg.n = 4) := by
  cases hs : s.mode with
  | unset => simp [hs, pathOf] at hm
  | eightBit => exact .inl ⟨by simpa [hs, pathOf] using hm.symm, h.eightLines hs⟩
  | fourBit => exact .inr ⟨by simpa [hs, pathOf] using hm.symm, h.fourLines hs⟩

/-- The write transactions of a step that is one write (R113). -/
theorem newWrites_afterWrite {path : Path} {s : State} (h : s.Resting) (hm : pathOf s.mode = some path) (v : Byte)
    (c : Bool) (t : Nat) :
    newWrites s (respond .ok 0 (afterWrite v c t path s)) = sentTransactions s.cfg.n path (v, c, t) := by
  have hl := lines_of_pathOf h hm
  have hs := sends_write (cfg := s.cfg) (path := path) (by tauto) (by tauto) s.dir (v, c, t) s.nextLevels
  exact newWrites_eq h rfl hs

/-- The time of a write only shows in the delay after it. -/
theorem sentTransactions_fst (n : Nat) (path : Path) (v : Byte) (c : Bool) (t u : Nat) :
    (sentTransactions n path (v, c, t)).map Prod.fst = (sentTransactions n path (v, c, u)).map Prod.fst := by
  cases path <;> rfl

/-- The transactions of a write all carry its level of RS (R54). -/
theorem sentTransactions_rs (n : Nat) (path : Path) (v : Byte) (c : Bool) (t : Nat) :
    ∀ p ∈ sentTransactions n path (v, c, t), p.1.rs = !c := by
  cases path <;> simp [sentTransactions]

/-- The values of a write's transactions, joined in bus order, are its byte, on the line count of its path (R76, R77). -/
theorem sentTransactions_value {n : Nat} {path : Path} (hn : (path = .single ∧ n = 8) ∨ (path = .split ∧ n = 4))
    (v : Byte) (c : Bool) (t : Nat) :
    (sentTransactions n path (v, c, t)).foldl (fun byte p => byte * 2 ^ p.1.width + p.1.value) 0 = v.toNat := by
  have hv := v.isLt
  obtain ⟨rfl, rfl⟩ | ⟨rfl, rfl⟩ := hn <;> simp only [sentTransactions, List.foldl_cons, List.foldl_nil]
  · omega
  · omega

/-- WRITE with `MODE` set (R110, R115). -/
theorem exec_write_eq {path : Path} {s : State} (h : s.Resting) (hm : pathOf s.mode = some path) (v : Byte) (c : Bool)
    (n : Micros) : exec (.write v c n) s = .next (respond .ok 0 (afterWrite v c n.toNat path s)) :=
  congrArg finish (writeByte_eq h hm v c n.toNat)

/-- COMMAND with `MODE` set (R140). -/
theorem exec_command_eq {path : Path} {s : State} (h : s.Resting) (hm : pathOf s.mode = some path) (k : CmdKey) :
    exec (.command k) s = .next (respond .ok 0
      (afterWrite (tableEntry s.cfg.table k).value true (tableEntry s.cfg.table k).timeUs path s)) :=
  congrArg finish (issueEntry_eq h hm k)

/-- SET_LINE with `MODE` set, on a line that has a row (R143). -/
theorem exec_setLine_eq {path : Path} {s : State} {line : Byte} {address : BitVec 7} (h : s.Resting)
    (hm : pathOf s.mode = some path) (hl : rowStart line = some address) :
    exec (.setLine line) s = .next (respond .ok 0 (afterSetAddress path address s)) := by
  have hs : setLine line s = .ok (afterSetAddress path address s) := by
    rw [setLine, hl]
    exact setAddress_eq h hm address
  exact congrArg finish hs

/-- SET_LINE sends the byte `0x80 | ROW_START[line]` as one command (R79). -/
theorem setLine_sends {path : Path} {s : State} {line : Byte} {address : BitVec 7} (h : s.Resting)
    (hm : pathOf s.mode = some path) (hl : rowStart line = some address) :
    ∃ t, exec (.setLine line) s = .next t ∧ (newWrites s t).map Prod.fst =
      (sentTransactions s.cfg.n path (0x80 ||| address.setWidth 8, true, 0)).map Prod.fst := by
  refine ⟨_, exec_setLine_eq h hm hl, ?_⟩
  rw [afterSetAddress, newWrites_afterWrite h hm]
  exact sentTransactions_fst ..

/-- COMMAND sends its entry's value as one command, DDRAM_SET's like any other (R140). -/
theorem command_sends {path : Path} {s : State} (h : s.Resting) (hm : pathOf s.mode = some path) (k : CmdKey) :
    ∃ t, exec (.command k) s = .next t ∧ (newWrites s t).map Prod.fst =
      (sentTransactions s.cfg.n path ((tableEntry s.cfg.table k).value, true, 0)).map Prod.fst := by
  refine ⟨_, exec_command_eq h hm k, ?_⟩
  rw [newWrites_afterWrite h hm]
  exact sentTransactions_fst ..

/-- Settles O27: WRITE ends in `afterWrite`, whose transactions carry the byte and the level of RS on either path. -/
theorem anyByteReachesTheBus : Obligations.AnyByteReachesTheBus := by
  intro s v c n h hmode
  obtain ⟨path, hm⟩ := exists_path hmode
  refine ⟨_, exec_write_eq h hm v c n, rfl, rfl, ?_, ?_⟩ <;> rw [newWrites_afterWrite h hm]
  · exact sentTransactions_value (lines_of_pathOf h hm) v c n.toNat
  · exact sentTransactions_rs s.cfg.n path v c n.toNat

/-- Settles O43: the row starts are 0x00 and 0x40, and SET_LINE and COMMAND are each one write. -/
theorem setLineByte : Obligations.SetLineByte := fun _ _ h hm =>
  ⟨setLine_sends (address := 0x00) h hm rfl, setLine_sends (address := 0x40) h hm rfl, fun _ => rfl,
    fun k _ => command_sends h hm k⟩

end Sys2Proof.Machine

/-!
PROOFS. SET_DIRECTION (`40_direction.md` R101, R103): it completes from every resting state with the events of
`directionEvents`, which are none when `DIR` has the target already and otherwise configure each data line once.
-/
namespace Sys2Proof.Machine

/-- SET_DIRECTION to the direction already held, at rest or not (R103). -/
theorem exec_setDirection_held {d : Direction} {s : State} (h : s.dir = dirOf d) :
    exec (.setDirection d) s = .next (respond .ok 0 s) :=
  congrArg finish (if_pos h)

/-- SET_DIRECTION completes from rest: it has the direction, and its new events are those of `directionEvents`. -/
theorem exec_setDirection_completes (d : Direction) {s : State} (h : s.Resting) :
    ∃ t, exec (.setDirection d) s = .next t ∧ t.dir = dirOf d ∧
      t.trace = s.trace ++ directionEvents s.cfg s.dir d := by
  cases d with
  | driving =>
    obtain ⟨pins, hs, -⟩ := setDirection_driving h
    exact ⟨_, congrArg finish hs, rfl, rfl⟩
  | released => exact ⟨_, congrArg finish (setDirection_released h), rfl, rfl⟩

/-- A move to Driving (R101). -/
theorem directionEvents_driving {dir : Dir} (cfg : Config) (h : dir ≠ .driving) :
    directionEvents cfg dir .driving = driveMoveEvents cfg :=
  if_neg h

/-- A move to Released (R102). -/
theorem directionEvents_released {dir : Dir} (cfg : Config) (h : dir ≠ .released) :
    directionEvents cfg dir .released = releaseMoveEvents cfg :=
  if_neg h

/-- A loop over the lines `0` to `n - 1` in which only the event of line `i` configures `D[i]` configures it once. -/
theorem countP_configures_loop {n i : Nat} (hi : i < n) {f : Nat → Event}
    (hf : ∀ j, configures (.d i) (f j) = (j == i)) :
    ((List.range n).map f).countP (configures (.d i)) = 1 := by
  have hc : configures (.d i) ∘ f = (· == i) := funext hf
  rw [List.countP_map, hc]
  exact List.count_eq_one_of_mem List.nodup_range (List.mem_range.mpr hi)

/-- A change of direction configures each data line once (R101, R102). -/
theorem directionEvents_countP_configures {cfg : Config} {dir : Dir} {d : Direction} (hd : dir ≠ dirOf d) {i : Nat}
    (hi : i < cfg.n) : (directionEvents cfg dir d).countP (configures (.d i)) = 1 := by
  have hset (v : Bool) : (if cfg.hasRw then [Event.set .rw v] else []).countP (configures (.d i)) = 0 := by
    cases cfg.hasRw <;> rfl
  have hpin (j : Nat) : (Pin.d j == .d i) = (j == i) := by
    rw [Bool.eq_iff_iff, beq_iff_eq, beq_iff_eq, Pin.d.injEq]
  cases d with
  | driving =>
    have hloop := countP_configures_loop hi (f := fun j => .cfgOut (.d j) false) hpin
    rw [directionEvents_driving cfg hd, driveMoveEvents, List.countP_append, hset, hloop]
  | released =>
    have hloop := countP_configures_loop hi (f := fun j => .cfgIn (.d j) (releasedPull cfg)) hpin
    rw [directionEvents_released cfg hd, releaseMoveEvents, List.countP_append, hset, hloop]

/-- Settles O22: the move's events are RW low first and then one `CfgOut` for each line, and every line ends at 0. -/
theorem moveToDrivingAssertsWriteModeFirst : Obligations.MoveToDrivingAssertsWriteModeFirst := by
  intro s h hd
  obtain ⟨pins, hs, -, -, hpins, -⟩ := setDirection_driving h
  refine ⟨_, _, congrArg finish hs, ?_, List.Perm.refl _, ?_⟩
  · rw [respond_trace, directionEvents_driving s.cfg hd, driveMoveEvents, List.append_assoc]
  · intro i hi
    simp [hpins hd, uniformPins, hi]

/-- Settles O23: the first call takes the direction and configures each line once, the second finds it held. -/
theorem setDirectionIsIdempotent : Obligations.SetDirectionIsIdempotent := by
  refine fun d s => ⟨exec_setDirection_held, fun h => ?_⟩
  obtain ⟨t, ht, hdir, htrace⟩ := exec_setDirection_completes d h
  refine ⟨t, ht, exec_setDirection_held hdir, fun hd i hi => ?_⟩
  rw [newEvents, respond_trace, htrace, List.drop_left]
  exact directionEvents_countP_configures hd hi

end Sys2Proof.Machine

/-!
PROOFS. The shape of one write on the bus (`41_transfer.md` R113): from rest `writeCore` ends in `afterWrite`, whose events
are a lead-in, the pulse of E around the byte, and a tail that leaves RS alone.
-/
namespace Sys2Proof.Machine

/-- A write is a lead-in (status read and direction), RS and the rising E, the byte, the falling E after its hold, and
a tail without RS (R111 steps 1 to 7). -/
theorem writeEvents_decompose (cfg : Config) (dir : Dir) (path : Path) (v : Byte) (c : Bool) (t : Nat)
    (levels : List Bool) : ∃ before after, writeEvents cfg dir path v c t levels =
      before ++ [.set .rs (!c), .set .e true] ++ byteEvents cfg.n path v ++ [.delay 1, .set .e false] ++ after ∧
      ∀ ev ∈ after, eventPin ev ≠ some .rs := by
  cases hr : cfg.hasRw with
  | false =>
    refine ⟨directionEvents cfg dir .driving, [.delay (1 + t)], ?_, by simp [eventPin]⟩
    simp [writeEvents, transferEvents, hr]
  | true =>
    refine ⟨readEvents cfg dir levels ++ [.set .rw false] ++ directionEvents cfg .released .driving,
      [.set .rw false, .delay (1 + t)], ?_, by simp [eventPin]⟩
    simp [writeEvents, transferEvents, hr]

/-- From rest `WRITE_CORE` completes on either path, whatever `MODE` is, with the transactions of its byte and with its
events in the order of R111. -/
theorem writeCore_transactions {path : Path} {s : State} (h : s.Resting) (hn : path = .single ∨ s.cfg.n = 4)
    (h8 : s.cfg.n = 4 ∨ s.cfg.n = 8) (v : Byte) (c : Bool) (t : Nat) :
    ∃ (u : State) (before after : List Event), writeCore v c t path s = .ok u ∧
      newWrites s u = sentTransactions s.cfg.n path (v, c, t) ∧
      newEvents s u = before ++ [.set .rs (!c), .set .e true] ++ byteEvents s.cfg.n path v
        ++ [.delay 1, .set .e false] ++ after ∧
      ∀ ev ∈ after, eventPin ev ≠ some .rs := by
  obtain ⟨before, after, hevents, hafter⟩ := writeEvents_decompose s.cfg s.dir path v c t s.nextLevels
  have hsplit : path = .split → s.cfg.n = 4 := by
    rintro rfl
    simpa using hn
  have hnew : newEvents s (afterWrite v c t path s) = writeEvents s.cfg s.dir path v c t s.nextLevels :=
    List.drop_left
  exact ⟨_, before, after, writeCore_eq h hsplit v c t, newWrites_eq h rfl (sends_write hn h8 s.dir (v, c, t) _),
    hnew.trans hevents, hafter⟩

/-- WRITE runs `WRITE_CORE` on the path of `MODE`, at rest or not (R110). -/
theorem exec_write_path {path : Path} {s : State} (hm : pathOf s.mode = some path) (v : Byte) (c : Bool) (n : Micros) :
    exec (.write v c n) s = finish (writeCore v c n.toNat path s) := by
  have hw : writeByte v c n.toNat s = writeCore v c n.toNat path s := by
    cases hs : s.mode with
    | unset => simp [hs, pathOf] at hm
    | eightBit =>
      obtain rfl : .single = path := by simpa [hs, pathOf] using hm
      rw [writeByte, hs]
    | fourBit =>
      obtain rfl : .split = path := by simpa [hs, pathOf] using hm
      rw [writeByte, hs]
  exact congrArg finish hw

/-- Settles O26: each path's transactions and events are those of `WRITE_CORE`, with the lines in ascending order. -/
theorem writeTransactions : Obligations.WriteTransactions := by
  refine ⟨fun s v c n h h8 => ?_, fun s v c n h h4 => ?_, fun _ _ v c n hm => exec_write_path hm v c n⟩
  · obtain ⟨t, before, after, hok, hwrites, hevents, hafter⟩ := writeCore_transactions h (.inl rfl) h8 v c n
    exact ⟨t, before, _, after, hok, hwrites, hevents, .refl _, hafter⟩
  · obtain ⟨t, before, after, hok, hwrites, hevents, hafter⟩ := writeCore_transactions h (.inr h4) (.inl h4) v c n
    refine ⟨t, before, _, _, after, hok, hwrites, ?_, .refl _, .refl _, hafter⟩
    simpa only [byteEvents, List.append_assoc] using hevents

end Sys2Proof.Machine

/-!
PROOFS. RESET on the bus (`42_mode_reset.md` R133, R135): it is runs of writes, so its transactions are put together
from those of the runs, and the table entry of DISPLAY_ON goes through it unread.
-/
namespace Sys2Proof.Machine

/-- From one state to another with the same parameters exactly these write transactions go out. -/
structure Puts (s t : State) (sent : List (Transaction × Nat)) : Prop where
  cfg : t.cfg = s.cfg
  events : ∃ evs, t.trace = s.trace ++ evs ∧ Sends s.cfg evs sent

theorem Puts.trans {s t u : State} {a b : List (Transaction × Nat)} (h : Puts s t a) (k : Puts t u b) :
    Puts s u (a ++ b) := by
  obtain ⟨hcfg, xs, hx, sx⟩ := h
  obtain ⟨kcfg, ys, hy, sy⟩ := k
  rw [hcfg] at sy
  exact ⟨kcfg.trans hcfg, xs ++ ys, by rw [hy, hx, List.append_assoc], sx.append sy⟩

/-- `MODE` is not on the bus. -/
theorem Puts.setMode {s t : State} {sent : List (Transaction × Nat)} (h : Puts s t sent) (m : Mode) :
    Puts s (setMode m t) sent :=
  ⟨h.cfg, h.events⟩

/-- A run of writes puts its transactions on the bus (R64). -/
theorem puts_writes {path : Path} {s : State} (hn : path = .single ∨ s.cfg.n = 4) (h8 : s.cfg.n = 4 ∨ s.cfg.n = 8)
    (sent : List Sent) : Puts s (afterWrites path sent s) (sent.flatMap (sentTransactions s.cfg.n path)) :=
  ⟨afterWrites_cfg path sent s, sends_writes hn h8 sent⟩

/-- The write transactions of a step that answers in a state `Puts` leads to. -/
theorem Puts.newWrites_respond {s t : State} {sent : List (Transaction × Nat)} (hp : Puts s t sent) (h : s.Resting)
    (st : Status) (d : Byte) : newWrites s (respond st d t) = sent := by
  obtain ⟨-, evs, he, hs⟩ := hp
  exact newWrites_eq h he hs

/-- What RESET sends on eight lines before its suffix (R132). -/
def prefixSends8 (t : CmdTable) : List Sent :=
  [(0x30, true, 4100), (0x30, true, 100), (0x30, true, 100), sentEntry t .funcsel8Bit]

/-- The nibbles RESET sends first on four lines (R133). -/
def nibbleSends : List Sent := [(0x3, true, 4100), (0x3, true, 100), (0x2, true, 100), (0x2, true, 100)]

/-- What RESET sends last, on either line count (R135). -/
def suffixSends (t : CmdTable) : List Sent :=
  [sentEntry t .displayOff, sentEntry t .displayClear, sentEntry t .modeAutoinc]

/-- The state in which RESET begins its suffix on eight lines (R132, R136). -/
def afterPrefix8 (s : State) : State := setMode .eightBit (afterWrites .single (prefixSends8 s.cfg.table) s)

/-- The state in which RESET begins its suffix on four lines (R133, R134, R136). -/
def afterPrefix4 (s : State) : State :=
  setMode .fourBit (afterWrites s.cfg.funcsel4Path [sentEntry s.cfg.table .funcsel4Bit]
    (afterWrites .single nibbleSends s))

theorem afterReset8_eq (s : State) : afterReset8 s = afterResetSuffix .single (afterPrefix8 s) := rfl

theorem afterReset4_eq (s : State) : afterReset4 s = afterResetSuffix .split (afterPrefix4 s) := rfl

/-- Between the nibbles and the suffix FUNCSEL_4BIT goes out, by the parameter's path (R134). -/
theorem puts_prefix4_rest {s : State} (hn : s.cfg.n = 4) :
    Puts (afterWrites .single nibbleSends s) (afterPrefix4 s)
      ([sentEntry s.cfg.table .funcsel4Bit].flatMap (sentTransactions s.cfg.n s.cfg.funcsel4Path)) :=
  (puts_writes (s := afterWrites .single nibbleSends s) (.inr hn) (.inl hn) _).setMode .fourBit

/-- The suffix adds its three entries to what went out before it (R135). -/
theorem Puts.resetSuffix {path : Path} {s t : State} {sent : List (Transaction × Nat)} (h : Puts s t sent)
    (hn : path = .single ∨ t.cfg.n = 4) (h8 : t.cfg.n = 4 ∨ t.cfg.n = 8) :
    Puts s (afterResetSuffix path t) (sent ++ (suffixSends t.cfg.table).flatMap (sentTransactions t.cfg.n path)) :=
  h.trans (puts_writes hn h8 (suffixSends t.cfg.table))

/-- RESET on eight lines: the raw patterns and FUNCSEL_8BIT, then the suffix (R132, R135). -/
theorem puts_reset8 {s : State} (hn : s.cfg.n = 8) :
    Puts s (afterReset8 s) ((prefixSends8 s.cfg.table).flatMap (sentTransactions s.cfg.n .single) ++
      (suffixSends s.cfg.table).flatMap (sentTransactions s.cfg.n .single)) := by
  have hprefix : Puts s (afterPrefix8 s) _ := (puts_writes (.inl rfl) (.inr hn) _).setMode .eightBit
  exact hprefix.resetSuffix (.inl rfl) (.inr hn)

/-- RESET on four lines after the nibbles: FUNCSEL_4BIT, then the suffix (R134, R135). -/
theorem puts_reset4_rest {s : State} (hn : s.cfg.n = 4) :
    Puts (afterWrites .single nibbleSends s) (afterReset4 s)
      ([sentEntry s.cfg.table .funcsel4Bit].flatMap (sentTransactions s.cfg.n s.cfg.funcsel4Path) ++
      (suffixSends s.cfg.table).flatMap (sentTransactions s.cfg.n .split)) :=
  (puts_prefix4_rest hn).resetSuffix (.inr hn) (.inl hn)

/-- RESET on four lines: the nibbles, then the rest (R133). -/
theorem puts_reset4 {s : State} (hn : s.cfg.n = 4) :
    Puts s (afterReset4 s) (nibbleSends.flatMap (sentTransactions s.cfg.n .single) ++
      ([sentEntry s.cfg.table .funcsel4Bit].flatMap (sentTransactions s.cfg.n s.cfg.funcsel4Path) ++
      (suffixSends s.cfg.table).flatMap (sentTransactions s.cfg.n .split))) :=
  (puts_writes (.inl rfl) (.inl hn) nibbleSends).trans (puts_reset4_rest hn)

/-- RESET at the port, on eight lines (R130). -/
theorem exec_reset_eight {s : State} (h : s.Resting) (hn : s.cfg.n = 8) :
    exec .reset s = .next (respond .ok 0 (afterReset8 s)) :=
  congrArg finish (resetDisplay_eight h hn).1

/-- RESET at the port, on four lines (R130). -/
theorem exec_reset_four {s : State} (h : s.Resting) (hn : s.cfg.n = 4) :
    exec .reset s = .next (respond .ok 0 (afterReset4 s)) :=
  congrArg finish (resetDisplay_four h hn).1

/-- The state with another entry for DISPLAY_ON in its Command Table. -/
def withDisplayOn (on : CmdEntry) (s : State) : State :=
  { s with cfg := { s.cfg with table := { s.cfg.table with displayOn := on } } }

theorem withDisplayOn_resting {s : State} (h : s.Resting) (on : CmdEntry) : (withDisplayOn on s).Resting := by
  obtain ⟨h1, h2, h3, h4, h5, h6, h7, h8, h9, h10, h11⟩ := h
  exact ⟨h1, h2, h3, h4, h5, h6, h7, h8, h9, h10, h11⟩

/-- A write does not read the Command Table. -/
theorem afterWrites_withDisplayOn (on : CmdEntry) (path : Path) (sent : List Sent) (s : State) :
    afterWrites path sent (withDisplayOn on s) = withDisplayOn on (afterWrites path sent s) := by
  induction sent generalizing s with
  | nil => rfl
  | cons w rest ih => exact ih (afterWrite w.1 w.2.1 w.2.2 path s)

/-- The suffix of RESET sends three entries of the table, none of them DISPLAY_ON (R135). -/
theorem afterResetSuffix_withDisplayOn (on : CmdEntry) (path : Path) (s : State) :
    afterResetSuffix path (withDisplayOn on s) = withDisplayOn on (afterResetSuffix path s) :=
  afterWrites_withDisplayOn on path (suffixSends s.cfg.table) s

theorem afterPrefix8_withDisplayOn (on : CmdEntry) (s : State) :
    afterPrefix8 (withDisplayOn on s) = withDisplayOn on (afterPrefix8 s) :=
  congrArg (setMode .eightBit) (afterWrites_withDisplayOn on .single (prefixSends8 s.cfg.table) s)

theorem afterPrefix4_withDisplayOn (on : CmdEntry) (s : State) :
    afterPrefix4 (withDisplayOn on s) = withDisplayOn on (afterPrefix4 s) := by
  have hnibbles := afterWrites_withDisplayOn on .single nibbleSends s
  have hfuncsel := afterWrites_withDisplayOn on s.cfg.funcsel4Path [sentEntry s.cfg.table .funcsel4Bit]
    (afterWrites .single nibbleSends s)
  rw [← hnibbles] at hfuncsel
  exact congrArg (setMode .fourBit) hfuncsel

/-- RESET on eight lines does not read the entry of DISPLAY_ON (R135). -/
theorem afterReset8_withDisplayOn (on : CmdEntry) (s : State) :
    afterReset8 (withDisplayOn on s) = withDisplayOn on (afterReset8 s) := by
  rw [afterReset8_eq, afterPrefix8_withDisplayOn, afterResetSuffix_withDisplayOn, afterReset8_eq]

/-- RESET on four lines does not read the entry of DISPLAY_ON (R135). -/
theorem afterReset4_withDisplayOn (on : CmdEntry) (s : State) :
    afterReset4 (withDisplayOn on s) = withDisplayOn on (afterReset4 s) := by
  rw [afterReset4_eq, afterPrefix4_withDisplayOn, afterResetSuffix_withDisplayOn, afterReset4_eq]

/-- Settles O38: on either line count the suffix is the last run of writes, and another entry for DISPLAY_ON goes
through RESET unread. The theorem stands under `ModeReset` since `resetSuffix` is the model's own procedure. -/
theorem ModeReset.resetSuffix : Obligations.ResetSuffix := by
  rintro s path h (⟨hn, rfl⟩ | ⟨hn, rfl⟩)
  · refine ⟨_, _, exec_reset_eight h hn, congrArg pathOf (afterWrites_mode ..),
      (puts_reset8 hn).newWrites_respond h _ _, fun on => ⟨_, exec_reset_eight (withDisplayOn_resting h on) hn, ?_⟩⟩
    exact (congrArg State.trace (afterReset8_withDisplayOn on s) :)
  · refine ⟨_, _, exec_reset_four h hn, congrArg pathOf (afterWrites_mode ..),
      (puts_reset4 hn).newWrites_respond h _ _ |>.trans (List.append_assoc ..).symm,
      fun on => ⟨_, exec_reset_four (withDisplayOn_resting h on) hn, ?_⟩⟩
    exact (congrArg State.trace (afterReset4_withDisplayOn on s) :)

end Sys2Proof.Machine

/-!
PROOFS. The four nibbles of RESET (`42_mode_reset.md` R133): each is a full write, so with a Read/Write line a status
read stands before the transaction of each.
-/
namespace Sys2Proof.Machine

/-- Transactions but for their values and delays: the levels of RW and RS, and the width. -/
def shapes (ts : List (Transaction × Nat)) : List (Bool × Bool × Nat) := ts.map fun p => (p.1.rw, p.1.rs, p.1.width)

theorem shapes_append (xs ys : List (Transaction × Nat)) : shapes (xs ++ ys) = shapes xs ++ shapes ys :=
  List.map_append

/-- A delay is no part of a shape, so a list of events can be cut anywhere. -/
theorem shapes_transactions_append (b : BusView) (xs ys : List Event) :
    shapes (transactions b (xs ++ ys)) = shapes (transactions b xs) ++ shapes (transactions (viewThrough b xs) ys) := by
  have hfst := congrArg (List.map fun t : Transaction => (t.rw, t.rs, t.width)) (transactions_append_fst b xs ys)
  simpa [shapes, Function.comp_def] using hfst

/-- The shapes of one write with a Read/Write line: its status read, then its own transactions (R112). -/
def writeShapes (n : Nat) (path : Path) (w : Sent) : List (Bool × Bool × Nat) :=
  (true, false, n) :: shapes (sentTransactions n path w)

theorem shapes_write {cfg : Config} {path : Path} {levels : List Bool} (hr : cfg.hasRw = true)
    (hn : path = .single ∨ cfg.n = 4) (h8 : cfg.n = 4 ∨ cfg.n = 8) (hl : levels.length = cfg.n) (dir : Dir) (w : Sent)
    (b : BusView) : shapes (transactions b (writeEvents cfg dir path w.1 w.2.1 w.2.2 levels)) =
      writeShapes cfg.n path w := by
  rw [transactions_write w.1 w.2.1 w.2.2 levels hn h8 (by simp [hr]), if_pos hr, shapes_append, writeShapes]
  simp [shapes, hl]

/-- A run of writes with a Read/Write line has a status read before each (R112). -/
theorem shapes_writes {path : Path} {s : State} (hr : s.cfg.hasRw = true) (hn : path = .single ∨ s.cfg.n = 4)
    (h8 : s.cfg.n = 4 ∨ s.cfg.n = 8) (sent : List Sent) :
    ∃ evs, (afterWrites path sent s).trace = s.trace ++ evs ∧
      ∀ b, shapes (transactions b evs) = sent.flatMap (writeShapes s.cfg.n path) := by
  induction sent generalizing s with
  | nil => exact ⟨[], (List.append_nil _).symm, fun _ => rfl⟩
  | cons w rest ih =>
    obtain ⟨evs, he, hs⟩ := ih (s := afterWrite w.1 w.2.1 w.2.2 path s) hr hn h8
    have hl : s.nextLevels.length = s.cfg.n := answers_length ..
    refine ⟨writeEvents s.cfg s.dir path w.1 w.2.1 w.2.2 s.nextLevels ++ evs, ?_, fun b => ?_⟩
    · rw [← List.append_assoc]
      exact he
    · rw [shapes_transactions_append, shapes_write hr hn h8 hl, hs, List.flatMap_cons]
      rfl

/-- The transactions of a RESET on four lines begin with those of its nibbles, a status read before each (R133). -/
theorem shapes_reset4 {s : State} (hr : s.cfg.hasRw = true) (hn : s.cfg.n = 4) :
    ∃ more, shapes (newTransactions s (respond .ok 0 (afterReset4 s))) =
      nibbleSends.flatMap (writeShapes 4 .single) ++ more := by
  obtain ⟨xs, hx, hshapes⟩ := shapes_writes (path := .single) hr (.inl rfl) (.inl hn) nibbleSends
  obtain ⟨-, ys, hy, -⟩ := puts_reset4_rest hn
  have hnew : newEvents s (respond .ok 0 (afterReset4 s)) = xs ++ ys := by
    rw [newEvents, respond_trace, hy, hx, List.append_assoc, List.drop_left]
  rw [newTransactions, hnew, shapes_transactions_append, hshapes, hn]
  exact ⟨_, rfl⟩

/-- Settles O37: RESET begins with the run of the nibbles on the single path, each write of it after its status read. -/
theorem fourLinePrefix : Obligations.FourLinePrefix := by
  intro s h hn
  have hsent : nibbleSends.flatMap (sentTransactions s.cfg.n .single) = [(⟨false, false, 4, 3⟩, 4101),
      (⟨false, false, 4, 3⟩, 101), (⟨false, false, 4, 2⟩, 101), (⟨false, false, 4, 2⟩, 101)] := by
    rw [hn]
    rfl
  refine ⟨_, _, exec_reset_four h hn, hsent ▸ (puts_reset4 hn).newWrites_respond h _ _, fun hr => ?_⟩
  obtain ⟨more, hmore⟩ := shapes_reset4 hr hn
  rw [List.map_take]
  exact congrArg (List.take 8) hmore

end Sys2Proof.Machine

/-!
PROOFS. START, CLEAR_LINE and PUSH_LINE (`43_command_surface.md` R141, R145, R146). Each is a sequence of commands and
line writes, so each agrees with the same operations run one by one but for the responses, which no write reads; before
RESET each fails in its first command.
-/
namespace Sys2Proof.Machine

/-! ### Which errors a procedure can raise -/

/-- A procedure does not end by raising this error; a fault or another error may end it. -/
def NeverRaises {α : Type} (e : Error) : Result α → Prop
  | .ok _ => True
  | .error (.raise e' _) => e' ≠ e
  | .error (.fault _) => True

theorem NeverRaises.ok {α : Type} (e : Error) (a : α) : NeverRaises e (.ok a) := trivial

/-- A sequence raises no error that neither of its steps raises (R150). -/
theorem NeverRaises.bind {α β : Type} {e : Error} {r : Result α} {f : α → Result β} (h : NeverRaises e r)
    (k : ∀ a, NeverRaises e (f a)) : NeverRaises e (r >>= f) := by
  rcases r with (⟨e', t⟩ | g) | a
  · exact h
  · trivial
  · exact k a

section
variable (e : Error)

/-- `PinSet` faults but raises nothing, so neither does a procedure made of pin events (R7, U13). -/
theorem pinSet_neverRaises (p : Pin) (v : Bool) (s : State) : NeverRaises e (pinSet p v s) := by
  unfold pinSet
  split <;> trivial

theorem driveLines_neverRaises (level : Nat → Bool) (is : List Nat) (s : State) :
    NeverRaises e (driveLines level is s) := by
  induction is generalizing s with
  | nil => exact .ok e s
  | cons i is ih => exact (pinSet_neverRaises e (.d i) _ s).bind fun t => ih t

theorem setReadWrite_neverRaises (v : Bool) (s : State) : NeverRaises e (setReadWrite v s) := by
  unfold setReadWrite
  split
  · exact pinSet_neverRaises e .rw v s
  · exact .ok e s

theorem setDirection_neverRaises (target : Direction) (s : State) : NeverRaises e (setDirection target s) := by
  unfold setDirection
  split
  · exact .ok e s
  · cases target with
    | driving => exact (setReadWrite_neverRaises e false s).bind fun _ => .ok e _
    | released => exact (setReadWrite_neverRaises e true _).bind fun _ => .ok e _

theorem readCore_neverRaises (s : State) : NeverRaises e (readCore s) :=
  (setDirection_neverRaises e .released s).bind fun t =>
    (pinSet_neverRaises e .rw true t).bind fun t =>
    (pinSet_neverRaises e .rs false t).bind fun t =>
    (pinSet_neverRaises e .e true t).bind fun _ =>
    (pinSet_neverRaises e .e false _).bind fun _ => .ok e _

theorem busyCheck_neverRaises (s : State) : NeverRaises e (busyCheck s) := by
  unfold busyCheck
  split
  · exact (readCore_neverRaises e s).bind fun a => pinSet_neverRaises e .rw false a.2
  · exact .ok e s

theorem driveByte_neverRaises (path : Path) (v : Byte) (s : State) : NeverRaises e (driveByte path v s) := by
  cases path with
  | single => exact driveLines_neverRaises e _ _ s
  | split =>
    exact (driveLines_neverRaises e _ _ s).bind fun _ =>
      (pinSet_neverRaises e .e false _).bind fun _ =>
      (pinSet_neverRaises e .e true _).bind fun t => driveLines_neverRaises e _ _ t

theorem transferByte_neverRaises (path : Path) (v : Byte) (rs : Bool) (s : State) :
    NeverRaises e (transferByte path v rs s) :=
  (setDirection_neverRaises e .driving s).bind fun t =>
    (pinSet_neverRaises e .rs rs t).bind fun t =>
    (pinSet_neverRaises e .e true t).bind fun t =>
    (driveByte_neverRaises e path v t).bind fun _ =>
    (pinSet_neverRaises e .e false _).bind fun t => setReadWrite_neverRaises e false t

theorem writeCore_neverRaises (v : Byte) (c : Bool) (t : Nat) (path : Path) (s : State) :
    NeverRaises e (writeCore v c t path s) :=
  (busyCheck_neverRaises e s).bind fun u =>
    (transferByte_neverRaises e path v _ u).bind fun _ => .ok e _

end

section
variable {e : Error} (he : e ≠ .configurationError)
include he

/-- The one error of a write is that of an unset `MODE` (R114). -/
theorem writeByte_neverRaises (v : Byte) (c : Bool) (t : Nat) (s : State) : NeverRaises e (writeByte v c t s) := by
  unfold writeByte
  split
  · exact he.symm
  · exact writeCore_neverRaises e v c t .single s
  · exact writeCore_neverRaises e v c t .split s

theorem writeText_neverRaises (typing : Bool) (text : List Byte) (s : State) :
    NeverRaises e (writeText typing text s) := by
  induction text generalizing s with
  | nil => exact .ok e s
  | cons c rest ih => exact (writeByte_neverRaises he c false _ s).bind fun _ => ih _

/-- A line that has a row adds no error to those of its writes (R143). -/
theorem putLine_neverRaises {line : Byte} {address : BitVec 7} (hl : rowStart line = some address) (text : List Byte)
    (typing : Bool) (s : State) : NeverRaises e (putLine line text typing s) := by
  have hset : setLine line s = setAddress address s := by rw [setLine, hl]
  rw [putLine, hset]
  exact (writeByte_neverRaises he _ true _ s).bind fun _ => writeText_neverRaises he typing text _

theorem pushLine_neverRaises (text : List Byte) (typing : Bool) (s : State) : NeverRaises e (pushLine text typing s) :=
  (putLine_neverRaises he (line := 1) rfl blankRow false s).bind fun a =>
    (putLine_neverRaises he (line := 1) rfl a.row2 false a).bind fun b =>
    (putLine_neverRaises he (line := 2) rfl blankRow false b).bind fun c =>
    (putLine_neverRaises he (line := 2) rfl text typing c).bind fun _ => .ok e _

end

/-- The port does not answer with an error the operation does not raise (R75, R166). -/
theorem finish_responses_ne {e : Error} {r : Result State} (h : NeverRaises e r) {t : State} (ht : finish r = .next t)
    (past : List Response) (d : Byte) : t.responses ≠ past ++ [⟨.error e, d⟩] := by
  rcases r with (⟨e', u⟩ | g) | u <;> cases ht <;> intro heq
  · have hlast := List.append_inj_right' heq rfl
    cases hlast
    exact h rfl
  · have hlast := List.append_inj_right' heq rfl
    cases hlast

/-! ### Before RESET -/

/-- An error taken in the state the operation was asked in is its answer, and no event goes with it (R166). -/
theorem answersError_of_takeError {e : Error} {i : Instr} {s : State} (h : exec i s = .next (takeError e s)) :
    AnswersError e i s ∧ ∀ t, exec i s = .next t → t.trace = s.trace := by
  refine ⟨⟨_, 0, h, rfl⟩, fun t ht => ?_⟩
  rw [h] at ht
  cases ht
  rfl

/-- START before RESET fails in its first command (R141). -/
theorem exec_start_unset {s : State} (hm : s.mode = .unset) :
    exec .start s = .next (takeError .configurationError s) := by
  have hstart : startDisplay s = .error (.raise .configurationError s) := by
    rw [startDisplay, issueEntry, writeByte_unset hm]
    rfl
  exact congrArg finish hstart

/-- PUSH_LINE before RESET fails in the address of its first line write (R146). -/
theorem exec_pushLine_unset {s : State} (hm : s.mode = .unset) (text : List Byte) (typing : Bool) :
    exec (.pushLine text typing) s = .next (takeError .configurationError s) := by
  have hset : setLine 1 s = .error (.raise .configurationError s) := writeByte_unset hm _ _ _
  have hpush : pushLine text typing s = .error (.raise .configurationError s) := by
    rw [pushLine, clearLine, putLine, hset]
    rfl
  exact congrArg finish hpush

/-! ### Operations one after another -/

/-- At rest with `MODE` set to a path: what an operation that writes completes from (R31, R110). -/
structure Ready (path : Path) (s : State) : Prop where
  resting : s.Resting
  mode : pathOf s.mode = some path

section
variable {path : Path} {s : State} (h : Ready path s)
include h

theorem Ready.respond (st : Status) (d : Byte) : Ready path (respond st d s) :=
  ⟨respond_resting h.resting st d, h.mode⟩

theorem Ready.afterWrites (sent : List Sent) : Ready path (afterWrites path sent s) :=
  ⟨afterWrites_resting h.resting sent, (congrArg pathOf (afterWrites_mode path sent s)).trans h.mode⟩

theorem Ready.afterPutLine1 (text : List Byte) (typing : Bool) : Ready path (afterPutLine1 path text typing s) := by
  obtain ⟨-, hmode, -⟩ := afterPutLine1_keeps path text typing s
  exact ⟨(afterPutLine_resting text typing h.resting h.mode).1, (congrArg pathOf hmode).trans h.mode⟩

theorem Ready.afterPutLine2 (text : List Byte) (typing : Bool) : Ready path (afterPutLine2 path text typing s) := by
  obtain ⟨-, hmode, -⟩ := afterPutLine2_keeps path text typing s
  exact ⟨(afterPutLine_resting text typing h.resting h.mode).2, (congrArg pathOf hmode).trans h.mode⟩

/-- PUT_LINE on line 1 at the port, from a state ready for it (R144). -/
theorem Ready.exec_putLine_one (text : List Byte) (typing : Bool) :
    exec (.putLine 1 text typing) s = .next (Machine.respond .ok 0 (Machine.afterPutLine1 path text typing s)) :=
  congrArg finish (putLine_one text typing h.resting h.mode)

/-- PUT_LINE on line 2 at the port, from a state ready for it (R144). -/
theorem Ready.exec_putLine_two (text : List Byte) (typing : Bool) :
    exec (.putLine 2 text typing) s = .next (Machine.respond .ok 0 (Machine.afterPutLine2 path text typing s)) :=
  congrArg finish (putLine_two text typing h.resting h.mode)

end

/-- A write does not read the responses. -/
theorem afterText_respond (path : Path) (typing : Bool) (t : Nat) (text : List Byte) (st : Status) (d : Byte)
    (s : State) : afterText path typing t text (respond st d s) = respond st d (afterText path typing t text s) := by
  induction text generalizing s with
  | nil => rfl
  | cons c rest ih =>
    cases rest with
    | nil => rfl
    | cons c' more =>
      cases typing
      · exact ih (afterWrite c false t path s)
      · exact ih (record (.delay 110000) (afterWrite c false t path s))

theorem afterPutLine1_respond (path : Path) (text : List Byte) (typing : Bool) (st : Status) (d : Byte) (s : State) :
    afterPutLine1 path text typing (respond st d s) = respond st d (afterPutLine1 path text typing s) :=
  afterText_respond path typing _ text st d { afterSetAddress path 0x00 s with row1 := text }

theorem afterPutLine2_respond (path : Path) (text : List Byte) (typing : Bool) (st : Status) (d : Byte) (s : State) :
    afterPutLine2 path text typing (respond st d s) = respond st d (afterPutLine2 path text typing s) :=
  afterText_respond path typing _ text st d { afterSetAddress path 0x40 s with row2 := text }

/-! ### START -/

/-- START at the port (R141). -/
theorem exec_start_eq {path : Path} {s : State} (h : s.Resting) (hm : pathOf s.mode = some path) :
    exec .start s = .next (respond .ok 0
      (afterWrites path [sentEntry s.cfg.table .displayOn, sentEntry s.cfg.table .cursorHome] s)) :=
  congrArg finish (startDisplay_eq h hm)

/-- At rest a run of writes by the path of `MODE` puts its transactions on the bus (R64, I-e). -/
theorem puts_writes_of_mode {path : Path} {s : State} (h : Ready path s) (sent : List Sent) :
    Puts s (afterWrites path sent s) (sent.flatMap (sentTransactions s.cfg.n path)) := by
  have hlines := lines_of_pathOf h.resting h.mode
  exact puts_writes (by tauto) (by tauto) sent

/-- Settles O42: START is its two commands run in one go, and an unset `MODE` stops it in the first. -/
theorem startCommands : Obligations.StartCommands := by
  refine ⟨rfl, fun s hm => answersError_of_takeError (exec_start_unset hm), fun s path h hm => ?_⟩
  have hon : Ready path (respond .ok 0 (afterWrites path [sentEntry s.cfg.table .displayOn] s)) :=
    (Ready.afterWrites ⟨h, hm⟩ _).respond .ok 0
  have hsent := puts_writes_of_mode ⟨h, hm⟩ [sentEntry s.cfg.table .displayOn, sentEntry s.cfg.table .cursorHome]
  exact ⟨_, _, _, exec_start_eq h hm, rfl, exec_command_eq h hm .displayOn,
    exec_command_eq hon.resting hon.mode .cursorHome, rfl, hsent.newWrites_respond h .ok 0, rfl, rfl⟩

/-! ### CLEAR_LINE -/

/-- The times of a run of writes only show in the delays. -/
theorem flatMap_sentTransactions_fst (n : Nat) (path : Path) (sent : List Sent) :
    (sent.flatMap (sentTransactions n path)).map Prod.fst =
      ((sent.map fun w => (w.1, w.2.1, 0)).flatMap (sentTransactions n path)).map Prod.fst := by
  induction sent with
  | nil => rfl
  | cons w rest ih =>
    simp only [List.flatMap_cons, List.map_cons, List.map_append, ih]
    rw [sentTransactions_fst n path w.1 w.2.1 w.2.2 0]

/-- Without the typing effect a text is a run of data writes (R144). -/
theorem afterText_false (path : Path) (t : Nat) (text : List Byte) (s : State) :
    afterText path false t text s = afterWrites path (text.map fun c => (c, false, t)) s := by
  induction text generalizing s with
  | nil => rfl
  | cons c rest ih =>
    cases rest with
    | nil => rfl
    | cons d more => exact ih _

/-- A line write without the effect, whatever it leaves in the mirror, puts the address and the text on the bus
(R144). -/
theorem puts_lineWrite {path : Path} {s : State} (h : Ready path s) (address : BitVec 7) (text row1 row2 : List Byte) :
    Puts s
      (afterText path false s.cfg.table.defaultEntry.timeUs text
        { afterSetAddress path address s with row1 := row1, row2 := row2 })
      (((0x80 ||| address.setWidth 8, true, s.cfg.table.ddramSetTimeUs) ::
        text.map fun c => (c, false, s.cfg.table.defaultEntry.timeUs)).flatMap (sentTransactions s.cfg.n path)) := by
  have haddress : Puts s { afterSetAddress path address s with row1 := row1, row2 := row2 } _ :=
    ⟨rfl, (puts_writes_of_mode h [(0x80 ||| address.setWidth 8, true, s.cfg.table.ddramSetTimeUs)]).events⟩
  have hat : Ready path { afterSetAddress path address s with row1 := row1, row2 := row2 } :=
    ⟨rows_resting (afterWrite_resting h.resting _ _ _) row1 row2, h.mode⟩
  rw [afterText_false, ← List.singleton_append, List.flatMap_append]
  exact haddress.trans (puts_writes_of_mode hat _)

/-- Settles O48: CLEAR_LINE is PUT_LINE of `blankRow` by its definition, and a line write sends its text as data. -/
theorem clearLineResult : Obligations.ClearLineResult := by
  refine ⟨fun _ => rfl, fun _ _ => rfl, fun s path h hm => ?_⟩
  have hready : Ready path s := ⟨h, hm⟩
  obtain ⟨-, -, hrow1, hrow2, hresp, -⟩ := afterPutLine1_keeps path blankRow false s
  obtain ⟨-, -, krow1, krow2, kresp, -⟩ := afterPutLine2_keeps path blankRow false s
  refine ⟨⟨_, hready.exec_putLine_one blankRow false, ?_, hrow1, hrow2, ?_⟩,
    ⟨_, hready.exec_putLine_two blankRow false, ?_, krow2, krow1, ?_⟩⟩
  · rw [respond_responses, hresp]
  · have hsent : newWrites s (respond .ok 0 (afterPutLine1 path blankRow false s)) = _ :=
      (puts_lineWrite hready 0x00 blankRow blankRow s.row2).newWrites_respond h .ok 0
    rw [hsent, flatMap_sentTransactions_fst]
    rfl
  · rw [respond_responses, kresp]
  · have hsent : newWrites s (respond .ok 0 (afterPutLine2 path blankRow false s)) = _ :=
      (puts_lineWrite hready 0x40 blankRow s.row1 blankRow).newWrites_respond h .ok 0
    rw [hsent, flatMap_sentTransactions_fst]
    rfl

/-! ### PUSH_LINE -/

/-- The pause at the end of PUSH_LINE is a delay: it keeps the responses and the mirror (R146). -/
theorem pushPause_keeps (typing : Bool) (s : State) :
    (if typing then delayMs pushMs s else s).responses = s.responses ∧
    (if typing then delayMs pushMs s else s).row1 = s.row1 ∧
    (if typing then delayMs pushMs s else s).row2 = s.row2 := by
  cases typing <;> exact ⟨rfl, rfl, rfl⟩

/-- Settles O49: PUSH_LINE is its four line writes run in one go, and none of them is on a line without a row. -/
theorem pushLineShiftsOneRow : Obligations.PushLineShiftsOneRow := by
  refine ⟨fun text typing => ?_, fun text typing s hm => ?_, fun text typing s t d ht => ?_,
    fun s path text typing h hm => ?_⟩
  · cases typing <;> rfl
  · exact answersError_of_takeError (exec_pushLine_unset hm text typing)
  · exact finish_responses_ne (pushLine_neverRaises (by decide) text typing s) ht _ d
  · obtain ⟨hpush, -, hrow1, hrow2, hresp⟩ := pushLine_eq h hm text typing
    obtain ⟨presp, prow1, prow2⟩ := pushPause_keeps typing (afterPush path text typing s)
    have hs : Ready path s := ⟨h, hm⟩
    have ha := (hs.afterPutLine1 blankRow false).respond .ok 0
    have hb := (ha.afterPutLine1 s.row2 false).respond .ok 0
    have hc := (hb.afterPutLine2 blankRow false).respond .ok 0
    refine ⟨_, _, _, _, _, congrArg finish hpush, ?_, hs.exec_putLine_one blankRow false,
      ha.exec_putLine_one s.row2 false, hb.exec_putLine_two blankRow false, hc.exec_putLine_two text typing,
      ?_, prow1.trans hrow1, prow2.trans hrow2⟩
    · rw [respond_responses, presp, hresp]
    · simp only [afterPutLine1_respond, afterPutLine2_respond]
      cases typing <;> rfl

end Sys2Proof.Machine

/-!
PROOFS. Which operation answers which error (`60_exceptions.md` R161, R162, R163). What every instruction answers is
said once, over the instructions: with the parameters it began with, and, but for READ without a Read/Write line, never
UnsupportedOperation.
-/
namespace Sys2Proof.Machine

/-! ### The parameters, and UnsupportedOperation -/

/-- A procedure begun in `s` ends with the parameters of `s` and does not raise UnsupportedOperation (R5, R163). -/
structure Supported (s : State) (r : Result State) : Prop where
  cfg : Ends (fun t => t.cfg = s.cfg) r
  error : NeverRaises .unsupportedOperation r

theorem Supported.ok {s t : State} (h : t.cfg = s.cfg) : Supported s (.ok t) := ⟨h, .ok _ t⟩

theorem Supported.raise {e : Error} (he : e ≠ .unsupportedOperation) (s : State) :
    Supported s (.error (.raise e s)) :=
  ⟨rfl, he⟩

/-- What ends as a transfer does keeps the parameters. -/
theorem ends_cfg_of_kept {s : State} {r : Result State} (h : Ends (Kept s) r) : Ends (fun t => t.cfg = s.cfg) r := by
  rcases r with (⟨e, t⟩ | g) | t
  · exact Kept.cfg h
  · trivial
  · exact Kept.cfg h

theorem Supported.of_kept {s : State} {r : Result State} (h : Ends (Kept s) r)
    (he : NeverRaises .unsupportedOperation r) : Supported s r :=
  ⟨ends_cfg_of_kept h, he⟩

/-- Only the parameters of the first state count. -/
theorem Supported.of_cfg {s s' : State} {r : Result State} (h : Supported s r) (hc : s.cfg = s'.cfg) :
    Supported s' r :=
  ⟨hc ▸ h.cfg, h.error⟩

theorem Supported.bind {s : State} {r : Result State} {f : State → Result State} (h : Supported s r)
    (k : ∀ t, Supported t (f t)) : Supported s (r >>= f) :=
  ⟨h.cfg.bind fun t _ hc => ((k t).of_cfg hc).cfg, h.error.bind fun t => (k t).error⟩

theorem setDirection_supported (target : Direction) (s : State) : Supported s (setDirection target s) :=
  .of_kept (kept_setDirection target s) (setDirection_neverRaises _ target s)

theorem transferByte_supported (path : Path) (v : Byte) (rs : Bool) (s : State) :
    Supported s (transferByte path v rs s) :=
  .of_kept (kept_transferByte path v rs s) (transferByte_neverRaises _ path v rs s)

theorem writeCore_supported (v : Byte) (c : Bool) (t : Nat) (path : Path) (s : State) :
    Supported s (writeCore v c t path s) :=
  .of_kept (kept_writeCore v c t path s) (writeCore_neverRaises _ v c t path s)

theorem writeByte_supported (v : Byte) (c : Bool) (t : Nat) (s : State) : Supported s (writeByte v c t s) :=
  .of_kept (kept_writeByte v c t s) (writeByte_neverRaises (by decide) v c t s)

theorem issueEntry_supported (key : CmdKey) (s : State) : Supported s (issueEntry key s) :=
  writeByte_supported _ true _ s

theorem setAddress_supported (address : BitVec 7) (s : State) : Supported s (setAddress address s) :=
  writeByte_supported _ true _ s

theorem startDisplay_supported (s : State) : Supported s (startDisplay s) :=
  (issueEntry_supported .displayOn s).bind fun t => issueEntry_supported .cursorHome t

/-- RESET is writes and one assignment to `MODE`, or ConfigurationError (R130, R131). -/
theorem resetDisplay_supported (s : State) : Supported s (resetDisplay s) := by
  have hsuffix (t : State) : Supported t (resetSuffix t) :=
    (issueEntry_supported .displayOff t).bind fun u =>
      (issueEntry_supported .displayClear u).bind fun v => issueEntry_supported .modeAutoinc v
  unfold resetDisplay
  split
  · have hprefix : Supported s (resetPrefix8 s) :=
      (writeCore_supported _ true _ .single s).bind fun t =>
        (writeCore_supported _ true _ .single t).bind fun t =>
        (writeCore_supported _ true _ .single t).bind fun t =>
        (writeCore_supported _ true _ .single t).bind fun _ => .ok rfl
    exact hprefix.bind hsuffix
  · split
    · have hprefix : Supported s (resetPrefix4 s) :=
        (writeCore_supported _ true _ .single s).bind fun t =>
          (writeCore_supported _ true _ .single t).bind fun t =>
          (writeCore_supported _ true _ .single t).bind fun t =>
          (writeCore_supported _ true _ .single t).bind fun t =>
          (writeCore_supported _ true _ t.cfg.funcsel4Path t).bind fun _ => .ok rfl
      exact hprefix.bind hsuffix
    · exact .raise (by decide) s

/-- The one error of a line is RangeError, beside those of the write (R143). -/
theorem setLine_supported (line : Byte) (s : State) : Supported s (setLine line s) := by
  unfold setLine
  split
  · exact .raise (by decide) s
  · exact setAddress_supported _ s

theorem putLine_supported (line : Byte) (text : List Byte) (typing : Bool) (s : State) :
    Supported s (putLine line text typing s) := by
  have htext (t : State) : Supported t (writeText typing text t) :=
    .of_kept (kept_writeText typing text t) (writeText_neverRaises (by decide) typing text t)
  exact (setLine_supported line s).bind fun t => (htext _).of_cfg (setRow_cfg line text t)

theorem pushLine_supported (text : List Byte) (typing : Bool) (s : State) : Supported s (pushLine text typing s) :=
  (putLine_supported 1 blankRow false s).bind fun t =>
    (putLine_supported 1 t.row2 false t).bind fun t =>
    (putLine_supported 2 blankRow false t).bind fun t =>
    (putLine_supported 2 text typing t).bind fun _ => .ok (by cases typing <;> rfl)

/-- A step from `s` that answers keeps the parameters of `s`, and its answer is not UnsupportedOperation. -/
def AnswersSupported (s : State) (o : Host.Outcome State Fault Refusal) : Prop :=
  ∀ t, o = .next t → t.cfg = s.cfg ∧
    ∀ past d, t.responses ≠ past ++ [⟨.error .unsupportedOperation, d⟩]

theorem answersSupported_refused (s : State) (m : Refusal) : AnswersSupported s (.refused m) := fun _ ht => nomatch ht

/-- The port answers in the state the procedure ends in (R75, R166). -/
theorem finish_cfg {c : Config} {r : Result State} (h : Ends (fun t => t.cfg = c) r) {t : State}
    (ht : finish r = .next t) : t.cfg = c := by
  rcases r with (⟨e, u⟩ | g) | u <;> cases ht <;> exact h

theorem finishRead_cfg {c : Config} {r : Result (List Bool × State)} (h : Ends (fun t => t.cfg = c) (r.map Prod.snd))
    {t : State} (ht : finishRead r = .next t) : t.cfg = c := by
  rcases r with (⟨e, u⟩ | g) | u <;> cases ht <;> exact h

/-- A status read does not answer with an error it does not raise (R75, R118). -/
theorem finishRead_responses_ne {e : Error} {r : Result (List Bool × State)} (h : NeverRaises e r) {t : State}
    (ht : finishRead r = .next t) (past : List Response) (d : Byte) : t.responses ≠ past ++ [⟨.error e, d⟩] := by
  rcases r with (⟨e', u⟩ | g) | u <;> cases ht <;> intro heq <;> cases List.append_inj_right' heq rfl
  exact h rfl

theorem Supported.finish {s : State} {r : Result State} (h : Supported s r) : AnswersSupported s (finish r) :=
  fun _ ht => ⟨finish_cfg h.cfg ht, finish_responses_ne h.error ht⟩

/-- The status read with a Read/Write line (R117). -/
theorem readCore_answersSupported {s : State} (hr : s.cfg.hasRw = true) :
    AnswersSupported s (finishRead (readCore s)) :=
  fun _ ht => ⟨finishRead_cfg (ends_cfg_of_kept (kept_readCore hr)) ht,
    finishRead_responses_ne (readCore_neverRaises _ s) ht⟩

/-- A format that runs under a condition on the lines is refused without it (R76, R77, R80). -/
theorem answersSupported_ite {s : State} {p : Prop} [Decidable p] {o : Host.Outcome State Fault Refusal} {m : Refusal}
    (h : p → AnswersSupported s o) : AnswersSupported s (if p then o else .refused m) := by
  split
  · next hp => exact h hp
  · exact answersSupported_refused s m

/-- The one error of a READ is that of the absent line (R116). -/
theorem readStatus_neverRaises {e : Error} (he : e ≠ .unsupportedOperation) (s : State) :
    NeverRaises e (readStatus s) := by
  unfold readStatus
  split
  · exact readCore_neverRaises e s
  · exact he.symm

/-- READ without a Read/Write line (R116). -/
theorem exec_read_absent {s : State} (hr : s.cfg.hasRw = false) :
    exec .read s = .next (takeError .unsupportedOperation s) := by
  have hread : readStatus s = .error (.raise .unsupportedOperation s) := by simp [readStatus, hr]
  exact congrArg finishRead hread

/-- READ with a Read/Write line (R116). -/
theorem exec_read_present {s : State} (hr : s.cfg.hasRw = true) : exec .read s = finishRead (readCore s) :=
  congrArg finishRead (if_pos hr)

/-- Every instruction but READ without a Read/Write line keeps the parameters and answers no UnsupportedOperation. -/
theorem exec_answersSupported (i : Instr) (s : State) (hr : i = .read → s.cfg.hasRw = true) :
    AnswersSupported s (exec i s) := by
  cases i with
  | setDirection target => exact (setDirection_supported target s).finish
  | write v c n => exact (writeByte_supported v c n.toNat s).finish
  | read =>
    rw [exec_read_present (hr rfl)]
    exact readCore_answersSupported (hr rfl)
  | reset => exact (resetDisplay_supported s).finish
  | command key => exact (issueEntry_supported key s).finish
  | start => exact (startDisplay_supported s).finish
  | clear => exact (issueEntry_supported .displayClear s).finish
  | setLine line => exact (setLine_supported line s).finish
  | putLine line text typing => exact (putLine_supported line text typing s).finish
  | clearLine line => exact (putLine_supported line blankRow false s).finish
  | pushLine text typing => exact (pushLine_supported text typing s).finish
  | cmdDefault v => exact (writeByte_supported v true _ s).finish
  | cmdDisplayOn => exact (issueEntry_supported .displayOn s).finish
  | cmdDisplayOff => exact (issueEntry_supported .displayOff s).finish
  | cmdDisplayClear => exact (issueEntry_supported .displayClear s).finish
  | cmdCursorHome => exact (issueEntry_supported .cursorHome s).finish
  | cmdModeAutoinc => exact (issueEntry_supported .modeAutoinc s).finish
  | cmdFuncsel8Bit => exact (issueEntry_supported .funcsel8Bit s).finish
  | cmdFuncsel4Bit => exact (issueEntry_supported .funcsel4Bit s).finish
  | cmdDdramSet address => exact (setAddress_supported address s).finish
  | rawReset8 repetition => exact answersSupported_ite fun _ => (writeCore_supported _ true _ .single s).finish
  | rawReset4Three repetition => exact answersSupported_ite fun _ => (writeCore_supported _ true _ .single s).finish
  | rawReset4Two repetition => exact answersSupported_ite fun _ => (writeCore_supported _ true _ .single s).finish
  | busB8 rs v => exact answersSupported_ite fun _ => (transferByte_supported .single v rs s).finish
  | busB4 rs high low => exact answersSupported_ite fun _ => (transferByte_supported .split _ rs s).finish
  | busR4 v => exact answersSupported_ite fun _ => (transferByte_supported .single _ false s).finish
  | busSt sampled => exact answersSupported_ite fun h => readCore_answersSupported (s := { s with inputs := _ }) h

/-- No instruction changes the parameters (R5). -/
theorem exec_cfg {i : Instr} {s t : State} (ht : exec i s = .next t) : t.cfg = s.cfg := by
  by_cases hr : i = .read ∧ s.cfg.hasRw = false
  · obtain ⟨rfl, hr⟩ := hr
    rw [exec_read_absent hr] at ht
    cases ht
    rfl
  · exact (exec_answersSupported i s (by simpa using hr) t ht).1

/-- A step that answers rests, or runs the instruction of the word it takes from the port (R4, R174). -/
theorem step_next_cases {s t : State} (ht : step s = .next t) :
    t = s ∨ ∃ w rest i, s.requests = w :: rest ∧ decode w = .ok i ∧ exec i { s with requests := rest } = .next t := by
  unfold step takeRequest at ht
  cases hq : s.requests with
  | nil =>
    rw [hq] at ht
    cases ht
    exact .inl rfl
  | cons w rest =>
    simp only [hq] at ht
    cases hd : decode w with
    | error r => simp [hd] at ht
    | ok i =>
      rw [hd] at ht
      exact .inr ⟨w, rest, i, rfl, hd, ht⟩

/-- No step changes the parameters (R5). -/
theorem step_cfg {s t : State} (ht : step s = .next t) : t.cfg = s.cfg := by
  obtain rfl | ⟨w, rest, i, -, -, hexec⟩ := step_next_cases ht
  · rfl
  · exact (exec_cfg hexec :)

/-- Settles O31: READ without the line raises the error, and over the instructions nothing else does. -/
theorem unsupportedOperationOnlyFromRead : Obligations.UnsupportedOperationOnlyFromRead := by
  refine ⟨fun s hr => (answersError_of_takeError (exec_read_absent hr)).1, fun i s t d ht hresp => ?_,
    fun s t ht => congrArg Config.hasRw (step_cfg ht)⟩
  by_contra hne
  obtain ⟨-, hresponse⟩ := exec_answersSupported i s (by simpa using hne) t ht
  exact hresponse _ d hresp

/-! ### ConfigurationError -/

/-- RESET on a line count it does not support (R131). -/
theorem exec_reset_unsupported {s : State} (h4 : s.cfg.n ≠ 4) (h8 : s.cfg.n ≠ 8) :
    exec .reset s = .next (takeError .configurationError s) := by
  have hreset : resetDisplay s = .error (.raise .configurationError s) := by
    rw [resetDisplay, if_neg h8, if_neg h4]
  exact congrArg finish hreset

/-- A legal line has a row (R143). -/
theorem exists_rowStart {line : Byte} (hl : legalLine line = true) : ∃ address, rowStart line = some address := by
  have h12 : line = 1 ∨ line = 2 := by simpa [legalLine] using hl
  obtain rfl | rfl := h12
  · exact ⟨0x00, rfl⟩
  · exact ⟨0x40, rfl⟩

/-- SET_LINE before RESET (R114, R143). -/
theorem setLine_unset {s : State} (hm : s.mode = .unset) {line : Byte} (hl : legalLine line = true) :
    setLine line s = .error (.raise .configurationError s) := by
  obtain ⟨address, ha⟩ := exists_rowStart hl
  rw [setLine, ha]
  exact writeByte_unset hm _ true _

/-- A line write ends where its SET_LINE does, when that fails (R144, R150). -/
theorem putLine_of_setLine_raises {e : Error} {line : Byte} {s : State}
    (h : setLine line s = .error (.raise e s)) (text : List Byte) (typing : Bool) :
    putLine line text typing s = .error (.raise e s) := by
  rw [putLine, h]
  rfl

/-- The three line operations all begin with SET_LINE, and fail where it does (R143, R144, R145). -/
theorem exec_line_raises {e : Error} {line : Byte} {s : State} (h : setLine line s = .error (.raise e s))
    (text : List Byte) (typing : Bool) :
    exec (.setLine line) s = .next (takeError e s) ∧ exec (.putLine line text typing) s = .next (takeError e s) ∧
      exec (.clearLine line) s = .next (takeError e s) :=
  ⟨congrArg finish h, congrArg finish (putLine_of_setLine_raises h text typing),
    congrArg finish (putLine_of_setLine_raises h blankRow false)⟩

/-- WRITE and every operation built on it before RESET (R114, R161). -/
theorem exec_unset {s : State} (hm : s.mode = .unset) {i : Instr}
    (hi : (∃ v c n, i = .write v c n) ∨ (∃ k, i = .command k) ∨ i = .start ∨ i = .clear ∨
      (∃ l, legalLine l = true ∧ (i = .setLine l ∨ i = .clearLine l ∨ ∃ text e, i = .putLine l text e)) ∨
      ∃ text e, i = .pushLine text e) : exec i s = .next (takeError .configurationError s) := by
  obtain ⟨v, c, n, rfl⟩ | ⟨k, rfl⟩ | rfl | rfl | ⟨l, hl, hline⟩ | ⟨text, e, rfl⟩ := hi
  · exact congrArg finish (writeByte_unset hm v c n.toNat)
  · exact congrArg finish (writeByte_unset hm _ true _)
  · exact exec_start_unset hm
  · exact congrArg finish (writeByte_unset hm _ true _)
  · have hset := setLine_unset hm hl
    obtain rfl | rfl | ⟨text, e, rfl⟩ := hline
    · exact (exec_line_raises hset [] false).1
    · exact (exec_line_raises hset [] false).2.2
    · exact (exec_line_raises hset text e).2.1
  · exact exec_pushLine_unset hm text e

/-- RESET completes on a legal line count and leaves `MODE` set (R130, R136). -/
theorem exec_reset_sets_mode {s : State} (h : s.Resting) (hn : s.cfg.n = 4 ∨ s.cfg.n = 8) :
    ∃ t, exec .reset s = .next t ∧ t.mode ≠ .unset := by
  obtain h4 | h8 := hn
  · have hmode : (respond .ok 0 (afterReset4 s)).mode = .fourBit := afterWrites_mode ..
    exact ⟨_, exec_reset_four h h4, by simp only [hmode]; decide⟩
  · have hmode : (respond .ok 0 (afterReset8 s)).mode = .eightBit := afterWrites_mode ..
    exact ⟨_, exec_reset_eight h h8, by simp only [hmode]; decide⟩

/-- Settles O32: the two causes by what RESET and WRITE check first, and `MODE` set by RESET on a legal line count. -/
theorem configurationErrorCauses : Obligations.ConfigurationErrorCauses := by
  refine ⟨fun s h4 h8 => (answersError_of_takeError (exec_reset_unsupported h4 h8)).1,
    fun s t ht => congrArg Config.n (step_cfg ht), fun s i hm hi => (answersError_of_takeError (exec_unset hm hi)).1,
    ?_, fun s h hn => exec_reset_sets_mode h hn⟩
  rintro i s t d (rfl | ⟨target, rfl⟩) ht
  · exact finishRead_responses_ne (readStatus_neverRaises (by decide) s) ht _ d
  · exact finish_responses_ne (setDirection_neverRaises _ target s) ht _ d

/-! ### RangeError -/

/-- Settles O33: the three line operations fail in their SET_LINE, and the lines of PUSH_LINE have rows. -/
theorem rangeErrorCauses : Obligations.RangeErrorCauses :=
  ⟨fun _ text typing s h1 h2 => exec_line_raises (setLine_bad h1 h2 s) text typing,
    fun text typing s _ d ht => finish_responses_ne (pushLine_neverRaises (by decide) text typing s) ht _ d⟩

end Sys2Proof.Machine

/-!
PROOFS. The one ordering between operations (`70_reset_and_hazards.md` R188): from rest, SET_DIRECTION, READ and RESET
are answered OK whatever `MODE` is, and every other host operation is once `MODE` is set.
-/
namespace Sys2Proof.Machine

/-- An instruction is answered OK (R75). -/
def AnswersOk (i : Instr) (s : State) : Prop :=
  ∃ (t : State) (data : Byte), exec i s = .next t ∧ t.responses = s.responses ++ [⟨.ok, data⟩]

/-- An instruction that completes in a state with the responses unchanged is answered OK. -/
theorem answersOk_of_respond {i : Instr} {s t : State} {data : Byte} (h : exec i s = .next (respond .ok data t))
    (ht : t.responses = s.responses) : AnswersOk i s :=
  ⟨_, data, h, by rw [respond_responses, ht]⟩

/-- A run of writes keeps the responses. -/
@[simp] theorem afterWrites_responses (path : Path) (sent : List Sent) (s : State) :
    (afterWrites path sent s).responses = s.responses := by
  induction sent generalizing s with
  | nil => rfl
  | cons w rest ih => exact ih _

/-! ### Operations that do not ask for `MODE` -/

theorem setDirection_answersOk (target : Direction) {s : State} (h : s.Resting) :
    AnswersOk (.setDirection target) s := by
  cases target with
  | driving =>
    obtain ⟨pins, hset, -⟩ := setDirection_driving h
    exact answersOk_of_respond (congrArg finish hset) rfl
  | released => exact answersOk_of_respond (congrArg finish (setDirection_released h)) rfl

/-- READ with a Read/Write line (R116). -/
theorem read_answersOk {s : State} (h : s.Resting) (hr : s.cfg.hasRw = true) : AnswersOk .read s := by
  have hread : exec .read s = .next (respond .ok (readData s.nextLevels) (afterRead s)) := by
    rw [exec_read_present hr, readCore_eq h hr]
    rfl
  exact answersOk_of_respond hread rfl

/-- RESET on a legal line count (R131): it is made of runs of writes. -/
theorem reset_answersOk {s : State} (h : s.Resting) (hn : s.cfg.n = 4 ∨ s.cfg.n = 8) : AnswersOk .reset s := by
  obtain h4 | h8 := hn
  · refine answersOk_of_respond (exec_reset_four h h4) ?_
    simp [afterReset4_eq, afterResetSuffix, afterPrefix4]
  · refine answersOk_of_respond (exec_reset_eight h h8) ?_
    simp [afterReset8_eq, afterResetSuffix, afterPrefix8]

/-! ### Operations that write, with `MODE` set -/

section
variable {path : Path} {s : State} (h : Ready path s)
include h

theorem Ready.setLine_answersOk {line : Byte} (hl : legalLine line = true) : AnswersOk (.setLine line) s := by
  obtain ⟨address, haddress⟩ := exists_rowStart hl
  exact answersOk_of_respond (exec_setLine_eq h.resting h.mode haddress) rfl

theorem Ready.putLine_answersOk {line : Byte} (hl : legalLine line = true) (text : List Byte) (typing : Bool) :
    AnswersOk (.putLine line text typing) s := by
  have h12 : line = 1 ∨ line = 2 := by simpa [legalLine] using hl
  obtain rfl | rfl := h12
  · obtain ⟨-, -, -, -, hresp, -⟩ := afterPutLine1_keeps path text typing s
    exact answersOk_of_respond (h.exec_putLine_one text typing) hresp
  · obtain ⟨-, -, -, -, hresp, -⟩ := afterPutLine2_keeps path text typing s
    exact answersOk_of_respond (h.exec_putLine_two text typing) hresp

theorem Ready.pushLine_answersOk (text : List Byte) (typing : Bool) : AnswersOk (.pushLine text typing) s := by
  obtain ⟨hpush, -, -, -, hresp⟩ := pushLine_eq h.resting h.mode text typing
  obtain ⟨hpause, -, -⟩ := pushPause_keeps typing (afterPush path text typing s)
  exact answersOk_of_respond (congrArg finish hpush) (hpause.trans hresp)

/-- With `MODE` set every host operation with legal operands is answered OK (R188). -/
theorem Ready.exec_answersOk {i : Instr} (hi : isHostOperation i = true) (hl : operandsLegal s.cfg i = true) :
    AnswersOk i s := by
  have hs := h.resting
  have hm := h.mode
  cases i with
  | setDirection target => exact setDirection_answersOk target hs
  | read => exact read_answersOk hs hl
  | reset => exact reset_answersOk hs (by simpa [operandsLegal] using hl)
  | write v c n => exact answersOk_of_respond (exec_write_eq hs hm v c n) rfl
  | command key => exact answersOk_of_respond (exec_command_eq hs hm key) rfl
  | start => exact answersOk_of_respond (exec_start_eq hs hm) (afterWrites_responses ..)
  | clear => exact answersOk_of_respond (i := .clear) (exec_command_eq hs hm .displayClear) rfl
  | setLine line => exact h.setLine_answersOk hl
  | putLine line text typing => exact h.putLine_answersOk hl text typing
  | clearLine line => exact h.putLine_answersOk hl blankRow false
  | pushLine text typing => exact h.pushLine_answersOk text typing
  | _ => cases hi

end

/-- Settles O35: before RESET a write fails first of all, and at rest only the operations that write need `MODE`. -/
theorem onlyOrderingIsResetFirst : Obligations.OnlyOrderingIsResetFirst := by
  refine ⟨fun v c n s hm => (answersError_of_takeError (exec_unset hm (.inl ⟨v, c, n, rfl⟩))).1,
    fun i s h hi hl hmode => ?_⟩
  obtain hset | rfl | rfl | ⟨target, rfl⟩ := hmode
  · obtain ⟨path, hm⟩ := exists_path hset
    exact Ready.exec_answersOk ⟨h, hm⟩ hi hl
  · exact read_answersOk h hl
  · exact reset_answersOk h (by simpa [operandsLegal] using hl)
  · exact setDirection_answersOk target h

end Sys2Proof.Machine

/-!
PROOFS. The port word of an instruction and what the decoder reads from it (`30_encoding.md` R72 to R80): each field's
decoder undoes its encoder, and each LCD-side word that decodes is the one its instruction is encoded in.
-/
namespace Sys2Proof.Machine

/-! ### From the instruction to its word and back -/

/-- The direction bit is read back (R73). -/
@[simp] theorem directionOfBit_bitOfDirection (d : Direction) : directionOfBit (bitOfDirection d) = d := by
  cases d <;> rfl

/-- A flag's bit is read back (R73). -/
@[simp] theorem flagOfBit_bitOfFlag (b : Bool) : flagOfBit (bitOfFlag b) = b := by cases b <;> rfl

/-- A key is read back from its index (R78). -/
@[simp] theorem keyOfIndex_indexOfKey (k : CmdKey) : keyOfIndex (indexOfKey k) = some k := by cases k <;> rfl

/-- `CMD.DDRAM_SET` reads its address back below the fixed bit 7 (R79). -/
theorem decodeCmd8_ddramSet (address : BitVec 7) : decodeCmd8 8 (1#1 ++ address) = .ok (.cmdDdramSet address) := by
  have hbit : (1#1 ++ address : Byte).getLsbD 7 = true := by
    rw [BitVec.getLsbD_append]
    rfl
  have haddress : (1#1 ++ address : Byte).extractLsb' 0 7 = address := BitVec.extractLsb'_append_eq_right
  have hkey : keyOfIndex 8 = some .ddramSet := rfl
  simp only [decodeCmd8, hkey, hbit, haddress, if_true]

theorem decodeRaw8_encode (r : Fin 3) : decodeRaw8 (BitVec.ofNat 2 r.val) 0x30 = .ok (.rawReset8 r) := by
  revert r
  decide

theorem decodeRaw4_encode_three (r : Fin 2) : decodeRaw4 (BitVec.ofNat 2 r.val) 0x3 = .ok (.rawReset4Three r) := by
  revert r
  decide

theorem decodeRaw4_encode_two (r : Fin 2) : decodeRaw4 (BitVec.ofNat 2 r.val) 0x2 = .ok (.rawReset4Two r) := by
  revert r
  decide

/-- `B8` (R76). -/
theorem decodeB8_encodeB8 (rs : Bool) (v : Byte) : decodeB8 (encodeB8 rs v) = .ok (.busB8 rs v) := by
  have hlevels : (encodeB8 rs v).getLsbD 9 = false ∧ (encodeB8 rs v).getLsbD 8 = rs := by
    simp only [encodeB8, BitVec.getLsbD_append]
    cases rs <;> exact ⟨rfl, rfl⟩
  have hv : (encodeB8 rs v).extractLsb' 0 8 = v := BitVec.extractLsb'_append_eq_right
  simp only [decodeB8, hlevels, hv, Bool.false_eq_true, if_false]

/-- `B4` (R77). -/
theorem decodeB4_encodeB4 (rs : Bool) (high low : Nibble) :
    decodeB4 (encodeB4 rs high low) = .ok (.busB4 rs high low) := by
  have hrw : (encodeB4 rs high low).getLsbD 11 = false ∧ (encodeB4 rs high low).getLsbD 5 = false := by
    simp only [encodeB4, BitVec.getLsbD_append]
    exact ⟨rfl, rfl⟩
  have hrs : (encodeB4 rs high low).getLsbD 10 = rs ∧ (encodeB4 rs high low).getLsbD 4 = rs := by
    simp only [encodeB4, BitVec.getLsbD_append]
    cases rs <;> exact ⟨rfl, rfl⟩
  have hhigh : (encodeB4 rs high low).extractLsb' 6 4 = high := by
    refine BitVec.eq_of_getLsbD_eq fun i hi => ?_
    simp only [encodeB4, BitVec.getLsbD_extractLsb', BitVec.getLsbD_append]
    grind
  have hlow : (encodeB4 rs high low).extractLsb' 0 4 = low := BitVec.extractLsb'_append_eq_right
  simp [decodeB4, hrw, hrs, hhigh, hlow, -BitVec.getLsbD_eq_getElem]

/-- `R4` (R77). -/
theorem decodeR4_encodeR4 (v : Nibble) : decodeR4 (encodeR4 v) = .ok (.busR4 v) := by
  have hlevels : (encodeR4 v).getLsbD 5 = false ∧ (encodeR4 v).getLsbD 4 = false := by
    simp only [encodeR4, BitVec.getLsbD_append]
    exact ⟨rfl, rfl⟩
  have hv : (encodeR4 v).extractLsb' 0 4 = v := BitVec.extractLsb'_append_eq_right
  simp [decodeR4, hlevels, hv, -BitVec.getLsbD_eq_getElem]

/-- `ST` (R77). -/
theorem decodeSt_encodeSt (w : Byte) : decodeSt (encodeSt w) = .ok (.busSt w) := by
  have hlevels : (encodeSt w).getLsbD 9 = true ∧ (encodeSt w).getLsbD 8 = false := by
    simp only [encodeSt, BitVec.getLsbD_append]
    exact ⟨rfl, rfl⟩
  have hw : (encodeSt w).extractLsb' 0 8 = w := BitVec.extractLsb'_append_eq_right
  simp [decodeSt, hlevels, hw, -BitVec.getLsbD_eq_getElem]

/-- Settles O1: the ports of a request are read back field by field, the words of the LCD side format by format. -/
theorem decodeOfEncode : Obligations.DecodeOfEncode := by
  intro i
  cases i with
  | setDirection d => simp [encode, decode, decodeRequest]
  | write v c n => simp [encode, decode, decodeRequest]
  | command k => simp [encode, decode, decodeRequest]
  | putLine line text typing => simp [encode, decode, decodeRequest]
  | pushLine text typing => simp [encode, decode, decodeRequest]
  | cmdDdramSet address => exact decodeCmd8_ddramSet address
  | rawReset8 r => exact decodeRaw8_encode r
  | rawReset4Three r => exact decodeRaw4_encode_three r
  | rawReset4Two r => exact decodeRaw4_encode_two r
  | busB8 rs v => exact decodeB8_encodeB8 rs v
  | busB4 rs high low => exact decodeB4_encodeB4 rs high low
  | busR4 v => exact decodeR4_encodeR4 v
  | busSt w => exact decodeSt_encodeSt w
  | read | reset | start | clear | setLine | clearLine | cmdDefault | cmdDisplayOn | cmdDisplayOff | cmdDisplayClear
  | cmdCursorHome | cmdModeAutoinc | cmdFuncsel8Bit | cmdFuncsel4Bit => rfl

/-! ### From an LCD-side word to its instruction and back -/

/-- A key index that selects an entry is the entry's (R78). -/
theorem indexOfKey_of_keyOfIndex {k : BitVec 4} {key : CmdKey} (h : keyOfIndex k = some key) : k = indexOfKey key := by
  revert k key
  decide

/-- A fixed row decodes from its own byte only (R78). -/
theorem decodeFixedEntry_ok {key : BitVec 4} {byte pattern : Byte} {i j : Instr}
    (h : decodeFixedEntry key byte pattern i = .ok j) : byte = pattern ∧ j = i := by
  unfold decodeFixedEntry at h
  split at h
  · cases h
    exact ⟨‹_›, rfl⟩
  · cases h

/-- A byte with bit 7 set is that bit and an address (R79). -/
theorem one_append_address {byte : Byte} (h : byte.getLsbD 7 = true) : 1#1 ++ byte.extractLsb' 0 7 = byte := by
  refine BitVec.eq_of_getLsbD_eq fun i hi => ?_
  simp only [BitVec.getLsbD_append, BitVec.getLsbD_extractLsb']
  grind

theorem encode_of_decodeCmd8 {key : BitVec 4} {byte : Byte} {i : Instr} (h : decodeCmd8 key byte = .ok i) :
    encode i = .lcd (.cmd8 key byte) := by
  cases hkey : keyOfIndex key with
  | none => simp [decodeCmd8, hkey] at h
  | some k =>
    obtain rfl := indexOfKey_of_keyOfIndex hkey
    cases k with
    | default =>
      obtain rfl := Except.ok.inj h
      rfl
    | ddramSet =>
      simp only [decodeCmd8, hkey] at h
      split at h
      · cases h
        exact congrArg (fun b => PortWord.lcd (.cmd8 8 b)) (one_append_address ‹_›)
      · cases h
    | displayOn | displayOff | displayClear | cursorHome | modeAutoinc | funcsel8Bit | funcsel4Bit =>
      obtain ⟨rfl, rfl⟩ := decodeFixedEntry_ok h
      rfl

theorem encode_of_decodeRaw8 {repetition : BitVec 2} {byte : Byte} {i : Instr}
    (h : decodeRaw8 repetition byte = .ok i) : encode i = .lcd (.raw8 repetition byte) := by
  unfold decodeRaw8 at h
  split at h
  · next hbyte =>
    split at h
    · cases h
      simp [encode, hbyte]
    · cases h
  · cases h

theorem encode_of_decodeRaw4 {repetition : BitVec 2} {nibble : Nibble} {i : Instr}
    (h : decodeRaw4 repetition nibble = .ok i) : encode i = .lcd (.raw4 repetition nibble) := by
  unfold decodeRaw4 at h
  split at h
  · next hnibble =>
    split at h <;> cases h
    simp [encode, hnibble]
  · split at h
    · next hnibble =>
      split at h <;> cases h
      simp [encode, hnibble]
    · cases h

theorem encode_of_decodeB8 {w : BitVec 10} {i : Instr} (h : decodeB8 w = .ok i) : encode i = .lcd (.b8 w) := by
  unfold decodeB8 at h
  split at h
  · cases h
  · next hrw =>
    cases h
    refine congrArg (fun w => PortWord.lcd (.b8 w)) (BitVec.eq_of_getLsbD_eq fun i hi => ?_)
    simp only [encodeB8, BitVec.getLsbD_append, BitVec.getLsbD_extractLsb', BitVec.getLsbD_ofBool]
    grind

theorem encode_of_decodeB4 {w : BitVec 12} {i : Instr} (h : decodeB4 w = .ok i) : encode i = .lcd (.b4 w) := by
  unfold decodeB4 at h
  split at h
  · cases h
  · next hlevels =>
    cases h
    refine congrArg (fun w => PortWord.lcd (.b4 w)) (BitVec.eq_of_getLsbD_eq fun i hi => ?_)
    simp only [encodeB4, BitVec.getLsbD_append, BitVec.getLsbD_extractLsb', BitVec.getLsbD_ofBool]
    grind

theorem encode_of_decodeR4 {w : BitVec 6} {i : Instr} (h : decodeR4 w = .ok i) : encode i = .lcd (.r4 w) := by
  unfold decodeR4 at h
  split at h
  · cases h
  · next hlevels =>
    cases h
    refine congrArg (fun w => PortWord.lcd (.r4 w)) (BitVec.eq_of_getLsbD_eq fun i hi => ?_)
    simp only [encodeR4, BitVec.getLsbD_append, BitVec.getLsbD_extractLsb']
    grind

theorem encode_of_decodeSt {w : BitVec 10} {i : Instr} (h : decodeSt w = .ok i) : encode i = .lcd (.st w) := by
  unfold decodeSt at h
  split at h
  · next hlevels =>
    cases h
    refine congrArg (fun w => PortWord.lcd (.st w)) (BitVec.eq_of_getLsbD_eq fun i hi => ?_)
    simp only [encodeSt, BitVec.getLsbD_append, BitVec.getLsbD_extractLsb']
    grind
  · cases h

/-- Settles O2: format by format, the bits the decoder does not carry over are fixed by what it checks. -/
theorem encodeOfDecodedLcdWord : Obligations.EncodeOfDecodedLcdWord := by
  intro w i h
  cases w with
  | cmd8 key byte => exact encode_of_decodeCmd8 h
  | raw8 repetition byte => exact encode_of_decodeRaw8 h
  | raw4 repetition nibble => exact encode_of_decodeRaw4 h
  | b8 w => exact encode_of_decodeB8 h
  | b4 w => exact encode_of_decodeB4 h
  | r4 w => exact encode_of_decodeR4 h
  | st w => exact encode_of_decodeSt h

end Sys2Proof.Machine

/-!
PROOFS. What one step runs (`00_scope.md` R4, `30_encoding.md` R84).
-/
namespace Sys2Proof.Machine

/-! ### The step -/

/-- A step with nothing on the port (R174). -/
theorem step_of_empty {s : State} (h : s.requests = []) : step s = .next s := by
  simp only [step, takeRequest, h]

/-- A step runs what the word on the port decodes to (R4). -/
theorem step_of_decode_ok {s : State} {w : PortWord} {rest : List PortWord} {i : Instr} (h : s.requests = w :: rest)
    (hd : decode w = .ok i) : step s = exec i { s with requests := rest } := by
  simp only [step, takeRequest, h, hd]

/-- A word the decoder rejects is refused by its name (R84). -/
theorem step_of_decode_error {s : State} {w : PortWord} {rest : List PortWord} {r : Reject}
    (h : s.requests = w :: rest) (hd : decode w = .error r) : step s = .refused (.rejected r) := by
  simp only [step, takeRequest, h, hd]

/-- Settles O5: a step has these three cases. -/
theorem stepRunsDecodedInstruction : Obligations.StepRunsDecodedInstruction :=
  ⟨fun _ _ _ h => ⟨fun _ hd => step_of_decode_ok h hd, fun _ hd => step_of_decode_error h hd⟩,
    fun _ h => step_of_empty h⟩

/-- Settles O6: the table's word is the head of the requests, and what it decodes to is run. -/
theorem tableWordIsNextInstruction : Obligations.TableWordIsNextInstruction := by
  intro s nbits w i h
  have hd : decode (tableWord nbits w) = .ok i := by
    unfold decodeTableWord at h
    split at h <;> simp_all
  exact step_of_decode_ok (s := s.withFetchWord nbits w) rfl hd

/-- Settles O4: each word is decoded by evaluation. -/
theorem wordsFromTheTables : Obligations.WordsFromTheTables := by
  refine ⟨?_, ?_, ?_, ?_, ?_, ?_, ?_, ?_, ?_⟩ <;> decide

/-! ### Reserved tags and keys -/

/-- Every key index up to 8 selects an entry, and no other does (R78, R84). -/
theorem keyOfIndex_isSome (k : BitVec 4) : (keyOfIndex k).isSome = decide (k.toNat ≤ 8) := by
  revert k
  decide

/-- The tags 0xB to 0xF are reserved (R84). -/
theorem decode_reservedTag {r : Request} (h : 0xB ≤ r.op.toNat) :
    decode (.request r) = .error (.reservedTag r.op) := by
  simp only [decode, decodeRequest]
  split
  case h_12 => rfl
  all_goals omega

/-- COMMAND with a key index 9 to 15 (R84). -/
theorem decode_reservedKey {r : Request} (hop : r.op = 0x4) (h : 9 ≤ r.key.toNat) :
    decode (.request r) = .error (.reservedKey r.key) := by
  have hkey : keyOfIndex r.key = none := by
    have hsome := keyOfIndex_isSome r.key
    rw [decide_eq_false (by omega)] at hsome
    simpa using hsome
  simp [decode, decodeRequest, hop, hkey]

/-- COMMAND with a key of the table is a host operation (R72, R84). -/
theorem decode_command {r : Request} (hop : r.op = 0x4) (hkey : r.key.toNat ≤ 8) :
    ∃ k, decode (.request r) = .ok (.command k) := by
  have hsome := keyOfIndex_isSome r.key
  rw [decide_eq_true hkey, Option.isSome_iff_exists] at hsome
  obtain ⟨k, hk⟩ := hsome
  exact ⟨k, by simp [decode, decodeRequest, hop, hk]⟩

/-- Every other request is a host operation (R72): COMMAND reads its key, every other tag only its operands. -/
theorem decode_hostOperation {r : Request} (h : r.op.toNat ≤ 0xA) (hkey : r.op = 0x4 → r.key.toNat ≤ 8) :
    ∃ i, decode (.request r) = .ok i ∧ isHostOperation i = true := by
  by_cases h4 : r.op = 0x4
  · obtain ⟨k, hk⟩ := decode_command h4 (hkey h4)
    exact ⟨_, hk, rfl⟩
  · have hne : r.op.toNat ≠ 4 := fun hop => h4 (BitVec.eq_of_toNat_eq hop)
    simp only [decode, decodeRequest]
    interval_cases r.op.toNat
    pick_goal 5
    · exact absurd rfl hne
    all_goals exact ⟨_, rfl, rfl⟩

/-- Settles O3: the decoder rejects the reserved tags and keys, and reads a host operation from every other request. -/
theorem reservedEncodingsRefused : Obligations.ReservedEncodingsRefused := fun _ _ _ hs =>
  ⟨fun h => step_of_decode_error hs (decode_reservedTag h),
    fun hop h => step_of_decode_error hs (decode_reservedKey hop h), fun h hkey => decode_hostOperation h hkey⟩

end Sys2Proof.Machine

/-!
PROOFS. The procedures of layer L1 as sequences of moves, from any state: each is made of the pin primitives of
`00_scope.md` R7 and assignments to `DIR`. What every move keeps, every procedure keeps.
-/
namespace Sys2Proof.Machine

/-! ### Moves -/

/-- One pin primitive or delay that is legal on the pinout (R7, R50): a configured data line becomes an output or an
input, an output is set, a data line is sampled, a delay passes. -/
inductive PinMove : State → State → Prop
  | cfgOut {i : Nat} {s : State} (hi : i < s.cfg.n) : PinMove s (pinCfgOut (.d i) false s)
  | cfgIn {i : Nat} {s : State} (hi : i < s.cfg.n) : PinMove s (pinCfgIn (.d i) s)
  | set {p : Pin} {v : Bool} {s : State} (ho : isOutput (pinState p s) = true) (hr : p = .rw → s.cfg.hasRw = true) :
      PinMove s (record (.set p v) (putPin p (.output v) s))
  | sample {i : Nat} {s : State} (hr : s.cfg.hasRw = true) : PinMove s (pinSample (.d i) s).2
  | delay {us : Nat} {s : State} : PinMove s (delay us s)

/-- One move of a procedure of layer L1: of a pin, or of `DIR` to a target (R100). -/
inductive Move : State → State → Prop
  | pin {s t : State} (h : PinMove s t) : Move s t
  | turn (d : Direction) {s : State} : Move s (setDir (dirOf d) s)

/-- Any number of pin moves. -/
abbrev PinMoves : State → State → Prop := Relation.ReflTransGen PinMove

/-- Any number of moves. -/
abbrev Moves : State → State → Prop := Relation.ReflTransGen Move

theorem PinMoves.moves {s t : State} (h : PinMoves s t) : Moves s t := h.lift id fun _ _ => .pin

/-- No pin move changes the parameters or `DIR`. -/
theorem PinMove.keeps {s t : State} (h : PinMove s t) : t.cfg = s.cfg ∧ t.dir = s.dir := by
  cases h with
  | sample => cases hs : s.inputs <;> simp [pinSample, answerSample, hs]
  | _ => simp [pinCfgOut, pinCfgIn]

theorem PinMoves.keeps {s t : State} (h : PinMoves s t) : t.cfg = s.cfg ∧ t.dir = s.dir := by
  induction h with
  | refl => exact ⟨rfl, rfl⟩
  | tail _ hm ih => exact ⟨hm.keeps.1.trans ih.1, hm.keeps.2.trans ih.2⟩

theorem Move.cfg {s t : State} (h : Move s t) : t.cfg = s.cfg := by
  cases h with
  | pin h => exact h.keeps.1
  | turn => rfl

theorem Moves.cfg {s t : State} (h : Moves s t) : t.cfg = s.cfg := by
  induction h with
  | refl => rfl
  | tail _ hm ih => exact hm.cfg.trans ih

/-! ### The procedures as moves -/

/-- A procedure that raises nothing: it ends in a state with `P`, or meets a fault, which it may only if `F`. -/
def Gives (F : Prop) (P : State → Prop) : Result State → Prop
  | .ok t => P t
  | .error (.raise _ _) => False
  | .error (.fault _) => F

theorem Gives.bind {F : Prop} {P Q : State → Prop} {r : Result State} {f : State → Result State} (h : Gives F P r)
    (k : ∀ t, P t → Gives F Q (f t)) : Gives F Q (r >>= f) := by
  rcases r with (⟨e, t⟩ | g) | t
  · exact h.elim
  · exact h
  · exact k t h

theorem Gives.imp {F G : Prop} {P Q : State → Prop} {r : Result State} (h : Gives F P r) (hf : F → G)
    (k : ∀ t, P t → Q t) : Gives G Q r := by
  rcases r with (⟨e, t⟩ | g) | t
  · exact h.elim
  · exact hf h
  · exact k t h

/-- A procedure of moves, pin moves all but those of `DIR`. -/
abbrev GivesPinMoves (s : State) : Result State → Prop := Gives True (PinMoves s)

/-- Pin moves go on with pin moves. -/
theorem GivesPinMoves.bind {s : State} {r : Result State} {f : State → Result State} (h : GivesPinMoves s r)
    (k : ∀ t, t.cfg = s.cfg → GivesPinMoves t (f t)) : GivesPinMoves s (r >>= f) :=
  Gives.bind h fun t ht => (k t ht.keeps.1).imp id fun _ hu => ht.trans hu

/-- Pin moves may begin before a procedure of pin moves. -/
theorem GivesPinMoves.after {s t : State} {r : Result State} (hm : PinMoves s t) (h : GivesPinMoves t r) :
    GivesPinMoves s r :=
  h.imp id fun _ ht => hm.trans ht

theorem pinMoves_delay (us : Nat) (s : State) : PinMoves s (delay us s) := .single .delay

theorem pinSet_pinMoves {p : Pin} {s : State} (hr : p = .rw → s.cfg.hasRw = true) (v : Bool) :
    GivesPinMoves s (pinSet p v s) := by
  unfold pinSet
  split
  · exact .single (.set ‹_› hr)
  · trivial

theorem configureOutputs_pinMoves {is : List Nat} {s : State} (hi : ∀ i ∈ is, i < s.cfg.n) :
    PinMoves s (configureOutputs is s) := by
  induction is generalizing s with
  | nil => exact .refl
  | cons i is ih =>
    have hm : PinMove s (pinCfgOut (.d i) false s) := .cfgOut (hi i (by simp))
    exact .head hm (ih fun j hj => hm.keeps.1 ▸ hi j (by simp [hj]))

theorem configureInputs_pinMoves {is : List Nat} {s : State} (hi : ∀ i ∈ is, i < s.cfg.n) :
    PinMoves s (configureInputs is s) := by
  induction is generalizing s with
  | nil => exact .refl
  | cons i is ih =>
    have hm : PinMove s (pinCfgIn (.d i) s) := .cfgIn (hi i (by simp))
    exact .head hm (ih fun j hj => hm.keeps.1 ▸ hi j (by simp [hj]))

theorem driveLines_pinMoves (level : Nat → Bool) (is : List Nat) (s : State) :
    GivesPinMoves s (driveLines level is s) := by
  induction is generalizing s with
  | nil => exact .refl
  | cons i is ih => exact GivesPinMoves.bind (pinSet_pinMoves (by simp) (level i)) fun t _ => ih t

theorem sampleLines_pinMoves (is : List Nat) {s : State} (hr : s.cfg.hasRw = true) :
    PinMoves s (sampleLines is s).2 := by
  induction is generalizing s with
  | nil => exact .refl
  | cons i is ih =>
    have hm : PinMove s (pinSample (.d i) s).2 := .sample hr
    exact .head hm (ih (by rw [hm.keeps.1]; exact hr))

theorem setReadWrite_pinMoves (v : Bool) (s : State) : GivesPinMoves s (setReadWrite v s) := by
  unfold setReadWrite
  split
  · exact pinSet_pinMoves (fun _ => ‹_›) v
  · exact .refl

theorem driveByte_pinMoves (path : Path) (v : Byte) (s : State) : GivesPinMoves s (driveByte path v s) := by
  cases path with
  | single => exact driveLines_pinMoves _ _ s
  | split =>
    exact (driveLines_pinMoves _ _ s).bind fun t _ =>
      .after (pinMoves_delay _ t) <| .bind (pinSet_pinMoves (by simp) false) fun t _ =>
      .after (pinMoves_delay _ t) <| .bind (pinSet_pinMoves (by simp) true) fun t _ => driveLines_pinMoves _ _ t

/-- Moves that end with `DIR` at a target. -/
structure Turns (d : Direction) (s t : State) : Prop where
  moves : Moves s t
  dir : t.dir = dirOf d

/-- A procedure that ends with `DIR` at a target. -/
abbrev GivesTurn (d : Direction) (s : State) : Result State → Prop := Gives True (Turns d s)

/-- Pin moves after a turn leave `DIR` as it is. -/
theorem GivesTurn.bind {d : Direction} {s : State} {r : Result State} {f : State → Result State}
    (h : GivesTurn d s r) (k : ∀ t, t.cfg = s.cfg → GivesPinMoves t (f t)) : GivesTurn d s (r >>= f) :=
  Gives.bind h fun t ht => (k t ht.moves.cfg).imp id fun _ hu => ⟨ht.moves.trans hu.moves, hu.keeps.2.trans ht.dir⟩

/-- SET_DIRECTION ends with its target, from any state (R100). -/
theorem setDirection_turns (d : Direction) (s : State) : GivesTurn d s (setDirection d s) := by
  have hlines (t : State) : ∀ i ∈ dataLines t.cfg, i < t.cfg.n := fun _ => List.mem_range.mp
  unfold setDirection
  split
  · exact ⟨.refl, ‹_›⟩
  · cases d with
    | driving =>
      refine Gives.bind (setReadWrite_pinMoves false s) fun t ht => ⟨.tail ?_ (.turn .driving), rfl⟩
      exact ht.moves.trans (configureOutputs_pinMoves (hlines t)).moves
    | released =>
      refine Gives.bind (setReadWrite_pinMoves true _) fun t ht => ⟨.tail ?_ (.turn .released), rfl⟩
      exact (configureInputs_pinMoves (hlines s)).moves.trans ht.moves

/-- The status read with its levels forgotten is a sequence of steps (R117). -/
theorem readCore_map_snd (s : State) : (readCore s).map Prod.snd = (do
    let s ← setDirection .released s
    let s ← pinSet .rw true s
    let s ← pinSet .rs false s
    let s ← pinSet .e true s
    let s ← pinSet .e false (sampleLines (dataLines s.cfg) (delay holdUs s)).2
    .ok (delay holdUs s)) := by
  change Prod.snd <$> readCore s = _
  simp only [readCore, map_bind]
  rfl

/-- The status read ends with Released (R117, R119). -/
theorem readCore_turns {s : State} (hr : s.cfg.hasRw = true) :
    GivesTurn .released s ((readCore s).map Prod.snd) := by
  have hsample {t : State} (hc : t.cfg = s.cfg) : PinMoves t (sampleLines (dataLines t.cfg) (delay holdUs t)).2 :=
    .head .delay (sampleLines_pinMoves _ (hc ▸ hr :))
  rw [readCore_map_snd]
  exact (setDirection_turns .released s).bind fun t ht =>
    .bind (pinSet_pinMoves (fun _ => ht ▸ hr) true) fun u hu =>
    .bind (pinSet_pinMoves (by simp) false) fun v hv =>
    .bind (pinSet_pinMoves (by simp) true) fun w hw =>
    .after (hsample (hw.trans (hv.trans (hu.trans ht)))) <|
    .bind (pinSet_pinMoves (by simp) false) fun x _ => pinMoves_delay _ x

/-- Step 1 of a write begins with the status read, its levels forgotten (R112). -/
theorem busyCheck_eq_bind {s : State} (hr : s.cfg.hasRw = true) :
    busyCheck s = (readCore s).map Prod.snd >>= pinSet .rw false := by
  rw [busyCheck, if_pos hr]
  cases readCore s <;> rfl

theorem busyCheck_moves (s : State) : Gives True (Moves s) (busyCheck s) := by
  cases hr : s.cfg.hasRw with
  | false =>
    rw [busyCheck_without hr]
    exact .refl
  | true =>
    rw [busyCheck_eq_bind hr]
    have hrw : GivesTurn .released s ((readCore s).map Prod.snd >>= pinSet .rw false) :=
      (readCore_turns hr).bind fun t hc => pinSet_pinMoves (fun _ => hc ▸ hr) false
    exact hrw.imp id fun _ => Turns.moves

/-- Steps 2 to 7 of a write end with Driving (R111, R115). -/
theorem transferByte_turns (path : Path) (v : Byte) (rs : Bool) (s : State) :
    GivesTurn .driving s (transferByte path v rs s) :=
  (setDirection_turns .driving s).bind fun t _ =>
    .bind (pinSet_pinMoves (by simp) rs) fun t _ =>
    .bind (pinSet_pinMoves (by simp) true) fun t _ =>
    .bind (driveByte_pinMoves path v t) fun t _ =>
    .after (pinMoves_delay _ t) <| .bind (pinSet_pinMoves (by simp) false) fun t _ => setReadWrite_pinMoves false t

/-- A write ends with Driving (R115). -/
theorem writeCore_turns (v : Byte) (c : Bool) (n : Nat) (path : Path) (s : State) :
    GivesTurn .driving s (writeCore v c n path s) :=
  Gives.bind (busyCheck_moves s) fun t ht =>
    (GivesTurn.bind (f := fun t => .ok (delay (gapUs + n) t)) (transferByte_turns path v (rsLevel c) t)
      fun t _ => pinMoves_delay _ t).imp id fun _ hu => ⟨ht.trans hu.moves, hu.dir⟩

end Sys2Proof.Machine

/-!
PROOFS. What every move keeps: the pins are as the trace leaves them (`10_state.md` R24), `DIR` never becomes Unknown
(R22), and without a Read/Write line there is no event on one and no sample (`20_memory.md` R55).
-/
namespace Sys2Proof.Machine

/-! ### The pins as the trace leaves them -/

/-- What an event leaves of a pin, it leaves of the pin the events before it left. -/
theorem replayPin_concat (p : Pin) (evs : List Event) (ev : Event) :
    replayPin p (evs ++ [ev]) = pinAfter p (replayPin p evs) ev := by
  simp [replayPin]

/-- A pin that exists reads as it was put, every other pin as before. -/
theorem pinState_putPin {p : Pin} {s : State} (hp : ∀ i, p = .d i → i < s.pinD.length) (x : PinState) (q : Pin) :
    pinState q (putPin p x s) = if p = q then x else pinState q s := by
  cases p with
  | d i =>
    have hi := hp i rfl
    cases q with
    | d j => by_cases hij : i = j <;> simp_all [List.getD_eq_getElem?_getD]
    | _ => simp
  | _ => cases q <;> simp

/-- An output exists. -/
theorem lt_of_isOutput {p : Pin} {s : State} (ho : isOutput (pinState p s) = true) {i : Nat} (hp : p = .d i) :
    i < s.pinD.length := by
  subst hp
  by_contra hi
  simp [List.getD_eq_getElem?_getD, List.getElem?_eq_none (Nat.le_of_not_lt hi)] at ho

/-- One data pin for each line, and every pin as the trace leaves it (R24). -/
structure Accounted (s : State) : Prop where
  lines : s.pinD.length = s.cfg.n
  explained : s.Explained

/-- An event that puts a pin, recorded with what it puts. -/
theorem Accounted.record_putPin {s : State} (h : Accounted s) {p : Pin} {x : PinState} {ev : Event}
    (hp : ∀ i, p = .d i → i < s.pinD.length) (hev : ∀ q y, pinAfter q y ev = if p = q then x else y) :
    Accounted (record ev (putPin p x s)) where
  lines := by cases p <;> simpa using h.lines
  explained := by
    intro q
    have hput : pinState q (record ev (putPin p x s)) = pinState q (putPin p x s) := by cases q <;> rfl
    rw [hput, pinState_putPin hp, record_trace, putPin_trace, replayPin_concat, hev, h.explained q]

/-- An event that puts no pin. -/
theorem Accounted.of_pins_same {s t : State} (h : Accounted s) {ev : Event} (hev : ∀ q y, pinAfter q y ev = y)
    (hc : t.cfg = s.cfg) (hd : t.pinD = s.pinD) (hpins : t.pinE = s.pinE ∧ t.pinRs = s.pinRs ∧ t.pinRw = s.pinRw)
    (ht : t.trace = s.trace ++ [ev]) : Accounted t where
  lines := by rw [hd, hc, h.lines]
  explained := by
    intro q
    have hq : pinState q t = pinState q s := by
      obtain ⟨hE, hRs, hRw⟩ := hpins
      cases q <;> simp [hd, hE, hRs, hRw]
    rw [hq, ht, replayPin_concat, hev, h.explained q]

theorem PinMove.accounted {s t : State} (h : PinMove s t) (hs : Accounted s) : Accounted t := by
  cases h with
  | cfgOut hi => exact hs.record_putPin (by rintro _ ⟨⟩; exact hs.lines ▸ hi) fun _ _ => rfl
  | cfgIn hi => exact hs.record_putPin (by rintro _ ⟨⟩; exact hs.lines ▸ hi) fun _ _ => rfl
  | set ho hr => exact hs.record_putPin (fun _ => lt_of_isOutput ho) fun _ _ => rfl
  | @sample i _ hr =>
    have hanswer : (answerSample s).2.cfg = s.cfg ∧ (answerSample s).2.pinD = s.pinD ∧
        ((answerSample s).2.pinE = s.pinE ∧ (answerSample s).2.pinRs = s.pinRs ∧ (answerSample s).2.pinRw = s.pinRw) ∧
        (answerSample s).2.trace = s.trace := by
      cases hi : s.inputs <;> simp [answerSample, hi]
    obtain ⟨hcfg, hd, hcontrol, htrace⟩ := hanswer
    exact hs.of_pins_same (ev := .sample (.d i) _) (fun _ _ => rfl) hcfg hd hcontrol (congrArg (· ++ [_]) htrace)
  | delay => exact hs.of_pins_same (fun _ _ => rfl) rfl rfl ⟨rfl, rfl, rfl⟩ rfl

theorem Moves.accounted {s t : State} (h : Moves s t) (hs : Accounted s) : Accounted t := by
  induction h with
  | refl => exact hs
  | tail _ hm ih =>
    cases hm with
    | pin hm => exact hm.accounted ih
    | turn => exact ⟨ih.lines, ih.explained⟩

/-! ### The direction -/

/-- A target is not Unknown (R22). -/
theorem dirOf_ne_unknown (d : Direction) : dirOf d ≠ .unknown := by cases d <;> decide

theorem Moves.dir_ne_unknown {s t : State} (h : Moves s t) (hs : s.dir ≠ .unknown) : t.dir ≠ .unknown := by
  induction h with
  | refl => exact hs
  | tail _ hm ih =>
    cases hm with
    | pin hm => rw [hm.keeps.2]; exact ih
    | turn d => exact dirOf_ne_unknown d

/-! ### Without a Read/Write line -/

/-- An event on the Read/Write line, or a sample (R55, R112). -/
def asksFarSide (ev : Event) : Prop := eventPin ev = some .rw ∨ ∃ p b, ev = .sample p b

/-- From one state to another nothing is asked of the far side: no event on the Read/Write line, no sample, and the
environment as it was. -/
structure AsksNothing (s t : State) : Prop where
  inputs : t.inputs = s.inputs
  drawn : t.drawn = s.drawn
  events : ∃ evs, t.trace = s.trace ++ evs ∧ ∀ ev ∈ evs, ¬asksFarSide ev

theorem AsksNothing.refl (s : State) : AsksNothing s s := ⟨rfl, rfl, [], by simp, by simp⟩

theorem AsksNothing.trans {s t u : State} (h : AsksNothing s t) (k : AsksNothing t u) : AsksNothing s u := by
  obtain ⟨hi, hd, xs, hx, nx⟩ := h
  obtain ⟨ki, kd, ys, hy, ny⟩ := k
  refine ⟨ki.trans hi, kd.trans hd, xs ++ ys, by rw [hy, hx, List.append_assoc], fun ev hev => ?_⟩
  exact (List.mem_append.mp hev).elim (nx ev) (ny ev)

theorem asksNothing_record {s t : State} {ev : Event} (hi : t.inputs = s.inputs) (hd : t.drawn = s.drawn)
    (ht : t.trace = s.trace) (hev : ¬asksFarSide ev) : AsksNothing s (record ev t) :=
  ⟨hi, hd, [ev], by rw [record_trace, ht], by simpa using hev⟩

theorem PinMove.asksNothing {s t : State} (h : PinMove s t) (hr : s.cfg.hasRw = false) : AsksNothing s t := by
  cases h with
  | @set p v _ _ hrw =>
    have hp : p ≠ .rw := fun hp => by simp [hrw hp] at hr
    exact asksNothing_record (by simp) (by simp) (by simp) (by simp [asksFarSide, eventPin, hp])
  | sample hr' => simp [hr'] at hr
  | _ => exact asksNothing_record (by simp) (by simp) (by simp) (by simp [asksFarSide, eventPin])

theorem Moves.asksNothing {s t : State} (h : Moves s t) (hr : s.cfg.hasRw = false) : AsksNothing s t := by
  induction h with
  | refl => exact .refl s
  | tail hs hm ih =>
    refine ih.trans ?_
    cases hm with
    | pin hm => exact hm.asksNothing (by rw [Moves.cfg hs]; exact hr)
    | turn => exact ⟨rfl, rfl, [], by simp, by simp⟩

end Sys2Proof.Machine

/-!
PROOFS. What an instruction can answer, said once: it is refused, it takes an error in the state it was asked in, it
meets a fault, which it does from no resting state, or it answers OK after a sequence of phases. The phases are the
procedures of layer L1 and the assignments to `MODE` and to the mirror (`10_state.md` R20, R31).
-/
namespace Sys2Proof.Machine

/-! ### SET_DIRECTION from rest -/

/-- The state SET_DIRECTION leaves from rest (R101, R102, R103). -/
def afterDirection (d : Direction) (s : State) : State :=
  match d with
  | .driving =>
    { s with
      dir := .driving
      pinD := if s.dir = .driving then s.pinD else uniformPins s.cfg.n (.output false)
      pinRw := if s.cfg.hasRw then .output false else s.pinRw
      trace := s.trace ++ directionEvents s.cfg s.dir .driving }
  | .released =>
    { s with
      dir := .released
      pinD := uniformPins s.cfg.n (.input (releasedPull s.cfg))
      pinRw := if s.cfg.hasRw ∧ s.dir ≠ .released then .output true else s.pinRw
      trace := s.trace ++ directionEvents s.cfg s.dir .released }

/-- SET_DIRECTION completes from rest (R100). -/
theorem setDirection_eq {s : State} (h : s.Resting) (d : Direction) :
    setDirection d s = .ok (afterDirection d s) := by
  cases d with
  | released => exact setDirection_released h
  | driving =>
    obtain ⟨pins, hs, -, -, hmove, hheld⟩ := setDirection_driving h
    have hpins : pins = if s.dir = .driving then s.pinD else uniformPins s.cfg.n (.output false) := by
      split
      · exact hheld ‹_›
      · exact hmove ‹_›
    rw [hs, hpins]
    rfl

/-- SET_DIRECTION leaves a resting state. -/
theorem afterDirection_resting {s : State} (h : s.Resting) (d : Direction) : (afterDirection d s).Resting := by
  cases d with
  | driving =>
    obtain ⟨pins, hs, hl, ho, -⟩ := setDirection_driving h
    rw [setDirection_eq h] at hs
    rw [Except.ok.inj hs]
    exact {
      enable := h.enable
      lines := hl
      driving := fun _ => ho
      released := nofun
      unknown := nofun
      select := h.select
      readWrite := fun hr => congrArg isOutput (if_pos hr)
      absent := fun hr => (if_neg (ne_true_of_eq_false hr)).trans (h.absent hr)
      writeMode := fun hr _ => if_pos hr
      eightLines := h.eightLines
      fourLines := h.fourLines }
  | released =>
    exact {
      enable := h.enable
      lines := uniformPins_length _ _
      driving := nofun
      released := fun _ _ hp => uniformPins_mem hp
      unknown := nofun
      select := h.select
      readWrite := fun hr => by
        show isOutput (if _ then _ else _) = true
        split
        · rfl
        · exact h.readWrite hr
      absent := fun hr => (if_neg fun hc => ne_true_of_eq_false hr hc.1).trans (h.absent hr)
      writeMode := nofun
      eightLines := h.eightLines
      fourLines := h.fourLines }

/-! ### Phases -/

/-- One completed procedure of layer L1, or a delay. The split path needs four lines, which `MODE` stands for at
rest (I-e). -/
inductive BusPhase : State → State → Prop
  | direction {d : Direction} {s t : State} (h : setDirection d s = .ok t) : BusPhase s t
  | read {levels : List Bool} {s t : State} (hr : s.cfg.hasRw = true) (h : readCore s = .ok (levels, t)) :
      BusPhase s t
  | transfer {path : Path} {v : Byte} {rs : Bool} {s t : State} (hp : path = .split → s.cfg.n = 4)
      (h : transferByte path v rs s = .ok t) : BusPhase s t
  | write {v : Byte} {c : Bool} {n : Nat} {path : Path} {s t : State}
      (hp : path = .split → s.cfg.n = 4 ∨ s.mode = .fourBit) (h : writeCore v c n path s = .ok t) : BusPhase s t
  | pause {us : Nat} {s : State} : BusPhase s (delay us s)

/-- The lines whose rows an instruction writes (R23, R144, R145, R146). -/
def writtenLines : Instr → List Byte
  | .putLine line _ _ => [line]
  | .clearLine line => [line]
  | .pushLine _ _ => [1, 2]
  | _ => []

/-- One phase of an instruction: on the bus, or an assignment to the state it is allowed. -/
inductive Phase (i : Instr) : State → State → Prop
  | bus {s t : State} (h : BusPhase s t) : Phase i s t
  | row {line : Byte} {text : List Byte} {s : State} (hl : line ∈ writtenLines i) : Phase i s (setRow line text s)
  | mode {m : Mode} {s : State} (hi : i = .reset) (hm : m ≠ .unset) (h8 : m = .eightBit → s.cfg.n = 8)
      (h4 : m = .fourBit → s.cfg.n = 4) : Phase i s (setMode m s)
  | answers {levels : List Bool} {s : State} (hr : s.cfg.hasRw = true) : Phase i s { s with inputs := levels }

/-- Any number of phases. -/
abbrev Phases (i : Instr) : State → State → Prop := Relation.ReflTransGen (Phase i)

theorem BusPhase.kept {s t : State} (h : BusPhase s t) : Kept s t := by
  cases h with
  | @direction d _ _ h => exact (h ▸ kept_setDirection d s :)
  | read hr h => exact (h ▸ kept_readCore hr :)
  | @transfer path v rs _ _ _ h => exact (h ▸ kept_transferByte path v rs s :)
  | @write v c n path _ _ _ h => exact (h ▸ kept_writeCore v c n path s :)
  | @pause us => exact kept_delay us s

theorem BusPhase.moves {s t : State} (h : BusPhase s t) : Moves s t := by
  cases h with
  | @direction d _ _ h => exact (h ▸ setDirection_turns d s : Gives _ _ (.ok t)).moves
  | @read levels _ _ hr h =>
    exact (h ▸ readCore_turns hr : Gives _ _ ((Except.ok (levels, t) : Result _).map Prod.snd)).moves
  | @transfer path v rs _ _ _ h => exact (h ▸ transferByte_turns path v rs s : Gives _ _ (.ok t)).moves
  | @write v c n path _ _ _ h => exact (h ▸ writeCore_turns v c n path s : Gives _ _ (.ok t)).moves
  | @pause us => exact (pinMoves_delay us s).moves

/-- At rest the split path of a write has its four lines (I-e). -/
theorem split_lines {s : State} (h : s.Resting) {path : Path} (hp : path = .split → s.cfg.n = 4 ∨ s.mode = .fourBit) :
    path = .split → s.cfg.n = 4 :=
  fun hs => (hp hs).elim id h.fourLines

/-- From rest a phase on the bus is one of the states its rule gives. -/
theorem BusPhase.cases_resting {s t : State} (hs : s.Resting) (h : BusPhase s t) :
    (∃ d, t = afterDirection d s) ∨ (s.cfg.hasRw = true ∧ t = afterRead s) ∨
    (∃ path v rs, (path = .split → s.cfg.n = 4) ∧ t = afterTransfer path v rs s) ∨
    (∃ path v c n, (path = .split → s.cfg.n = 4) ∧ t = afterWrite v c n path s) ∨ ∃ us, t = delay us s := by
  cases h with
  | @direction d _ _ h =>
    rw [setDirection_eq hs] at h
    exact .inl ⟨d, (Except.ok.inj h).symm⟩
  | read hr h =>
    rw [readCore_eq hs hr] at h
    exact .inr (.inl ⟨hr, (Prod.mk.inj (Except.ok.inj h)).2.symm⟩)
  | @transfer path v rs _ _ hp h =>
    rw [transferByte_eq hs hp] at h
    exact .inr (.inr (.inl ⟨path, v, rs, hp, (Except.ok.inj h).symm⟩))
  | @write v c n path _ _ hp h =>
    rw [writeCore_eq hs (split_lines hs hp)] at h
    exact .inr (.inr (.inr (.inl ⟨path, v, c, n, split_lines hs hp, (Except.ok.inj h).symm⟩)))
  | @pause us => exact .inr (.inr (.inr (.inr ⟨us, rfl⟩)))

theorem BusPhase.resting {s t : State} (h : BusPhase s t) (hs : s.Resting) : t.Resting := by
  obtain ⟨d, rfl⟩ | ⟨hr, rfl⟩ | ⟨path, v, rs, hp, rfl⟩ | ⟨path, v, c, n, hp, rfl⟩ | ⟨us, rfl⟩ := h.cases_resting hs
  · exact afterDirection_resting hs d
  · exact afterRead_resting hs hr
  · exact afterTransfer_resting hs v rs
  · exact afterWrite_resting hs v c n
  · exact record_resting hs _

theorem Phase.resting {i : Instr} {s t : State} (h : Phase i s t) (hs : s.Resting) : t.Resting := by
  cases h with
  | bus h => exact h.resting hs
  | @row line text =>
    unfold setRow
    split
    · exact rows_resting hs text s.row2
    · split
      · exact rows_resting hs s.row1 text
      · exact hs
  | mode _ _ h8 h4 => exact setMode_resting hs h8 h4
  | answers =>
    obtain ⟨h1, h2, h3, h4, h5, h6, h7, h8, h9, h10, h11⟩ := hs
    exact ⟨h1, h2, h3, h4, h5, h6, h7, h8, h9, h10, h11⟩

theorem Phases.resting {i : Instr} {s t : State} (h : Phases i s t) (hs : s.Resting) : t.Resting := by
  induction h with
  | refl => exact hs
  | tail _ hp ih => exact hp.resting ih

/-- `MODE` once set stays set (R28). -/
theorem Phase.mode_ne_unset {i : Instr} {s t : State} (h : Phase i s t) (hs : s.mode ≠ .unset) : t.mode ≠ .unset := by
  cases h with
  | bus h => rw [h.kept.mode]; exact hs
  | row => rw [setRow_mode]; exact hs
  | mode _ hm => exact hm
  | answers => exact hs

theorem Phases.mode_ne_unset {i : Instr} {s t : State} (h : Phases i s t) (hs : s.mode ≠ .unset) :
    t.mode ≠ .unset := by
  induction h with
  | refl => exact hs
  | tail _ hp ih => exact hp.mode_ne_unset ih

/-! ### The procedures as phases -/

/-- A procedure that raises nothing, faults from no resting state, and is a sequence of phases. -/
abbrev Completes (i : Instr) (s : State) : Result State → Prop := Gives (¬s.Resting) (Phases i s)

/-- A procedure that goes on from where phases have led. -/
theorem Completes.gives {i : Instr} {s : State} {Q : State → Prop} {r : Result State} {f : State → Result State}
    (h : Completes i s r) (k : ∀ t, Phases i s t → Gives (¬t.Resting) Q (f t)) : Gives (¬s.Resting) Q (r >>= f) :=
  Gives.bind h fun t ht => (k t ht).imp (fun hf hs => hf (ht.resting hs)) fun _ => id

/-- Procedures one after another (R150). -/
theorem Completes.bind {i : Instr} {s : State} {r : Result State} {f : State → Result State} (h : Completes i s r)
    (k : ∀ t, Phases i s t → Completes i t (f t)) : Completes i s (r >>= f) :=
  h.gives fun t ht => (k t ht).imp id fun _ hu => ht.trans hu

/-- A phase before a procedure. -/
theorem Completes.after {i : Instr} {s t : State} {r : Result State} (hp : Phase i s t) (h : Completes i t r) :
    Completes i s r :=
  h.imp (fun hf hs => hf (hp.resting hs)) fun _ hu => .head hp hu

/-- A procedure of layer L1 that completes from rest. -/
theorem completes_of_bus {i : Instr} {s : State} {r : Result State} {P : State → Prop} (hg : Gives True P r)
    (hb : ∀ t, r = .ok t → BusPhase s t) (hr : s.Resting → ∃ t, r = .ok t) : Completes i s r := by
  rcases r with (⟨e, t⟩ | g) | t
  · exact hg
  · intro hs
    obtain ⟨t, ht⟩ := hr hs
    cases ht
  · exact .single (.bus (hb t rfl))

theorem writeCore_completes (i : Instr) {path : Path} {s : State}
    (hp : path = .split → s.cfg.n = 4 ∨ s.mode = .fourBit) (v : Byte) (c : Bool) (n : Nat) :
    Completes i s (writeCore v c n path s) :=
  completes_of_bus (writeCore_turns v c n path s) (fun _ h => .write hp h)
    fun hs => ⟨_, writeCore_eq hs (split_lines hs hp) v c n⟩

theorem transferByte_completes (i : Instr) {path : Path} {s : State} (hp : path = .split → s.cfg.n = 4) (v : Byte)
    (rs : Bool) : Completes i s (transferByte path v rs s) :=
  completes_of_bus (transferByte_turns path v rs s) (fun _ h => .transfer hp h)
    fun hs => ⟨_, transferByte_eq hs hp v rs⟩

/-- SET_DIRECTION (R100). -/
theorem setDirection_completes (i : Instr) (d : Direction) (s : State) : Completes i s (setDirection d s) :=
  completes_of_bus (setDirection_turns d s) (fun _ h => .direction h) fun hs => ⟨_, setDirection_eq hs d⟩

/-- A write with `MODE` set (R110). -/
theorem writeByte_completes (i : Instr) {s : State} (hm : s.mode ≠ .unset) (v : Byte) (c : Bool) (n : Nat) :
    Completes i s (writeByte v c n s) := by
  unfold writeByte
  split
  · exact absurd ‹_› hm
  · exact writeCore_completes i (by simp) v c n
  · exact writeCore_completes i (fun _ => .inr ‹_›) v c n

/-- The parameters stay as they are along the phases (R5). -/
theorem Phase.cfg {i : Instr} {s t : State} (h : Phase i s t) : t.cfg = s.cfg := by
  cases h with
  | bus h => exact h.kept.cfg
  | row => exact setRow_cfg ..
  | mode | answers => rfl

theorem Phases.cfg {i : Instr} {s t : State} (h : Phases i s t) : t.cfg = s.cfg := by
  induction h with
  | refl => rfl
  | tail _ hp ih => exact hp.cfg.trans ih

/-- What a procedure ends with, said of one that raises nothing. -/
theorem Gives.and_ends {F : Prop} {P Q : State → Prop} {r : Result State} (h : Gives F P r) (k : Ends Q r) :
    Gives F (fun t => P t ∧ Q t) r := by
  rcases r with (⟨e, t⟩ | g) | t
  · exact h
  · exact h
  · exact ⟨h, k⟩

theorem kept_resetSuffix (s : State) : Ends (Kept s) (resetSuffix s) :=
  (kept_issueEntry .displayOff s).bind fun t _ h =>
    (kept_then h (kept_issueEntry .displayClear t)).bind fun u _ h => kept_then h (kept_issueEntry .modeAutoinc u)

/-- What RESET completes with: its phases, and `MODE` as it assigned it (R136). -/
abbrev CompletesReset (m : Mode) (s : State) : Result State → Prop :=
  Gives (¬s.Resting) fun t => Phases .reset s t ∧ t.mode = m

/-- The suffix of RESET, once `MODE` is set, keeps it (R135). -/
theorem CompletesReset.suffix {m : Mode} {s : State} {r : Result State} (hm : m ≠ .unset)
    (h : CompletesReset m s r) : CompletesReset m s (r >>= resetSuffix) := by
  refine Gives.bind h fun t ht => ?_
  obtain ⟨hp, hmode⟩ := ht
  have hset : t.mode ≠ .unset := hmode ▸ hm
  have hsuffix : Completes .reset t (resetSuffix t) :=
    .bind (writeByte_completes .reset hset _ true _) fun u hu =>
      .bind (writeByte_completes .reset (hu.mode_ne_unset hset) _ true _) fun v hv =>
      writeByte_completes .reset (hv.mode_ne_unset (hu.mode_ne_unset hset)) _ true _
  exact (hsuffix.and_ends (kept_resetSuffix t)).imp (fun hf hs => hf (hp.resting hs))
    fun u hu => ⟨hp.trans hu.1, hu.2.mode.trans hmode⟩

/-- One send of RESET, on the single path (R132, R133). -/
theorem send_completes {i : Instr} {s : State} (v : Byte) (n : Nat) : Completes i s (writeCore v true n .single s) :=
  writeCore_completes i (by simp) v true n

/-- RESET on eight lines (R132, R136). -/
theorem resetDisplay_completes_eight {s : State} (hn : s.cfg.n = 8) :
    CompletesReset .eightBit s (resetDisplay s) := by
  have hprefix : CompletesReset .eightBit s (resetPrefix8 s) :=
    Completes.gives (send_completes _ _) fun t ht => Completes.gives (send_completes _ _) fun u hu =>
    Completes.gives (send_completes _ _) fun v hv => Completes.gives (send_completes _ _) fun w hw => by
      have hp : Phases .reset s w := ht.trans (hu.trans (hv.trans hw))
      exact ⟨hp.tail (.mode rfl (by decide) (fun _ => hp.cfg ▸ hn) nofun), rfl⟩
  rw [resetDisplay, if_pos hn]
  exact hprefix.suffix (by decide)

/-- RESET on four lines (R133, R134, R136). -/
theorem resetDisplay_completes_four {s : State} (hn : s.cfg.n = 4) :
    CompletesReset .fourBit s (resetDisplay s) := by
  have hprefix : CompletesReset .fourBit s (resetPrefix4 s) :=
    Completes.gives (send_completes _ _) fun t ht => Completes.gives (send_completes _ _) fun u hu =>
    Completes.gives (send_completes _ _) fun v hv => Completes.gives (send_completes _ _) fun w hw => by
      have hp : Phases .reset s w := ht.trans (hu.trans (hv.trans hw))
      have hn' : w.cfg.n = 4 := hp.cfg ▸ hn
      refine Completes.gives (writeCore_completes .reset (fun _ => .inl hn') _ true _) fun x hx => ?_
      exact ⟨(hp.trans hx).tail (.mode rfl (by decide) nofun fun _ => hx.cfg ▸ hn'), rfl⟩
  have hne : s.cfg.n ≠ 8 := by omega
  rw [resetDisplay, if_neg hne, if_pos hn]
  exact hprefix.suffix (by decide)

/-- START with `MODE` set (R141). -/
theorem startDisplay_completes (i : Instr) {s : State} (hm : s.mode ≠ .unset) : Completes i s (startDisplay s) :=
  .bind (writeByte_completes i hm _ true _) fun _ ht => writeByte_completes i (ht.mode_ne_unset hm) _ true _

/-- The data bytes of a text, with `MODE` set (R144). -/
theorem writeText_completes (i : Instr) (typing : Bool) (text : List Byte) {s : State} (hm : s.mode ≠ .unset) :
    Completes i s (writeText typing text s) := by
  induction text generalizing s with
  | nil => exact .refl
  | cons c rest ih =>
    refine .bind (writeByte_completes i hm c false _) fun t ht => ?_
    have hmt := ht.mode_ne_unset hm
    unfold typingPause
    split
    · exact .after (.bus .pause) (ih hmt)
    · exact ih hmt

/-- A line write with `MODE` set, on a line that has a row (R144). -/
theorem putLine_completes {i : Instr} {line : Byte} (hi : line ∈ writtenLines i) (hl : legalLine line = true)
    (text : List Byte) (typing : Bool) {s : State} (hm : s.mode ≠ .unset) :
    Completes i s (putLine line text typing s) := by
  obtain ⟨address, ha⟩ := exists_rowStart hl
  have hset : setLine line s = setAddress address s := by rw [setLine, ha]
  rw [putLine, hset]
  refine .bind (writeByte_completes i hm _ true _) fun t ht => ?_
  refine .after (.row (text := text) hi) ?_
  exact writeText_completes i typing text (by rw [setRow_mode]; exact ht.mode_ne_unset hm)

/-- PUSH_LINE with `MODE` set (R146). -/
theorem pushLine_completes (text : List Byte) (typing : Bool) {s : State} (hm : s.mode ≠ .unset) :
    Completes (.pushLine text typing) s (pushLine text typing s) := by
  refine .bind (putLine_completes (by simp [writtenLines]) rfl blankRow false hm) fun t ht => ?_
  have hmt := ht.mode_ne_unset hm
  refine .bind (putLine_completes (by simp [writtenLines]) rfl t.row2 false hmt) fun u hu => ?_
  have hmu := hu.mode_ne_unset hmt
  refine .bind (putLine_completes (by simp [writtenLines]) rfl blankRow false hmu) fun v hv => ?_
  have hmv := hv.mode_ne_unset hmu
  refine .bind (putLine_completes (by simp [writtenLines]) rfl text typing hmv) fun w _ => ?_
  cases typing
  · exact .refl
  · exact .single (.bus .pause)

/-- SET_LINE with `MODE` set, on a line that has a row (R143). -/
theorem setLine_completes (i : Instr) {line : Byte} (hl : legalLine line = true) {s : State} (hm : s.mode ≠ .unset) :
    Completes i s (setLine line s) := by
  obtain ⟨address, ha⟩ := exists_rowStart hl
  rw [setLine, ha]
  exact writeByte_completes i hm _ true _

/-! ### What an instruction answers -/

/-- The answers an instruction can give in a state. -/
inductive Answers (i : Instr) (s : State) : Host.Outcome State Fault Refusal → Prop
  | refused (m : Refusal) (hw : WellFormed s.cfg i = false) : Answers i s (.refused m)
  | error (e : Error) : Answers i s (.next (takeError e s))
  | fault (f : Fault) (hs : ¬s.Resting) : Answers i s (.fault f)
  | done (d : Byte) (t : State) (h : Phases i s t) : Answers i s (.next (respond .ok d t))

theorem Gives.answers {i : Instr} {s : State} {P : State → Prop} {r : Result State} (h : Gives (¬s.Resting) P r)
    (hp : ∀ t, P t → Phases i s t) : Answers i s (finish r) := by
  rcases r with (⟨e, t⟩ | g) | t
  · exact h.elim
  · exact .fault g h
  · exact .done 0 t (hp t h)

theorem Completes.answers {i : Instr} {s : State} {r : Result State} (h : Completes i s r) : Answers i s (finish r) :=
  Gives.answers h fun _ => id

/-- A write completes with `MODE` set, and takes an error without (R110). -/
theorem writeByte_answers (i : Instr) (v : Byte) (c : Bool) (n : Nat) (s : State) :
    Answers i s (finish (writeByte v c n s)) := by
  by_cases hm : s.mode = .unset
  · rw [writeByte_unset hm]
    exact .error .configurationError
  · exact (writeByte_completes i hm v c n).answers

/-- A status read begun in a state phases lead to (R117). -/
theorem readCore_answers {i : Instr} {s t : State} (hr : s.cfg.hasRw = true) (hp : Phases i s t) :
    Answers i s (finishRead (readCore t)) := by
  have hrt : t.cfg.hasRw = true := hp.cfg ▸ hr
  have hg := readCore_turns hrt
  cases hread : readCore t with
  | ok a => exact .done _ _ (hp.tail (.bus (.read hrt hread)))
  | error stop =>
    rw [hread] at hg
    cases stop with
    | raise e u => exact hg.elim
    | fault f =>
      refine .fault f fun hs => ?_
      rw [readCore_eq (hp.resting hs) hrt] at hread
      cases hread

/-- A format that needs other lines than there may be (R76, R77, R80). -/
theorem answers_ite {i : Instr} {s : State} {p : Prop} [Decidable p] {o : Host.Outcome State Fault Refusal}
    {m : Refusal} (hw : ¬p → WellFormed s.cfg i = false) (h : p → Answers i s o) :
    Answers i s (if p then o else .refused m) := by
  split
  · exact h ‹_›
  · exact .refused m (hw ‹_›)

/-- RESET by its line count (R130, R131). -/
theorem exec_reset_answers (s : State) : Answers .reset s (exec .reset s) := by
  by_cases h8 : s.cfg.n = 8
  · exact Gives.answers (resetDisplay_completes_eight h8) fun _ => And.left
  · by_cases h4 : s.cfg.n = 4
    · exact Gives.answers (resetDisplay_completes_four h4) fun _ => And.left
    · rw [exec_reset_unsupported h4 h8]
      exact .error _

/-- A procedure that begins with SET_LINE and fails where it does: on a line without a row, or before RESET (R165). -/
theorem line_answers {i : Instr} {line : Byte} {s : State} {r : Result State}
    (hc : legalLine line = true → s.mode ≠ .unset → Completes i s r)
    (he : ∀ e, setLine line s = .error (.raise e s) → r = .error (.raise e s)) : Answers i s (finish r) := by
  have herror (e : Error) (h : setLine line s = .error (.raise e s)) : Answers i s (finish r) := by
    rw [he e h]
    exact .error e
  by_cases hl : legalLine line = true
  · by_cases hm : s.mode = .unset
    · exact herror _ (setLine_unset hm hl)
    · exact (hc hl hm).answers
  · obtain ⟨h1, h2⟩ : line ≠ 1 ∧ line ≠ 2 := by simpa [legalLine] using hl
    exact herror _ (setLine_bad h1 h2 s)

/-- What an instruction can answer, in every state. -/
theorem exec_answers (i : Instr) (s : State) : Answers i s (exec i s) := by
  have hn {k : Nat} (h : ¬s.cfg.n = k) : (s.cfg.n == k) = false := beq_false_of_ne h
  cases i with
  | setDirection d => exact (setDirection_completes _ d s).answers
  | write v c n => exact writeByte_answers _ v c n.toNat s
  | read =>
    cases hr : s.cfg.hasRw with
    | false => exact exec_read_absent hr ▸ .error _
    | true => exact exec_read_present hr ▸ readCore_answers hr .refl
  | reset => exact exec_reset_answers s
  | start =>
    by_cases hm : s.mode = .unset
    · exact exec_start_unset hm ▸ .error _
    · exact (startDisplay_completes .start hm).answers
  | setLine line => exact line_answers (fun hl hm => setLine_completes _ hl hm) fun _ => id
  | putLine line text typing =>
    exact line_answers (fun hl hm => putLine_completes (by simp [writtenLines]) hl text typing hm)
      fun _ h => putLine_of_setLine_raises h text typing
  | clearLine line =>
    exact line_answers (fun hl hm => putLine_completes (by simp [writtenLines]) hl blankRow false hm)
      fun _ h => putLine_of_setLine_raises h blankRow false
  | pushLine text typing =>
    by_cases hm : s.mode = .unset
    · exact exec_pushLine_unset hm text typing ▸ .error _
    · exact (pushLine_completes text typing hm).answers
  | rawReset8 r => exact answers_ite hn fun _ => (send_completes _ _).answers
  | rawReset4Three r => exact answers_ite hn fun _ => (send_completes _ _).answers
  | rawReset4Two r => exact answers_ite hn fun _ => (send_completes _ _).answers
  | busB8 rs v => exact answers_ite hn fun _ => (transferByte_completes _ (by simp) v rs).answers
  | busB4 rs high low => exact answers_ite hn fun h => (transferByte_completes _ (fun _ => h) _ rs).answers
  | busR4 v => exact answers_ite hn fun _ => (transferByte_completes _ (by simp) _ false).answers
  | busSt w =>
    exact answers_ite (by simp [WellFormed]) fun hr => readCore_answers hr (.single (.answers hr))
  | command | clear | cmdDefault | cmdDisplayOn | cmdDisplayOff | cmdDisplayClear | cmdCursorHome | cmdModeAutoinc
  | cmdFuncsel8Bit | cmdFuncsel4Bit | cmdDdramSet => exact writeByte_answers _ _ true _ s

end Sys2Proof.Machine

/-!
PROOFS. What holds of every instruction and every step, from `exec_answers`: the frames, the invariants of every state,
and those of the resting states (`10_state.md` R31, `60_exceptions.md` R166).
-/
namespace Sys2Proof.Machine

/-! ### What the phases keep -/

/-- What every phase keeps: the parameters, the responses, the requests, the number of data lines, the past of the
trace, and the pin of an absent Read/Write line. -/
structure Grows (s t : State) : Prop where
  cfg : t.cfg = s.cfg
  responses : t.responses = s.responses
  requests : t.requests = s.requests
  lines : t.pinD.length = s.pinD.length
  past : s.trace <+: t.trace
  absent : s.cfg.hasRw = false → t.pinRw = s.pinRw

theorem Phase.grows {i : Instr} {s t : State} (h : Phase i s t) : Grows s t := by
  cases h with
  | bus h =>
    have k := h.kept
    exact ⟨k.cfg, k.responses, k.requests, k.lines, k.past, k.absent⟩
  | row => constructor <;> simp
  | mode | answers => exact ⟨rfl, rfl, rfl, rfl, List.prefix_refl _, fun _ => rfl⟩

theorem Phases.grows {i : Instr} {s t : State} (h : Phases i s t) : Grows s t := by
  induction h with
  | refl => exact ⟨rfl, rfl, rfl, rfl, List.prefix_refl _, fun _ => rfl⟩
  | tail _ hp ih =>
    have k := hp.grows
    exact ⟨k.cfg.trans ih.cfg, k.responses.trans ih.responses, k.requests.trans ih.requests, k.lines.trans ih.lines,
      ih.past.trans k.past, fun hr => (k.absent (ih.cfg ▸ hr)).trans (ih.absent hr)⟩

/-- No phase but RESET's assigns `MODE` (R21). -/
theorem Phases.mode_eq {i : Instr} {s t : State} (h : Phases i s t) (hi : i ≠ .reset) : t.mode = s.mode := by
  induction h with
  | refl => rfl
  | tail _ hp ih =>
    rw [← ih]
    cases hp with
    | bus h => exact h.kept.mode
    | row => exact setRow_mode ..
    | mode hreset => exact absurd hreset hi
    | answers => rfl

theorem setRow_row1 {line : Byte} (h : line ≠ 1) (text : List Byte) (s : State) :
    (setRow line text s).row1 = s.row1 := by
  rw [setRow, if_neg h]
  split <;> rfl

theorem setRow_row2 {line : Byte} (h : line ≠ 2) (text : List Byte) (s : State) :
    (setRow line text s).row2 = s.row2 := by
  unfold setRow
  split <;> simp

/-- Row 1 is assigned only by an instruction that writes line 1 (R23). -/
theorem Phases.row1_eq {i : Instr} {s t : State} (h : Phases i s t) (hi : 1 ∉ writtenLines i) : t.row1 = s.row1 := by
  induction h with
  | refl => rfl
  | tail _ hp ih =>
    rw [← ih]
    cases hp with
    | bus h => exact h.kept.row1
    | row hl => exact setRow_row1 (fun h1 => hi (h1 ▸ hl)) _ _
    | mode | answers => rfl

/-- Row 2 is assigned only by an instruction that writes line 2 (R23). -/
theorem Phases.row2_eq {i : Instr} {s t : State} (h : Phases i s t) (hi : 2 ∉ writtenLines i) : t.row2 = s.row2 := by
  induction h with
  | refl => rfl
  | tail _ hp ih =>
    rw [← ih]
    cases hp with
    | bus h => exact h.kept.row2
    | row hl => exact setRow_row2 (fun h2 => hi (h2 ▸ hl)) _ _
    | mode | answers => rfl

/-- The pins stay as the trace leaves them (R24). -/
theorem Phases.accounted {i : Instr} {s t : State} (h : Phases i s t) (hs : Accounted s) : Accounted t := by
  induction h with
  | refl => exact hs
  | @tail u _ _ hp ih =>
    cases hp with
    | bus h => exact h.moves.accounted ih
    | @row line text =>
      refine ⟨by simpa using ih.lines, fun p => ?_⟩
      have hp : pinState p (setRow line text u) = pinState p u := by cases p <;> simp
      rw [hp, setRow_trace, ih.explained p]
    | mode | answers => exact ⟨ih.lines, ih.explained⟩

/-- `DIR` does not become Unknown again (R22). -/
theorem Phases.dir_ne_unknown {i : Instr} {s t : State} (h : Phases i s t) (hs : s.dir ≠ .unknown) :
    t.dir ≠ .unknown := by
  induction h with
  | refl => exact hs
  | tail _ hp ih =>
    cases hp with
    | bus h => exact h.moves.dir_ne_unknown ih
    | row => rw [setRow_dir]; exact ih
    | mode | answers => exact ih

/-- Without a Read/Write line nothing is asked of the far side (R55). -/
theorem Phases.asksNothing {i : Instr} {s t : State} (h : Phases i s t) (hr : s.cfg.hasRw = false) :
    AsksNothing s t := by
  induction h with
  | refl => exact .refl s
  | tail hs hp ih =>
    have hru := Phases.cfg hs ▸ hr
    refine ih.trans ?_
    cases hp with
    | bus h => exact h.moves.asksNothing hru
    | row => exact ⟨by simp, by simp, [], by simp, by simp⟩
    | mode => exact ⟨rfl, rfl, [], by simp, by simp⟩
    | answers hr' => simp [hr'] at hru

/-! ### Every instruction -/

/-- An instruction that answers has gone through its phases and responds: OK, or with an error and no phase (R166). -/
theorem exec_next_cases {i : Instr} {s t : State} (ht : exec i s = .next t) :
    ∃ st d u, t = respond st d u ∧ Phases i s u ∧ (st = .ok ∨ ∃ e, t = takeError e s) := by
  have h := exec_answers i s
  rw [ht] at h
  cases h with
  | error e => exact ⟨.error e, 0, s, rfl, .refl, .inr ⟨e, rfl⟩⟩
  | done d u h => exact ⟨.ok, d, u, rfl, h, .inl rfl⟩

theorem writtenLines_eq_nil {i : Instr} (h : writesMirror i = false) : writtenLines i = [] := by
  cases i <;> simp_all [writesMirror, writtenLines]

/-- Settles O20: what every phase keeps, a response keeps too. -/
theorem frameOfEveryInstruction : Obligations.FrameOfEveryInstruction := by
  intro i s t ht
  obtain ⟨st, d, u, rfl, hp, -⟩ := exec_next_cases ht
  have hg := hp.grows
  refine ⟨hg.cfg, hg.requests, hg.lines, hp.mode_eq, fun hi => ?_, hg.absent⟩
  have hnone := writtenLines_eq_nil hi
  exact ⟨hp.row1_eq (by simp [hnone]), hp.row2_eq (by simp [hnone])⟩

/-- Settles O21: PUT_LINE and CLEAR_LINE have phases that write their line's row and no other. -/
theorem frameOfLineWrites : Obligations.FrameOfLineWrites := by
  intro line text typing s t h
  have key (i : Instr) (hi : writtenLines i = [line]) (ht : exec i s = .next t) :
      (line ≠ 1 → t.row1 = s.row1) ∧ (line ≠ 2 → t.row2 = s.row2) := by
    obtain ⟨st, d, u, rfl, hp, -⟩ := exec_next_cases ht
    exact ⟨fun h1 => hp.row1_eq (by simpa [hi] using h1.symm), fun h2 => hp.row2_eq (by simpa [hi] using h2.symm)⟩
  exact h.elim (key _ rfl) (key _ rfl)

/-- Settles O17: the phases ask nothing of the far side, and a response is no event. -/
theorem noReadWriteEventsWithoutLine : Obligations.NoReadWriteEventsWithoutLine := by
  intro i s t hr ht
  obtain ⟨st, d, u, rfl, hp, -⟩ := exec_next_cases ht
  obtain ⟨hi, hd, evs, htrace, hevs⟩ := hp.asksNothing hr
  refine ⟨hp.grows.absent hr, hi, hd, fun ev hev => ?_⟩
  rw [newEvents, respond_trace, htrace, List.drop_left] at hev
  exact ⟨fun h => hevs ev hev (.inl h), fun p b h => hevs ev hev (.inr ⟨p, b, h⟩)⟩

/-- Settles O34: an instruction that does not answer OK has gone through no phase. -/
theorem errorsChangeNothing : Obligations.ErrorsChangeNothing := by
  intro i s t e d ht hresp
  obtain ⟨st, d', u, rfl, hp, rfl | ⟨e', herror⟩⟩ := exec_next_cases ht
  · rw [respond_responses, hp.grows.responses] at hresp
    cases List.append_inj_right' hresp rfl
  · rw [herror, takeError_responses] at hresp
    cases List.append_inj_right' hresp rfl
    exact herror

/-- Settles O54: an instruction is refused for its format only, and a format of other lines is refused. -/
theorem onlyForeignFormatsRefused : Obligations.OnlyForeignFormatsRefused := by
  refine fun i s => ⟨fun ⟨r, hr⟩ => ?_, fun hw => ?_⟩
  · have h := exec_answers i s
    rw [hr] at h
    cases h with
    | refused _ hw => exact hw
  · have hne {p : Prop} [Decidable p] {o : Host.Outcome State Fault Refusal} {m : Refusal} (h : ¬p) :
        ∃ r, (if p then o else .refused m) = Host.Outcome.refused r := ⟨m, if_neg h⟩
    cases i with
    | rawReset8 | rawReset4Three | rawReset4Two | busB8 | busB4 | busR4 => exact hne (ne_of_beq_false hw)
    | busSt => exact hne (ne_true_of_eq_false hw)
    | _ => cases hw

/-- A step that answers rests, or takes a request, goes through the phases of its instruction and responds (R4). -/
theorem step_next {s t : State} (ht : step s = .next t) :
    t = s ∨ ∃ w rest i u st d, s.requests = w :: rest ∧ Phases i { s with requests := rest } u ∧
      t = respond st d u := by
  obtain rfl | ⟨w, rest, i, hq, -, hexec⟩ := step_next_cases ht
  · exact .inl rfl
  · obtain ⟨st, d, u, rfl, hp, -⟩ := exec_next_cases hexec
    exact .inr ⟨w, rest, i, u, st, d, hq, hp, rfl⟩

/-- Settles O13: the phases only append to the trace, and the response is appended to the responses. -/
theorem traceAndResponsesOnlyGrow : Obligations.TraceAndResponsesOnlyGrow := by
  intro s t ht
  obtain rfl | ⟨w, rest, i, u, st, d, -, hp, rfl⟩ := step_next ht
  · exact ⟨List.prefix_refl _, List.prefix_refl _, rfl⟩
  · have hg := hp.grows
    refine ⟨hg.past, ?_, hg.cfg⟩
    rw [respond_responses, hg.responses]
    exact List.prefix_append _ _

/-- Settles O14: the step takes the request from the port, and its response is the one answer. -/
theorem eachRequestAnsweredOnce : Obligations.EachRequestAnsweredOnce := by
  intro s t w rest hq ht
  cases hd : decode w with
  | error r =>
    rw [step_of_decode_error hq hd] at ht
    cases ht
  | ok i =>
    rw [step_of_decode_ok hq hd] at ht
    obtain ⟨st, d, u, rfl, hp, -⟩ := exec_next_cases ht
    exact ⟨hp.grows.requests, ⟨st, d⟩, by rw [respond_responses, hp.grows.responses]⟩

/-! ### `MODE` and `DIR` -/

/-- A procedure that gives `P` answers, if at all, OK in a state with `P`. -/
theorem Gives.of_finish {F : Prop} {P : State → Prop} {r : Result State} (h : Gives F P r) {t : State}
    (ht : finish r = .next t) : ∃ u, t = respond .ok 0 u ∧ r = .ok u ∧ P u := by
  rcases r with (⟨e, u⟩ | g) | u
  · exact h.elim
  · cases ht
  · cases ht
    exact ⟨u, rfl, rfl, h⟩

/-- RESET leaves `MODE` by the line count, and as it is on a line count it does not support (R136). -/
theorem exec_reset_mode {s t : State} (ht : exec .reset s = .next t) :
    t.mode = if s.cfg.n = 8 then .eightBit else if s.cfg.n = 4 then .fourBit else s.mode := by
  split
  · obtain ⟨u, rfl, -, -, hm⟩ := (resetDisplay_completes_eight ‹_›).of_finish ht
    exact hm
  · split
    · obtain ⟨u, rfl, -, -, hm⟩ := (resetDisplay_completes_four ‹_›).of_finish ht
      exact hm
    · rw [exec_reset_unsupported ‹_› ‹_›] at ht
      cases ht
      rfl

/-- Settles O15: `MODE` along the phases, and RESET by its line count. -/
theorem onlyResetWritesMode : Obligations.OnlyResetWritesMode := by
  refine ⟨fun i s t hi ht => ?_, fun s t => exec_reset_mode, fun s t hs ht => ?_⟩
  · obtain ⟨st, d, u, rfl, hp, -⟩ := exec_next_cases ht
    exact hp.mode_eq hi
  · obtain rfl | ⟨w, rest, i, u, st, d, -, hp, rfl⟩ := step_next ht
    · exact hs
    · exact hp.mode_ne_unset hs

/-- Settles O16: `DIR` along the phases, and where the turn of each of the three operations ends. -/
theorem directionWritten : Obligations.DirectionWritten := by
  refine ⟨fun s t hs ht => ?_, fun d s t ht => ?_, fun v c n s t hm ht => ?_, fun s t hr ht => ?_⟩
  · obtain rfl | ⟨w, rest, i, u, st, d, -, hp, rfl⟩ := step_next ht
    · exact hs
    · exact hp.dir_ne_unknown hs
  · obtain ⟨u, rfl, -, hu⟩ := (setDirection_turns d s).of_finish ht
    exact hu.dir
  · obtain ⟨path, hpath⟩ := exists_path hm
    rw [exec_write_path hpath] at ht
    obtain ⟨u, rfl, -, hu⟩ := (writeCore_turns v c n.toNat path s).of_finish ht
    exact hu.dir
  · rw [exec_read_present hr] at ht
    have hg := readCore_turns hr
    cases hread : readCore s with
    | error stop =>
      rw [hread] at hg ht
      cases stop with
      | raise e u => exact hg.elim
      | fault f => cases ht
    | ok a =>
      rw [hread] at hg ht
      cases ht
      exact Turns.dir hg

/-! ### The invariants -/

/-- The requests are no part of what rests. -/
theorem requests_resting {s : State} (h : s.Resting) (ws : List PortWord) :
    State.Resting { s with requests := ws } := by
  obtain ⟨h1, h2, h3, h4, h5, h6, h7, h8, h9, h10, h11⟩ := h
  exact ⟨h1, h2, h3, h4, h5, h6, h7, h8, h9, h10, h11⟩

/-- Settles O9: every phase keeps the resting state, and taking a request and responding are no part of it. -/
theorem stepKeepsResting : Obligations.StepKeepsResting := by
  intro s t hs ht
  obtain rfl | ⟨w, rest, i, u, st, d, -, hp, rfl⟩ := step_next ht
  · exact hs
  · exact respond_resting (hp.resting (requests_resting hs rest)) st d

/-- Settles O10: an instruction meets a fault from no resting state, and a step without one meets none. -/
theorem restingStepNeverFaults : Obligations.RestingStepNeverFaults := by
  intro s f hs ht
  cases hq : s.requests with
  | nil => simp [step_of_empty hq] at ht
  | cons w rest =>
    cases hd : decode w with
    | error r => simp [step_of_decode_error hq hd] at ht
    | ok i =>
      have h := exec_answers i { s with requests := rest }
      rw [← step_of_decode_ok hq hd, ht] at h
      cases h with
      | fault _ hn => exact hn (requests_resting hs rest)

/-- What is accounted for stays so without the requests and with another response. -/
theorem Accounted.respond {s : State} (h : Accounted s) (st : Status) (d : Byte) : Accounted (respond st d s) :=
  ⟨h.lines, h.explained⟩

theorem Accounted.requests {s : State} (h : Accounted s) (ws : List PortWord) :
    Accounted { s with requests := ws } :=
  ⟨h.lines, h.explained⟩

/-- Settles O11: every move leaves each pin as its event does. -/
theorem stepKeepsPinsExplained : Obligations.StepKeepsPinsExplained := by
  intro s t hl he ht
  obtain rfl | ⟨w, rest, i, u, st, d, -, hp, rfl⟩ := step_next ht
  · exact ⟨hl, he⟩
  · have hu := (hp.accounted (Accounted.requests ⟨hl, he⟩ rest)).respond st d
    exact ⟨hu.lines, hu.explained⟩

/-- A phase on the bus from rest keeps the trace in the pin space (R30). -/
theorem BusPhase.withinPinSpace {s t : State} (h : BusPhase s t) (hs : s.Resting)
    (hw : WithinPinSpace s.cfg s.trace) : WithinPinSpace t.cfg t.trace := by
  obtain ⟨d, rfl⟩ | ⟨hr, rfl⟩ | ⟨path, v, rs, hp, rfl⟩ | ⟨path, v, c, n, hp, rfl⟩ | ⟨us, rfl⟩ := h.cases_resting hs
  · cases d <;> exact (withinPinSpace_append _ _ _).mpr ⟨hw, withinPinSpace_direction _ _ _⟩
  · exact (withinPinSpace_append _ _ _).mpr ⟨hw, withinPinSpace_read hr _ _⟩
  · exact (withinPinSpace_append _ _ _).mpr ⟨hw, withinPinSpace_transfer hp _ _ _⟩
  · exact (withinPinSpace_append _ _ _).mpr ⟨hw, withinPinSpace_write hp _ _ _ _ _⟩
  · exact (withinPinSpace_append _ _ _).mpr ⟨hw, withinPinSpace_delay _ _⟩

theorem Phases.withinPinSpace {i : Instr} {s t : State} (h : Phases i s t) (hs : s.Resting)
    (hw : WithinPinSpace s.cfg s.trace) : WithinPinSpace t.cfg t.trace := by
  induction h with
  | refl => exact hw
  | tail hpast hp ih =>
    cases hp with
    | bus h => exact h.withinPinSpace (Phases.resting hpast hs) ih
    | row => simpa using ih
    | mode | answers => exact ih

/-- Settles O55: block reset configures the control pins, and every phase from rest is about the pinout's pins. -/
theorem stepStaysWithinPinSpace : Obligations.StepStaysWithinPinSpace := by
  refine ⟨fun cfg => (withinPinSpace_iff _ _).mpr fun ev hev => ?_, fun s t hs hw ht => ?_⟩
  · cases hr : cfg.hasRw <;> simp [State.blockReset, hr] at hev
    · rcases hev with rfl | rfl <;> simp [eventPin]
    · rcases hev with rfl | rfl | rfl <;> simp [eventPin]
  · obtain rfl | ⟨w, rest, i, u, st, d, -, hp, rfl⟩ := step_next ht
    · exact hw
    · exact hp.withinPinSpace (requests_resting hs rest) hw

end Sys2Proof.Machine

/-!
PROOFS. Two drivers never contend (`40_direction.md` R101, R102; `70_reset_and_hazards.md` R185): at every point of the
trace the Read/Write line does not say read, or no data line is driven. The move from one side to the other goes through
a point at which both hold.
-/
namespace Sys2Proof.Machine

/-! ### The pins through a list of events -/

/-- The state of every pin. -/
abbrev Pins := Pin → PinState

/-- The pins after a list of events. -/
def pinsAfter (pins : Pins) (evs : List Event) : Pins := fun p => evs.foldl (pinAfter p) (pins p)

@[simp] theorem pinsAfter_nil (pins : Pins) : pinsAfter pins [] = pins := rfl

@[simp] theorem pinsAfter_cons (pins : Pins) (ev : Event) (evs : List Event) :
    pinsAfter pins (ev :: evs) = pinsAfter (pinsAfter pins [ev]) evs := rfl

theorem pinsAfter_append (pins : Pins) (xs ys : List Event) :
    pinsAfter pins (xs ++ ys) = pinsAfter (pinsAfter pins xs) ys := by
  funext p
  exact List.foldl_append

/-- The Read/Write line does not say read. -/
def WriteSide (pins : Pins) : Prop := pins .rw ≠ .output true

/-- No data line is driven. -/
def ReadSide (pins : Pins) : Prop := ∀ i, isOutput (pins (.d i)) = false

/-- At this point two drivers do not contend. -/
def Calm (pins : Pins) : Prop := WriteSide pins ∨ ReadSide pins

/-- At no point of a list of events do two drivers contend. -/
def CalmThrough (pins : Pins) (evs : List Event) : Prop := ∀ past, past <+: evs → Calm (pinsAfter pins past)

/-- A trace is free of contention when it is calm from pins never configured. -/
theorem contentionFree_iff (evs : List Event) : ContentionFree evs ↔ CalmThrough (fun _ => .unconfigured) evs := by
  refine forall₂_congr fun past _ => ?_
  rw [Calm, or_iff_not_imp_left]
  exact imp_congr_left not_not.symm

@[simp] theorem calmThrough_nil (pins : Pins) : CalmThrough pins [] ↔ Calm pins := by
  simp [CalmThrough]

theorem calmThrough_append (pins : Pins) (xs ys : List Event) :
    CalmThrough pins (xs ++ ys) ↔ CalmThrough pins xs ∧ CalmThrough (pinsAfter pins xs) ys := by
  constructor
  · refine fun h => ⟨fun past hp => h past (hp.trans (List.prefix_append _ _)), fun past hp => ?_⟩
    rw [← pinsAfter_append]
    exact h _ ((List.prefix_append_right_inj xs).mpr hp)
  · rintro ⟨hx, hy⟩ past hp
    obtain h | ⟨more, rfl⟩ := List.prefix_or_prefix_of_prefix hp (List.prefix_append xs ys)
    · exact hx past h
    · rw [pinsAfter_append]
      exact hy more ((List.prefix_append_right_inj xs).mp hp)

/-! ### One side at a time -/

/-- An event after which the Read/Write line says read. -/
def setsRead (ev : Event) : Bool := ev == .set .rw true || ev == .cfgOut .rw true

/-- An event that drives a data line. -/
def drivesLine : Event → Bool
  | .cfgOut (.d _) _ => true
  | .set (.d _) _ => true
  | _ => false

theorem WriteSide.after {pins : Pins} (h : WriteSide pins) {ev : Event} (hev : setsRead ev = false) :
    WriteSide (pinsAfter pins [ev]) := by
  show pinAfter .rw (pins .rw) ev ≠ .output true
  unfold pinAfter
  split <;> try split
  all_goals simp_all [setsRead, WriteSide]

theorem ReadSide.after {pins : Pins} (h : ReadSide pins) {ev : Event} (hev : drivesLine ev = false) :
    ReadSide (pinsAfter pins [ev]) := by
  intro i
  show isOutput (pinAfter (.d i) (pins (.d i)) ev) = false
  unfold pinAfter
  split <;> try split
  all_goals simp_all [drivesLine, ReadSide]

/-- Through a list of events the pins are calm, and they end on a side. -/
structure Reaches (side : Pins → Prop) (pins : Pins) (evs : List Event) : Prop where
  calm : CalmThrough pins evs
  after : side (pinsAfter pins evs)

theorem Reaches.append {side side' : Pins → Prop} {pins : Pins} {xs ys : List Event} (h : Reaches side pins xs)
    (k : side (pinsAfter pins xs) → Reaches side' (pinsAfter pins xs) ys) : Reaches side' pins (xs ++ ys) := by
  obtain ⟨hcalm, hafter⟩ := k h.after
  exact ⟨(calmThrough_append _ _ _).mpr ⟨h.calm, hcalm⟩, by rw [pinsAfter_append]; exact hafter⟩

theorem reaches_nil {side : Pins → Prop} {pins : Pins} (hc : Calm pins) (h : side pins) : Reaches side pins [] :=
  ⟨(calmThrough_nil _).mpr hc, h⟩

/-- One event, from calm pins to a side on which they are calm. -/
theorem reaches_single {side : Pins → Prop} (hside : ∀ pins, side pins → Calm pins) {pins : Pins} (hc : Calm pins)
    {ev : Event} (h : side (pinsAfter pins [ev])) : Reaches side pins [ev] := by
  refine ⟨fun past hp => ?_, h⟩
  obtain rfl | rfl : past = [] ∨ past = [ev] := by
    cases past with
    | nil => exact .inl rfl
    | cons e rest =>
      obtain ⟨rfl, hrest⟩ := List.cons_prefix_cons.mp hp
      exact .inr (by rw [List.prefix_nil.mp hrest])
  · exact hc
  · exact hside _ h

/-- Events that do not leave a side on which the pins are calm. -/
theorem reaches_of_stays {side : Pins → Prop} (hside : ∀ pins, side pins → Calm pins) {evs : List Event}
    (hstay : ∀ ev ∈ evs, ∀ pins, side pins → side (pinsAfter pins [ev])) {pins : Pins} (h : side pins) :
    Reaches side pins evs := by
  induction evs generalizing pins with
  | nil => exact reaches_nil (hside _ h) h
  | cons ev evs ih =>
    have hev := hstay ev (by simp) pins h
    exact (reaches_single hside (hside _ h) hev).append (ys := evs) fun _ => ih (fun e he => hstay e (by simp [he])) hev

theorem reaches_writeSide {pins : Pins} (h : WriteSide pins) {evs : List Event}
    (hevs : ∀ ev ∈ evs, setsRead ev = false) : Reaches WriteSide pins evs :=
  reaches_of_stays (fun _ => .inl) (fun ev he _ hp => hp.after (hevs ev he)) h

theorem reaches_readSide {pins : Pins} (h : ReadSide pins) {evs : List Event}
    (hevs : ∀ ev ∈ evs, drivesLine ev = false) : Reaches ReadSide pins evs :=
  reaches_of_stays (fun _ => .inr) (fun ev he _ hp => hp.after (hevs ev he)) h

/-! ### The event lists of the rules -/

/-- The pins between two operations: on the side of the direction, on the write side without a Read/Write line, and no
line driven that does not exist (R31). -/
structure Settled (cfg : Config) (dir : Dir) (pins : Pins) : Prop where
  calm : Calm pins
  driving : dir = .driving → WriteSide pins
  released : dir = .released → ReadSide pins
  absent : cfg.hasRw = false → WriteSide pins
  beyond : ∀ i, cfg.n ≤ i → isOutput (pins (.d i)) = false

/-- `PinSet(RW, 0)` reaches the write side from calm pins (R101). -/
theorem reaches_setWrite {pins : Pins} (hc : Calm pins) : Reaches WriteSide pins [.set .rw false] :=
  reaches_single (fun _ => .inl) hc (by simp [WriteSide, pinsAfter, pinAfter])

/-- A move to Driving reaches the write side before it drives a line (R101). -/
theorem reaches_driving {cfg : Config} {dir : Dir} {pins : Pins} (h : Settled cfg dir pins) :
    Reaches WriteSide pins (directionEvents cfg dir .driving) := by
  by_cases hd : dir = .driving
  · have hnone : directionEvents cfg dir .driving = [] := if_pos hd
    rw [hnone]
    exact reaches_nil h.calm (h.driving hd)
  · rw [directionEvents_driving cfg hd, driveMoveEvents]
    have hfirst : Reaches WriteSide pins (if cfg.hasRw then [.set .rw false] else []) := by
      cases hr : cfg.hasRw
      · exact reaches_nil h.calm (h.absent hr)
      · exact reaches_setWrite h.calm
    refine hfirst.append fun hw => reaches_writeSide hw fun ev hev => ?_
    obtain ⟨i, -, rfl⟩ := List.mem_map.mp hev
    rfl

/-- A loop that makes lines inputs leaves none of them driven (R102). -/
theorem pinsAfter_inputs (pull : Pull) (is : List Nat) (pins : Pins) (j : Nat)
    (h : j ∉ is → isOutput (pins (.d j)) = false) :
    isOutput (pinsAfter pins (is.map fun i => .cfgIn (.d i) pull) (.d j)) = false := by
  induction is generalizing pins with
  | nil => exact h (by simp)
  | cons i is ih =>
    rw [List.map_cons, pinsAfter_cons]
    refine ih _ fun hj => ?_
    by_cases hij : i = j
    · simp [pinsAfter, pinAfter, hij]
    · have hj' := h (by simp [hj, Ne.symm hij])
      simpa [pinsAfter, pinAfter, hij] using hj'

/-- A move to Released says read only when no line is driven any more (R102). -/
theorem reaches_released {cfg : Config} {dir : Dir} {pins : Pins} (h : Settled cfg dir pins) :
    Reaches ReadSide pins (directionEvents cfg dir .released) := by
  by_cases hd : dir = .released
  · have hnone : directionEvents cfg dir .released = [] := if_pos hd
    rw [hnone]
    exact reaches_nil h.calm (h.released hd)
  · rw [directionEvents_released cfg hd, releaseMoveEvents]
    have hinputs : Reaches ReadSide pins ((List.range cfg.n).map fun i => .cfgIn (.d i) (releasedPull cfg)) := by
      refine ⟨(reaches_of_stays (side := Calm) (fun _ => id) (fun ev hev pins hp => ?_) h.calm).calm, fun j => ?_⟩
      · obtain ⟨i, -, rfl⟩ := List.mem_map.mp hev
        exact hp.imp (·.after rfl) (·.after rfl)
      · exact pinsAfter_inputs _ _ _ _ fun hj => h.beyond j (by simpa using hj)
    refine hinputs.append fun hread => reaches_readSide hread fun ev hev => ?_
    split at hev
    · obtain rfl := List.mem_singleton.mp hev
      rfl
    · cases hev

/-- A status read ends on the read side (R117). -/
theorem reaches_read {cfg : Config} {dir : Dir} {pins : Pins} (h : Settled cfg dir pins) (levels : List Bool) :
    Reaches ReadSide pins (readEvents cfg dir levels) := by
  simp only [readEvents, List.append_assoc]
  refine (reaches_released h).append fun hread => reaches_readSide hread fun ev hev => ?_
  simp only [List.mem_append, List.mem_cons, List.mem_map, List.not_mem_nil, or_false] at hev
  rcases hev with (rfl | rfl | rfl | rfl) | ⟨p, -, rfl⟩ | rfl | rfl <;> rfl

/-- Steps 2 to 7 of a write end on the write side (R111). -/
theorem reaches_transfer {cfg : Config} {dir : Dir} {pins : Pins} (h : Settled cfg dir pins) (path : Path) (v : Byte)
    (rs : Bool) : Reaches WriteSide pins (transferEvents cfg dir path v rs) := by
  have hdrive (w : Nat) (level : Nat → Bool) : ∀ ev ∈ driveEvents w level, setsRead ev = false := by
    intro ev hev
    obtain ⟨i, -, rfl⟩ := List.mem_map.mp hev
    rfl
  have hbyte : ∀ ev ∈ byteEvents cfg.n path v, setsRead ev = false := by
    intro ev hev
    cases path with
    | single => exact hdrive _ _ ev hev
    | split =>
      simp only [byteEvents, List.mem_append, List.mem_cons, List.not_mem_nil, or_false] at hev
      rcases hev with (hev | rfl | rfl | rfl | rfl) | hev
      · exact hdrive _ _ ev hev
      · rfl
      · rfl
      · rfl
      · rfl
      · exact hdrive _ _ ev hev
  simp only [transferEvents, List.append_assoc]
  refine (reaches_driving h).append fun hwrite => reaches_writeSide hwrite fun ev hev => ?_
  simp only [List.mem_append, List.mem_cons, List.not_mem_nil, or_false] at hev
  rcases hev with (rfl | rfl) | hev | (rfl | rfl) | hev
  · rfl
  · rfl
  · exact hbyte ev hev
  · rfl
  · rfl
  · split at hev
    · obtain rfl := List.mem_singleton.mp hev
      rfl
    · cases hev

/-- A write ends on the write side: its status read releases the lines, and write mode comes before they are driven
again (R111, R112). -/
theorem reaches_write {cfg : Config} {dir : Dir} {pins : Pins} (h : Settled cfg dir pins) (path : Path) (v : Byte)
    (c : Bool) (t : Nat) (levels : List Bool) : Reaches WriteSide pins (writeEvents cfg dir path v c t levels) := by
  have hbody : Reaches WriteSide pins (if cfg.hasRw then
      readEvents cfg dir levels ++ [.set .rw false] ++ transferEvents cfg .released path v (!c)
      else transferEvents cfg dir path v (!c)) := by
    split
    · rw [List.append_assoc]
      refine (reaches_read h levels).append fun hread => ?_
      refine (reaches_setWrite (.inr hread)).append fun hwrite => ?_
      have hread' := hread.after (ev := .set .rw false) rfl
      have hsettled : Settled cfg .released (pinsAfter (pinsAfter pins (readEvents cfg dir levels)) [.set .rw false]) :=
        ⟨.inl hwrite, nofun, fun _ => hread', fun _ => hwrite, fun i _ => hread' i⟩
      exact reaches_transfer hsettled path v (!c)
    · exact reaches_transfer h path v (!c)
  refine hbody.append fun hwrite => reaches_writeSide hwrite fun ev hev => ?_
  obtain rfl := List.mem_singleton.mp hev
  rfl

/-! ### From rest -/

/-- Lines of which none is driven read as not driven, beyond the last one too. -/
theorem isOutput_getD {pins : List PinState} (h : ∀ p ∈ pins, isOutput p = false) (i : Nat) :
    isOutput (pins.getD i .unconfigured) = false := by
  rw [List.getD_eq_getElem?_getD]
  cases hi : pins[i]? with
  | none => rfl
  | some p => exact h p (List.mem_of_getElem? hi)

/-- At rest a direction other than Driving is the read side (I-b). -/
theorem State.Resting.readSide {s : State} (h : s.Resting) (hd : s.dir ≠ .driving) : ReadSide (pinState · s) := by
  refine isOutput_getD fun p hp => ?_
  cases hdir : s.dir with
  | driving => exact absurd hdir hd
  | released => rw [h.released hdir p hp]; rfl
  | unknown => rw [h.unknown hdir p hp]; rfl

/-- At rest without a Read/Write line nothing says read (R31). -/
theorem State.Resting.writeSide_absent {s : State} (h : s.Resting) (hr : s.cfg.hasRw = false) :
    WriteSide (pinState · s) := by
  simp [WriteSide, h.absent hr]

/-- At rest Driving is the write side (I-d). -/
theorem State.Resting.writeSide {s : State} (h : s.Resting) (hd : s.dir = .driving) : WriteSide (pinState · s) := by
  cases hr : s.cfg.hasRw with
  | false => exact h.writeSide_absent hr
  | true => simp [WriteSide, h.writeMode hr hd]

/-- A resting state is settled (R31). -/
theorem State.Resting.settled {s : State} (h : s.Resting) : Settled s.cfg s.dir (pinState · s) where
  calm := by
    by_cases hd : s.dir = .driving
    · exact .inl (h.writeSide hd)
    · exact .inr (h.readSide hd)
  driving := h.writeSide
  released := fun hd => h.readSide (by simp [hd])
  absent := h.writeSide_absent
  beyond := fun i hi => by
    have hnone : s.pinD.getD i .unconfigured = .unconfigured := List.getD_eq_default _ _ (h.lines ▸ hi)
    simp only [pinState_d, hnone, isOutput_unconfigured]

/-- Events after a trace that explains the pins. -/
theorem contentionFree_append {s : State} (he : s.Explained) {evs : List Event} (h : ContentionFree s.trace)
    (hc : CalmThrough (pinState · s) evs) : ContentionFree (s.trace ++ evs) := by
  have hpins : pinsAfter (fun _ => .unconfigured) s.trace = (pinState · s) := (funext he).symm
  rw [contentionFree_iff, calmThrough_append, hpins, ← contentionFree_iff]
  exact ⟨h, hc⟩

/-- A phase on the bus from rest keeps the trace free of contention. -/
theorem BusPhase.contentionFree {s t : State} (h : BusPhase s t) (hs : s.Resting) (he : s.Explained)
    (hc : ContentionFree s.trace) : ContentionFree t.trace := by
  have hsettled := hs.settled
  obtain ⟨d, rfl⟩ | ⟨hr, rfl⟩ | ⟨path, v, rs, hp, rfl⟩ | ⟨path, v, c, n, hp, rfl⟩ | ⟨us, rfl⟩ := h.cases_resting hs
  · cases d with
    | driving => exact contentionFree_append he hc (reaches_driving hsettled).calm
    | released => exact contentionFree_append he hc (reaches_released hsettled).calm
  · exact contentionFree_append he hc (reaches_read hsettled _).calm
  · exact contentionFree_append he hc (reaches_transfer hsettled path v rs).calm
  · exact contentionFree_append he hc (reaches_write hsettled path v c n _).calm
  · exact contentionFree_append he hc (reaches_single (ev := .delay us) (fun _ => id) hsettled.calm hsettled.calm).calm

theorem Phases.contentionFree {i : Instr} {s t : State} (h : Phases i s t) (hs : s.Resting) (he : s.Explained)
    (hc : ContentionFree s.trace) : ContentionFree t.trace := by
  induction h with
  | refl => exact hc
  | tail hpast hp ih =>
    cases hp with
    | bus h =>
      have hbefore := Phases.accounted hpast ⟨hs.lines, he⟩
      exact h.contentionFree (Phases.resting hpast hs) hbefore.explained ih
    | row => simpa using ih
    | mode | answers => exact ih

/-- Settles O12: along the phases the pins are those the trace leaves, and each phase is calm from rest. -/
theorem stepKeepsBusContentionFree : Obligations.StepKeepsBusContentionFree := by
  intro s t hs he hc ht
  obtain rfl | ⟨w, rest, i, u, st, d, -, hp, rfl⟩ := step_next ht
  · exact hc
  · exact hp.contentionFree (requests_resting hs rest) he hc

/-! ### Block reset -/

/-- No data line is configured by block reset, up to the last one or beyond it (R32). -/
theorem blockReset_pinState_d (cfg : Config) (i : Nat) : pinState (.d i) (State.blockReset cfg) = .unconfigured := by
  have hpins : (State.blockReset cfg).pinD = List.replicate cfg.n .unconfigured := rfl
  rw [pinState_d, hpins, List.getD_eq_getElem?_getD, List.getElem?_replicate]
  split <;> rfl

/-- Settles O7: block reset's fields, and `State.reset` by definition. -/
theorem blockResetState : Obligations.BlockResetState := by
  refine ⟨fun cfg => ⟨rfl, rfl, rfl, rfl, rfl, rfl, rfl, fun hr => if_pos hr, blockReset_pinState_d cfg, ?_⟩, rfl⟩
  cases hr : cfg.hasRw <;> simp [State.blockReset, hr]

/-- Block reset rests with its direction unknown (R31, R180). -/
theorem blockReset_resting (cfg : Config) : (State.blockReset cfg).Resting where
  enable := rfl
  lines := List.length_replicate
  driving := nofun
  released := nofun
  unknown := fun _ _ hp => List.eq_of_mem_replicate hp
  select := rfl
  readWrite := fun hr => congrArg isOutput (if_pos hr)
  absent := fun hr => if_neg (ne_true_of_eq_false hr)
  writeMode := nofun
  eightLines := nofun
  fourLines := nofun

/-- The trace of block reset configures the control pins and no other (R180). -/
theorem blockReset_explained (cfg : Config) : (State.blockReset cfg).Explained := by
  intro p
  match p with
  | .e | .rs | .rw => cases hr : cfg.hasRw <;> simp [State.blockReset, hr, replayPin, pinAfter]
  | .d i =>
    rw [blockReset_pinState_d]
    cases hr : cfg.hasRw <;> simp [State.blockReset, hr, replayPin, pinAfter]

/-- Block reset never leaves the write side (R180). -/
theorem blockReset_contentionFree (cfg : Config) : ContentionFree (State.blockReset cfg).trace := by
  refine (contentionFree_iff _).mpr (reaches_writeSide (by simp [WriteSide]) fun ev hev => ?_).calm
  cases hr : cfg.hasRw <;> simp [State.blockReset, hr] at hev
  · rcases hev with rfl | rfl <;> rfl
  · rcases hev with rfl | rfl | rfl <;> rfl

/-- Settles O8: the three invariants of block reset. -/
theorem blockResetRests : Obligations.BlockResetRests := fun cfg =>
  ⟨blockReset_resting cfg, blockReset_explained cfg, blockReset_contentionFree cfg⟩

end Sys2Proof.Machine

/-!
PROOFS. What the instructions that are one procedure complete with from rest (`40_direction.md` R100, `41_transfer.md`
R110, R116, `42_mode_reset.md` R130, `43_command_surface.md` R140 to R144, `30_encoding.md` R78 to R80).
-/
namespace Sys2Proof.Machine

/-! ### SET_DIRECTION, WRITE and READ -/

/-- Settles O24: SET_DIRECTION ends in `afterDirection`. -/
theorem setDirectionResult : Obligations.SetDirectionResult := fun _ h =>
  ⟨congrArg finish (setDirection_eq h .driving), congrArg finish (setDirection_eq h .released)⟩

/-- A sequence that ends has ended its first step. -/
theorem bind_eq_ok {α β : Type} {r : Result α} {f : α → Result β} {b : β} (h : r >>= f = .ok b) :
    ∃ a, r = .ok a ∧ f a = .ok b := by
  cases r with
  | ok a => exact ⟨a, rfl, h⟩
  | error stop => cases h

/-- What a change of direction keeps beside what every transfer keeps: E, RS and the environment (R100). -/
structure KeepsControl (s t : State) : Prop where
  enable : t.pinE = s.pinE
  select : t.pinRs = s.pinRs
  inputs : t.inputs = s.inputs
  drawn : t.drawn = s.drawn

/-- `PinSet` of the Read/Write line, where there is one (R55). -/
theorem setReadWrite_ok {v : Bool} {s t : State} (h : setReadWrite v s = .ok t) :
    KeepsControl s t ∧ t.cfg = s.cfg ∧ t.trace = s.trace ++ if s.cfg.hasRw then [.set .rw v] else [] := by
  unfold setReadWrite at h
  split at h
  · next hr =>
    obtain ⟨-, rfl⟩ := pinSet_cases h
    exact ⟨⟨rfl, rfl, rfl, rfl⟩, rfl, by simp [hr]⟩
  · next hr =>
    obtain rfl := Except.ok.inj h
    exact ⟨⟨rfl, rfl, rfl, rfl⟩, rfl, by simp [hr]⟩

/-- SET_DIRECTION, from any state, adds the events of `directionEvents` and keeps E, RS and the environment (R100). -/
theorem setDirection_ok {d : Direction} {s t : State} (h : setDirection d s = .ok t) :
    KeepsControl s t ∧ t.trace = s.trace ++ directionEvents s.cfg s.dir d := by
  unfold setDirection at h
  split at h
  · next hd =>
    obtain rfl := Except.ok.inj h
    exact ⟨⟨rfl, rfl, rfl, rfl⟩, by simp [directionEvents, ← hd]⟩
  · next hd =>
    cases d with
    | driving =>
      obtain ⟨u, hu, hlast⟩ := bind_eq_ok h
      obtain ⟨hkeep, hcfg, htrace⟩ := setReadWrite_ok hu
      obtain rfl := Except.ok.inj hlast
      rw [directionEvents_driving s.cfg hd, driveMoveEvents, configureOutputs_eq, dataLines, hcfg, ← List.append_assoc,
        ← htrace]
      exact ⟨⟨hkeep.enable, hkeep.select, hkeep.inputs, hkeep.drawn⟩, rfl⟩
    | released =>
      obtain ⟨u, hu, hlast⟩ := bind_eq_ok h
      rw [configureInputs_eq] at hu
      obtain ⟨hkeep, -, htrace⟩ := setReadWrite_ok hu
      obtain rfl := Except.ok.inj hlast
      rw [directionEvents_released s.cfg hd, releaseMoveEvents, ← List.append_assoc]
      exact ⟨⟨hkeep.enable, hkeep.select, hkeep.inputs, hkeep.drawn⟩, htrace⟩

/-- The events of a change of direction are about the Read/Write line and the data lines (R101, R102). -/
theorem directionEvents_ne_rs (cfg : Config) (dir : Dir) (d : Direction) :
    ∀ ev ∈ directionEvents cfg dir d, eventPin ev ≠ some .rs := by
  have hset (v : Bool) : ∀ ev ∈ (if cfg.hasRw then [Event.set .rw v] else []), eventPin ev ≠ some .rs := by
    cases cfg.hasRw <;> simp [eventPin]
  have hloop (f : Nat → Event) (hf : ∀ i, eventPin (f i) = some (.d i)) :
      ∀ ev ∈ (List.range cfg.n).map f, eventPin ev ≠ some .rs := by
    intro ev hev
    obtain ⟨i, -, rfl⟩ := List.mem_map.mp hev
    simp [hf]
  intro ev hev
  unfold directionEvents at hev
  split at hev
  · cases hev
  · cases d with
    | driving => exact (List.mem_append.mp hev).elim (hset false ev) (hloop _ (fun _ => rfl) ev)
    | released => exact (List.mem_append.mp hev).elim (hloop _ (fun _ => rfl) ev) (hset true ev)

/-- Settles O19: what SET_DIRECTION keeps, and its events, which are no delays and none of E or RS. -/
theorem frameOfDirection : Obligations.FrameOfDirection := by
  intro d s t ht
  have hkept := kept_setDirection d s
  obtain ⟨u, rfl, hu, -⟩ := (setDirection_turns d s).of_finish ht
  rw [hu] at hkept
  obtain ⟨hcontrol, htrace⟩ := setDirection_ok hu
  refine ⟨hkept.cfg, hkept.mode, hkept.row1, hkept.row2, hcontrol.enable, hcontrol.select, hkept.requests,
    hcontrol.inputs, hcontrol.drawn, hkept.absent, fun ev hev => ?_⟩
  rw [newEvents, respond_trace, htrace, List.drop_left] at hev
  obtain ⟨he, hnone⟩ := direction_quiet s.cfg s.dir d ev hev
  exact ⟨hnone, he, directionEvents_ne_rs s.cfg s.dir d ev hev⟩

/-- Settles O25: WRITE ends in `afterWrite`. -/
theorem writeResult : Obligations.WriteResult := fun _ _ v c n h hm => exec_write_eq h hm v c n

/-- READ with a Read/Write line from rest (R116). -/
theorem exec_read_eq {s : State} (h : s.Resting) (hr : s.cfg.hasRw = true) :
    exec .read s = .next (respond .ok (readData s.nextLevels) (afterRead s)) := by
  rw [exec_read_present hr, readCore_eq h hr]
  rfl

/-- Settles O29: READ ends in `afterRead`. -/
theorem readResult : Obligations.ReadResult := fun _ => exec_read_eq

/-! ### RESET and the command surface -/

/-- Settles O36: RESET on either line count. -/
theorem resetResult : Obligations.ResetResult := fun _ h => ⟨exec_reset_eight h, exec_reset_four h⟩

/-- Settles O40: CLEAR is COMMAND of its entry, and START a run of two writes. -/
theorem commandResult : Obligations.CommandResult := fun _ _ h hm =>
  ⟨exec_command_eq h hm, exec_command_eq h hm .displayClear, exec_start_eq h hm⟩

/-- The bits of an address do not overlap the fixed bit of DDRAM_SET, so the OR is a sum (R79). -/
theorem ddramByte_eq_add (address : BitVec 7) : (0x80 ||| address.setWidth 8 : Byte) = 0x80 + address.setWidth 8 := by
  refine (BitVec.add_eq_or_of_and_eq_zero _ _ ?_).symm
  refine BitVec.eq_of_getLsbD_eq fun i hi => ?_
  interval_cases i <;> simp

/-- Settles O41: a row of the table is issued as its entry. -/
theorem tableRowResults : Obligations.TableRowResults := by
  intro s path h hm
  have hrow (k : CmdKey) : finish (issueEntry k s) =
      .next (respond .ok 0 (afterWrites path [sentEntry s.cfg.table k] s)) :=
    congrArg finish (issueEntry_eq h hm k)
  refine ⟨fun v => congrArg finish (writeByte_eq h hm v true _), hrow _, hrow _, hrow _, hrow _, hrow _, hrow _, hrow _,
    fun a => ?_⟩
  rw [← ddramByte_eq_add]
  exact congrArg finish (setAddress_eq h hm a)

/-- Settles O44: the rows of lines 1 and 2 start at 0x00 and 0x40. -/
theorem setLineResult : Obligations.SetLineResult := fun _ _ h hm =>
  ⟨exec_setLine_eq h hm rfl, exec_setLine_eq h hm rfl⟩

/-- Settles O45: PUT_LINE ends in the state of its line's rule, which keeps the row. -/
theorem putLineResult : Obligations.PutLineResult := by
  intro s path text typing h hm
  have hready : Ready path s := ⟨h, hm⟩
  obtain ⟨-, -, hrow1, -⟩ := afterPutLine1_keeps path text typing s
  obtain ⟨-, -, -, hrow2, -⟩ := afterPutLine2_keeps path text typing s
  exact ⟨hready.exec_putLine_one text typing, hready.exec_putLine_two text typing, hrow1, hrow2⟩

/-! ### The raw patterns -/

theorem reset8Wait_eq (r : Fin 3) : reset8Wait r = if r = 0 then 4100 else 100 := by
  revert r
  decide

theorem reset4ThreeWait_eq (r : Fin 2) : reset4ThreeWait r = if r = 0 then 4100 else 100 := by
  revert r
  decide

theorem reset4TwoWait_eq (r : Fin 2) : reset4TwoWait r = 100 := by
  revert r
  decide

/-- Settles O51: each pattern is one write on the single path, with the wait of its repetition. -/
theorem rawPatternResults : Obligations.RawPatternResults := by
  intro s h
  have hsend (v : Byte) (n : Nat) : finish (writeCore v true n .single s) =
      .next (respond .ok 0 (afterWrite v true n .single s)) := congrArg finish (writeCore_single h v true n)
  refine ⟨fun hn r => ?_, fun hn r => ⟨?_, ?_⟩⟩
  · rw [← reset8Wait_eq]
    exact (if_pos hn).trans (hsend 0x30 _)
  · rw [← reset4ThreeWait_eq]
    exact (if_pos hn).trans (hsend 0x3 _)
  · rw [← reset4TwoWait_eq r]
    exact (if_pos hn).trans (hsend 0x2 _)

end Sys2Proof.Machine

/-!
PROOFS. The bytes and the times of texts and resets (`42_mode_reset.md` R132, `43_command_surface.md` R144, R147, R149,
`41_transfer.md` R122), and the result of a read (R118).
-/
namespace Sys2Proof.Machine

/-! ### The result of a read -/

/-- Bit `i` of the number of some levels is the `i`-th level (R57). -/
theorem levelsValue_testBit (levels : List Bool) (i : Nat) : (levelsValue levels).testBit i = levels.getD i false := by
  induction levels generalizing i with
  | nil => simp [levelsValue]
  | cons b bs ih =>
    cases i with
    | zero => cases b <;> simp [levelsValue, Nat.testBit_zero]
    | succ i =>
      have hhalf : (b.toNat + 2 * levelsValue bs) / 2 = levelsValue bs := by cases b <;> simp; omega
      rw [levelsValue, Nat.testBit_succ, hhalf, ih, List.getD_cons_succ]

/-- Bit `i` of a read is the level of `D[i]`, zero-extended (R118). -/
theorem readData_getLsbD {levels : List Bool} (h : levels.length ≤ 8) (i : Nat) :
    (readData levels).getLsbD i = levels.getD i false := by
  rw [readData, if_pos h, BitVec.getLsbD_ofNat, levelsValue_testBit]
  by_cases hi : i < 8
  · simp [hi]
  · simp [hi, List.getElem?_eq_none (Nat.le_trans h (Nat.le_of_not_lt hi))]

/-- Settles O30: the busy flag is the bit of the last line. -/
theorem readDataBits : Obligations.ReadDataBits := by
  refine fun levels h => ⟨readData_getLsbD h, fun b hb => ?_⟩
  rw [busyFlag, readData_getLsbD (by simpa using hb)]
  simp

/-! ### Times -/

theorem totalDelay_append (xs ys : List Event) : totalDelay (xs ++ ys) = totalDelay xs + totalDelay ys := by
  induction xs with
  | nil => simp [totalDelay]
  | cons ev xs ih => cases ev <;> simp [totalDelay, ih, Nat.add_assoc]

/-- Events of pins take no time that the engine asks for (R8). -/
theorem totalDelay_eq_zero {evs : List Event} (h : ∀ ev ∈ evs, eventPin ev ≠ none) : totalDelay evs = 0 := by
  induction evs with
  | nil => rfl
  | cons ev evs ih =>
    have hrest := ih fun e he => h e (by simp [he])
    cases ev with
    | delay us => exact absurd rfl (h (.delay us) (by simp))
    | _ => exact hrest

theorem totalDelay_direction (cfg : Config) (dir : Dir) (d : Direction) : totalDelay (directionEvents cfg dir d) = 0 :=
  totalDelay_eq_zero fun ev hev => (direction_quiet cfg dir d ev hev).2

theorem totalDelay_drive (w : Nat) (level : Nat → Bool) : totalDelay (driveEvents w level) = 0 :=
  totalDelay_eq_zero fun ev hev => (drive_quiet w level ev hev).2

/-- A status read takes its two holds (R117). -/
theorem totalDelay_read (cfg : Config) (dir : Dir) (levels : List Bool) :
    totalDelay (readEvents cfg dir levels) = 2 := by
  have hsample : totalDelay (((List.range cfg.n).zip levels).map fun p => .sample (.d p.1) p.2) = 0 := by
    refine totalDelay_eq_zero fun ev hev => ?_
    obtain ⟨p, -, rfl⟩ := List.mem_map.mp hev
    simp [eventPin]
  simp [readEvents, totalDelay_append, totalDelay_direction, hsample, totalDelay]

/-- A write takes its time and the overhead of its path (R122). -/
theorem totalDelay_write (cfg : Config) (dir : Dir) (path : Path) (v : Byte) (c : Bool) (t : Nat) (levels : List Bool) :
    totalDelay (writeEvents cfg dir path v c t levels) = t + writeOverhead cfg path := by
  cases path <;> cases hr : cfg.hasRw <;>
    simp [writeEvents, transferEvents, byteEvents, totalDelay_append, totalDelay_read, totalDelay_direction,
      totalDelay_drive, totalDelay, writeOverhead, hr] <;> omega

/-- Settles O28: the new events of a write are those of `writeEvents`. -/
theorem writeTiming : Obligations.WriteTiming := by
  intro s t path v c n h hm ht
  rw [exec_write_eq h hm] at ht
  cases ht
  have hnew : newEvents s (respond .ok 0 (afterWrite v c n.toNat path s)) =
      writeEvents s.cfg s.dir path v c n.toNat s.nextLevels := List.drop_left
  rw [hnew, totalDelay_write]

/-- From one state to another with the same parameters the delays add up to `us` (R199). -/
structure Takes (s t : State) (us : Nat) : Prop where
  cfg : t.cfg = s.cfg
  events : ∃ evs, t.trace = s.trace ++ evs ∧ totalDelay evs = us

theorem Takes.trans {s t u : State} {a b : Nat} (h : Takes s t a) (k : Takes t u b) : Takes s u (a + b) := by
  obtain ⟨hcfg, xs, hx, ha⟩ := h
  obtain ⟨kcfg, ys, hy, hb⟩ := k
  exact ⟨kcfg.trans hcfg, xs ++ ys, by rw [hy, hx, List.append_assoc], by rw [totalDelay_append, ha, hb]⟩

theorem takes_write (path : Path) (v : Byte) (c : Bool) (t : Nat) (s : State) :
    Takes s (afterWrite v c t path s) (t + writeOverhead s.cfg path) :=
  ⟨rfl, _, rfl, totalDelay_write s.cfg s.dir path v c t s.nextLevels⟩

theorem Takes.totalDelay_respond {s t : State} {us : Nat} (h : Takes s t us) (st : Status) (d : Byte) :
    totalDelay (newEvents s (respond st d t)) = us := by
  obtain ⟨-, evs, he, hus⟩ := h
  rw [newEvents, respond_trace, he, List.drop_left, hus]

/-- The data bytes of a text: one write each, and a pause between two of them with the effect (R144). -/
theorem takes_text (path : Path) (typing : Bool) (t : Nat) (text : List Byte) (s : State) :
    Takes s (afterText path typing t text s)
      (text.length * (t + writeOverhead s.cfg path) + if typing then (text.length - 1) * 110000 else 0) := by
  induction text generalizing s with
  | nil => exact ⟨rfl, [], by simp [afterText], by cases typing <;> simp [totalDelay]⟩
  | cons c rest ih =>
    have hw := takes_write path c false t s
    cases rest with
    | nil => simpa [afterText] using hw
    | cons d more =>
      cases typing with
      | false =>
        have hsum := hw.trans (ih (afterWrite c false t path s))
        refine Eq.mp (congrArg _ ?_) hsum
        simp only [List.length_cons, afterWrite_cfg, Nat.add_mul, Bool.false_eq_true, if_false]
        omega
      | true =>
        have hpause (u : State) : Takes u (record (.delay 110000) u) 110000 :=
          ⟨rfl, [.delay 110000], rfl, rfl⟩
        have hsum := (hw.trans (hpause _)).trans (ih (record (.delay 110000) (afterWrite c false t path s)))
        refine Eq.mp (congrArg _ ?_) hsum
        simp only [List.length_cons, record_cfg, afterWrite_cfg, Nat.add_mul, if_true]
        omega

/-- A line write, whatever it leaves in the mirror: the address and the text (R144). -/
theorem takes_lineWrite (path : Path) (address : BitVec 7) (text : List Byte) (typing : Bool) (row1 row2 : List Byte)
    (s : State) :
    Takes s
      (afterText path typing s.cfg.table.defaultEntry.timeUs text
        { afterSetAddress path address s with row1 := row1, row2 := row2 })
      (s.cfg.table.ddramSetTimeUs + writeOverhead s.cfg path +
        (text.length * (s.cfg.table.defaultEntry.timeUs + writeOverhead s.cfg path) +
          if typing then (text.length - 1) * 110000 else 0)) := by
  have haddress : Takes s { afterSetAddress path address s with row1 := row1, row2 := row2 } _ :=
    ⟨rfl, (takes_write path (0x80 ||| address.setWidth 8) true s.cfg.table.ddramSetTimeUs s).events⟩
  exact haddress.trans (takes_text path typing _ text _)

/-- Settles O47: PUT_LINE is the line write of its line. -/
theorem putLineTiming : Obligations.PutLineTiming := by
  intro s t path line text typing h hm hl ht
  have hready : Ready path s := ⟨h, hm⟩
  have hline : line = 1 ∨ line = 2 := by simpa [legalLine] using hl
  rw [Nat.add_assoc (_ + _)]
  obtain rfl | rfl := hline
  · rw [hready.exec_putLine_one] at ht
    cases ht
    exact (takes_lineWrite path 0x00 text typing text s.row2 s).totalDelay_respond _ _
  · rw [hready.exec_putLine_two] at ht
    cases ht
    exact (takes_lineWrite path 0x40 text typing s.row1 text s).totalDelay_respond _ _

/-! ### Bytes -/

/-- A list of events puts exactly these write transactions on the bus, delays apart, from every view that agrees with an
absent Read/Write line. -/
structure Shows (cfg : Config) (evs : List Event) (ts : List Transaction) : Prop where
  writes : ∀ b : BusView, (cfg.hasRw = false → b.rw = false) →
    ((transactions b evs).map Prod.fst).filter (fun t => !t.rw) = ts
  low : ∀ b : BusView, (cfg.hasRw = false → b.rw = false) → cfg.hasRw = false → (viewThrough b evs).rw = false

theorem Sends.shows {cfg : Config} {evs : List Event} {sent : List (Transaction × Nat)} (h : Sends cfg evs sent) :
    Shows cfg evs (sent.map Prod.fst) where
  writes b hb := by
    rw [List.filter_map, ← h.writes b hb]
    rfl
  low := h.low

theorem Shows.append {cfg : Config} {xs ys : List Event} {a b : List Transaction} (h : Shows cfg xs a)
    (k : Shows cfg ys b) : Shows cfg (xs ++ ys) (a ++ b) where
  writes v hv := by rw [transactions_append_fst, List.filter_append, h.writes v hv, k.writes _ (h.low v hv)]
  low v hv hr := by rw [viewThrough_append]; exact k.low _ (h.low v hv) hr

/-- A delay is not on the bus. -/
theorem shows_delay (cfg : Config) (us : Nat) : Shows cfg [.delay us] [] := ⟨fun _ _ => rfl, fun _ h hr => h hr⟩

/-- From one state to another with the same parameters these write transactions go out, delays apart. -/
structure PutsBytes (s t : State) (ts : List Transaction) : Prop where
  cfg : t.cfg = s.cfg
  events : ∃ evs, t.trace = s.trace ++ evs ∧ Shows s.cfg evs ts

theorem Puts.bytes {s t : State} {sent : List (Transaction × Nat)} (h : Puts s t sent) :
    PutsBytes s t (sent.map Prod.fst) := by
  obtain ⟨hcfg, evs, he, hs⟩ := h
  exact ⟨hcfg, evs, he, hs.shows⟩

theorem PutsBytes.trans {s t u : State} {a b : List Transaction} (h : PutsBytes s t a) (k : PutsBytes t u b) :
    PutsBytes s u (a ++ b) := by
  obtain ⟨hcfg, xs, hx, sx⟩ := h
  obtain ⟨kcfg, ys, hy, sy⟩ := k
  rw [hcfg] at sy
  exact ⟨kcfg.trans hcfg, xs ++ ys, by rw [hy, hx, List.append_assoc], sx.append sy⟩

/-- A pause afterwards adds no byte. -/
theorem PutsBytes.pause {s t : State} {ts : List Transaction} (h : PutsBytes s t ts) (us : Nat) :
    PutsBytes s (record (.delay us) t) ts := by
  have hpause : PutsBytes t (record (.delay us) t) [] := ⟨rfl, [.delay us], rfl, shows_delay _ _⟩
  simpa using h.trans hpause

theorem PutsBytes.newWrites_respond {s t : State} {ts : List Transaction} (h : PutsBytes s t ts) (hs : s.Resting)
    (st : Status) (d : Byte) : (newWrites s (respond st d t)).map Prod.fst = ts := by
  obtain ⟨-, evs, he, hshows⟩ := h
  rw [newWrites, newTransactions, newEvents, respond_trace, he, List.drop_left, ← hshows.writes _ (viewOf_rw hs),
    List.filter_map]
  rfl

/-- The transactions of some writes, delays apart. -/
def bytesOf (n : Nat) (path : Path) (sent : List Sent) : List Transaction :=
  (sent.flatMap (sentTransactions n path)).map Prod.fst

theorem bytesOf_append (n : Nat) (path : Path) (xs ys : List Sent) :
    bytesOf n path (xs ++ ys) = bytesOf n path xs ++ bytesOf n path ys := by
  simp [bytesOf]

/-- A text as data (R83, R144). -/
def textSends (text : List Byte) : List Sent := text.map fun c => (c, false, 0)

/-- One write, its time left out. -/
theorem putsBytes_write {path : Path} {s : State} (h : Ready path s) (v : Byte) (c : Bool) (t : Nat) :
    PutsBytes s (afterWrite v c t path s) (bytesOf s.cfg.n path [(v, c, 0)]) := by
  have hw := (puts_writes_of_mode h [(v, c, t)]).bytes
  rw [flatMap_sentTransactions_fst] at hw
  exact hw

/-- The data bytes of a text, with the effect or without (R144). -/
theorem putsBytes_text {path : Path} (typing : Bool) (t : Nat) (text : List Byte) {s : State} (h : Ready path s) :
    PutsBytes s (afterText path typing t text s) (bytesOf s.cfg.n path (textSends text)) := by
  induction text generalizing s with
  | nil => exact ⟨rfl, [], by simp [afterText], fun _ _ => rfl, fun _ h hr => h hr⟩
  | cons c rest ih =>
    have hw := putsBytes_write h c false t
    have hafter : Ready path (afterWrite c false t path s) := h.afterWrites [(c, false, t)]
    have hcons : bytesOf s.cfg.n path (textSends (c :: rest)) =
        bytesOf s.cfg.n path [(c, false, 0)] ++ bytesOf s.cfg.n path (textSends rest) := bytesOf_append _ _ [_] _
    cases rest with
    | nil => exact hw
    | cons d more =>
      rw [hcons]
      cases typing with
      | false => exact hw.trans (ih hafter)
      | true =>
        have hpaused : Ready path (record (.delay 110000) (afterWrite c false t path s)) :=
          ⟨record_resting hafter.resting _, hafter.mode⟩
        exact (hw.pause 110000).trans (ih hpaused)

/-- A line write, whatever it leaves in the mirror: the address, then the text (R144). -/
theorem putsBytes_lineWrite {path : Path} {s : State} (h : Ready path s) (address : BitVec 7) (text : List Byte)
    (typing : Bool) (row1 row2 : List Byte) :
    PutsBytes s
      (afterText path typing s.cfg.table.defaultEntry.timeUs text
        { afterSetAddress path address s with row1 := row1, row2 := row2 })
      (bytesOf s.cfg.n path ((0x80 ||| address.setWidth 8, true, 0) :: textSends text)) := by
  have haddress : PutsBytes s { afterSetAddress path address s with row1 := row1, row2 := row2 } _ :=
    ⟨rfl, (putsBytes_write h (0x80 ||| address.setWidth 8) true s.cfg.table.ddramSetTimeUs).events⟩
  have hat : Ready path { afterSetAddress path address s with row1 := row1, row2 := row2 } :=
    ⟨rows_resting (afterWrite_resting h.resting _ _ _) row1 row2, h.mode⟩
  rw [← List.singleton_append, bytesOf_append]
  exact haddress.trans (putsBytes_text typing _ text hat)

section
variable {path : Path} {s : State} (h : Ready path s) (text : List Byte) (typing : Bool)
include h

theorem Ready.putsBytes_putLine1 :
    PutsBytes s (Machine.afterPutLine1 path text typing s) (bytesOf s.cfg.n path ((0x80, true, 0) :: textSends text)) :=
  putsBytes_lineWrite h 0x00 text typing text s.row2

theorem Ready.putsBytes_putLine2 :
    PutsBytes s (Machine.afterPutLine2 path text typing s) (bytesOf s.cfg.n path ((0xC0, true, 0) :: textSends text)) :=
  putsBytes_lineWrite h 0x40 text typing s.row1 text

end

/-- Settles O46: a line write puts the address of its line and its text on the bus. -/
theorem putLineBytes : Obligations.PutLineBytes := by
  intro s path text typing h hm
  have hready : Ready path s := ⟨h, hm⟩
  exact ⟨⟨_, hready.exec_putLine_one text typing, (hready.putsBytes_putLine1 text typing).newWrites_respond h _ _⟩,
    ⟨_, hready.exec_putLine_two text typing, (hready.putsBytes_putLine2 text typing).newWrites_respond h _ _⟩⟩

/-- What PUSH_LINE sends: the blanks and the old row 2 on line 1, the blanks and the text on line 2 (R147). -/
def pushSends (row2 text : List Byte) : List Sent :=
  (0x80, true, 0) :: textSends blankRow ++ (0x80, true, 0) :: textSends row2 ++ (0xC0, true, 0) :: textSends blankRow ++
    (0xC0, true, 0) :: textSends text

/-- The four line writes of PUSH_LINE, one after another (R146, R147). -/
theorem putsBytes_push {path : Path} {s : State} (h : Ready path s) (text : List Byte) (typing : Bool) :
    PutsBytes s (afterPush path text typing s) (bytesOf s.cfg.n path (pushSends s.row2 text)) := by
  have ha := h.putsBytes_putLine1 blankRow false
  have hra := h.afterPutLine1 blankRow false
  have hb := hra.putsBytes_putLine1 s.row2 false
  have hrb := hra.afterPutLine1 s.row2 false
  have hc := hrb.putsBytes_putLine2 blankRow false
  have hrc := hrb.afterPutLine2 blankRow false
  have hd := hrc.putsBytes_putLine2 text typing
  rw [hc.cfg, hb.cfg, ha.cfg] at hd
  rw [hb.cfg, ha.cfg] at hc
  rw [ha.cfg] at hb
  rw [pushSends, bytesOf_append, bytesOf_append, bytesOf_append]
  exact ((ha.trans hb).trans hc).trans hd

/-- Settles O50: PUSH_LINE is its four line writes and a pause. -/
theorem pushLineBytes : Obligations.PushLineBytes := by
  intro s path text typing h hm
  obtain ⟨hpush, -⟩ := pushLine_eq h hm text typing
  have hbytes := putsBytes_push ⟨h, hm⟩ text typing
  refine ⟨_, afterPush path text typing s, congrArg finish hpush, rfl, rfl, ?_⟩
  cases typing with
  | false => exact hbytes.newWrites_respond h _ _
  | true => exact (hbytes.pause 100000).newWrites_respond h _ _

/-- Settles O39: RESET on eight lines is its first writes and its suffix, all on the single path. -/
theorem eightLineTransactions : Obligations.EightLineTransactions := by
  intro s h hn
  refine ⟨_, exec_reset_eight h hn, ?_⟩
  rw [(puts_reset8 hn).newWrites_respond h, ← List.flatMap_append, hn]
  rfl

end Sys2Proof.Machine

/-!
PROOFS. The bus formats (`30_encoding.md` R76, R77): each is one pulse of E for each transaction its word describes,
with no closing delay; the status read samples the levels the word answers.
-/
namespace Sys2Proof.Machine

/-! ### Pulses of E -/

/-- One pulse of E around the events of a transfer, with its hold (R111 steps 4 to 6). -/
def pulse (bits : List Event) : List Event := [.set .e true] ++ bits ++ [.delay 1, .set .e false]

/-- Step 7 of a write (R111). -/
def writeModeEvents (cfg : Config) : List Event := if cfg.hasRw then [.set .rw false] else []

/-- A pulse around a drive loop is one transaction (R57). -/
theorem transactions_pulse (b : BusView) (w : Nat) (level : Nat → Bool) (rest : List Event) :
    transactions b (pulse (driveEvents w level) ++ rest) =
      (⟨b.rw, b.rs, w, linesValue ((List.range w).map fun i => (i, level i))⟩, delayBeforeRise rest) ::
        transactions { b with enabled := false, lines := [] } rest := by
  have hrise (evs : List Event) :
      transactions b (.set .e true :: evs) = transactions { b with enabled := true, lines := [] } evs := by
    simp [transactions, viewAfter]
  simp only [pulse, List.append_assoc, List.cons_append, List.nil_append]
  rw [hrise, transactions_drive]
  simp [transactions, viewAfter, closeTransaction]

/-- After the last falling edge of a format no transaction closes, and nothing waits. -/
theorem transactions_writeMode (cfg : Config) (b : BusView) : transactions b (writeModeEvents cfg) = [] := by
  cases hr : cfg.hasRw <;> simp [writeModeEvents, hr, transactions]

theorem delayBeforeRise_writeMode (cfg : Config) : delayBeforeRise (writeModeEvents cfg) = 0 := by
  cases hr : cfg.hasRw <;> simp [writeModeEvents, hr, delayBeforeRise]

/-- Steps 2 to 7 of a write: the direction, RS, the pulses of the path, and write mode (R111). -/
theorem transferEvents_eq (cfg : Config) (dir : Dir) (path : Path) (v : Byte) (rs : Bool) :
    transferEvents cfg dir path v rs = directionEvents cfg dir .driving ++
      ([.set .rs rs] ++ (pulse (byteEvents cfg.n path v) ++ writeModeEvents cfg)) := by
  simp [transferEvents, pulse, writeModeEvents]

/-- The two nibbles of the split path are two pulses, 1 µs between them (R113). -/
theorem pulse_split (n : Nat) (v : Byte) (rest : List Event) :
    pulse (byteEvents n .split v) ++ rest = pulse (driveEvents 4 fun i => v.getLsbD (4 + i)) ++
      ([.delay 1] ++ (pulse (driveEvents 4 v.getLsbD) ++ rest)) := by
  simp [byteEvents, pulse]

/-- At rest the view is in write mode once the direction is Driving (R101). -/
theorem view_driving {s : State} (h : s.Resting) :
    (viewThrough (viewOf s) (directionEvents s.cfg s.dir .driving)).rw = false := by
  rw [viewThrough_direction]
  cases hr : s.cfg.hasRw with
  | false => simpa using viewOf_rw h hr
  | true =>
    by_cases hd : s.dir = .driving
    · simp [hd, viewOf, h.writeMode hr hd, drivenLevel]
    · simp [hd]

/-- The transactions of a format are those of its pulses, in write mode and with its level of RS. -/
theorem newTransactions_transfer {s : State} (h : s.Resting) (path : Path) (v : Byte) (rs : Bool) :
    ∃ b : BusView, b.rw = false ∧ b.rs = rs ∧ newTransactions s (respond .ok 0 (afterTransfer path v rs s)) =
      transactions b (pulse (byteEvents s.cfg.n path v) ++ writeModeEvents s.cfg) := by
  have hnew : newEvents s (respond .ok 0 (afterTransfer path v rs s)) = transferEvents s.cfg s.dir path v rs :=
    List.drop_left
  have hview := view_driving h
  rw [newTransactions, hnew, transferEvents_eq,
    transactions_quiet _ _ _ fun ev hev => (direction_quiet _ _ _ ev hev).1]
  generalize viewThrough (viewOf s) (directionEvents s.cfg s.dir .driving) = c at hview ⊢
  exact ⟨{ c with rs := rs }, hview, rfl, transactions_quiet c [.set .rs rs] _ (by simp [eventPin])⟩

/-- On the single path one transaction of all lines (R76, R77). -/
theorem newTransactions_single {s : State} (h : s.Resting) (hn : s.cfg.n = 4 ∨ s.cfg.n = 8) (v : Byte) (rs : Bool) :
    newTransactions s (respond .ok 0 (afterTransfer .single v rs s)) =
      [(⟨false, rs, s.cfg.n, v.toNat % 2 ^ s.cfg.n⟩, 0)] := by
  obtain ⟨b, hrw, hrs, hnew⟩ := newTransactions_transfer h .single v rs
  rw [hnew, byteEvents, transactions_pulse, transactions_writeMode, delayBeforeRise_writeMode, hrw, hrs,
    linesValue_byte v hn]

/-- On the split path two transactions of four lines, 1 µs between them (R77). -/
theorem newTransactions_split {s : State} (h : s.Resting) (v : Byte) (rs : Bool) :
    newTransactions s (respond .ok 0 (afterTransfer .split v rs s)) =
      [(⟨false, rs, 4, v.toNat / 16⟩, 1), (⟨false, rs, 4, v.toNat % 16⟩, 0)] := by
  obtain ⟨b, hrw, hrs, hnew⟩ := newTransactions_transfer h .split v rs
  have hlow := linesValue_byte v (w := 4) (.inl rfl)
  have hwait (rest : List Event) : delayBeforeRise ([.delay 1] ++ (pulse (driveEvents 4 v.getLsbD) ++ rest)) = 1 := by
    simp [pulse, delayBeforeRise]
  rw [hnew, pulse_split, transactions_pulse, hwait, transactions_quiet _ [.delay 1] _ (by simp [eventPin]),
    transactions_pulse, transactions_writeMode, delayBeforeRise_writeMode, linesValue_high, hlow]
  simp [viewAfter, hrw, hrs]

/-- The nibbles of a byte put together (R53). -/
theorem append_nibbles (high low : Nibble) :
    (high ++ low : Byte).toNat / 16 = high.toNat ∧ (high ++ low : Byte).toNat % 16 = low.toNat := by
  have hlow := low.isLt
  have hvalue : (high ++ low : Byte).toNat = 16 * high.toNat + low.toNat := by
    rw [BitVec.toNat_append, ← Nat.shiftLeft_add_eq_or_of_lt hlow, Nat.shiftLeft_eq, Nat.mul_comm]
  omega

/-- Settles O52: the pulses carry the word's bits. -/
theorem busFormatResults : Obligations.BusFormatResults := by
  refine fun s h => ⟨fun hn rs v => ?_, fun hn rs high low => ?_, fun hn v => ?_⟩
  · have hexec : exec (.busB8 rs v) s = finish (transferByte .single v rs s) := if_pos hn
    refine ⟨_, hexec.trans (congrArg finish (transferByte_eq h (by simp) v rs)), rfl, ?_⟩
    rw [newTransactions_single h (.inr hn), hn, Nat.mod_eq_of_lt v.isLt]
  · have hexec : exec (.busB4 rs high low) s = finish (transferByte .split (high ++ low) rs s) := if_pos hn
    refine ⟨_, hexec.trans (congrArg finish (transferByte_eq h (fun _ => hn) (high ++ low) rs)), rfl, ?_⟩
    obtain ⟨hhigh, hlow⟩ := append_nibbles high low
    rw [newTransactions_split h, hhigh, hlow]
  · have hexec : exec (.busR4 v) s = finish (transferByte .single (v.setWidth 8) false s) := if_pos hn
    refine ⟨_, hexec.trans (congrArg finish (transferByte_eq h (by simp) _ false)), rfl, ?_⟩
    have hvalue : (v.setWidth 8).toNat % 2 ^ 4 = v.toNat := by
      have hv := v.isLt
      rw [BitVec.toNat_setWidth]
      omega
    rw [newTransactions_single h (.inl hn), hn, hvalue]

/-! ### The status read -/

/-- The environment answers what it has ready first (R60). -/
theorem answers_append (levels rest : List Bool) (drawn : Nat) :
    answers levels.length (levels ++ rest) drawn = levels := by
  induction levels with
  | nil => rfl
  | cons b levels ih => simp [answers, ih]

theorem answeredLevels_length {n : Nat} (hn : n ≤ 8) (w : Byte) : (answeredLevels n w).length = n := by
  simp [answeredLevels, hn]

theorem levelsValue_concat (levels : List Bool) (b : Bool) :
    levelsValue (levels ++ [b]) = levelsValue levels + b.toNat * 2 ^ levels.length := by
  induction levels with
  | nil => simp [levelsValue]
  | cons c levels ih =>
    simp only [List.cons_append, levelsValue, ih, List.length_cons, Nat.pow_succ]
    ring

/-- The number on lines taken in order is that of their levels (R57). -/
theorem linesValue_zip_range (n : Nat) (f : Nat → Bool) :
    linesValue ((List.range n).zip ((List.range n).map f)) = levelsValue ((List.range n).map f) := by
  have hzip : (List.range n).zip ((List.range n).map f) = (List.range n).map fun i => (i, f i) := by
    simpa using List.zip_map' (f := id) (g := f) (l := List.range n)
  have hsum (m : Nat) : linesValue ((List.range m).map fun i => (i, f i)) = levelsValue ((List.range m).map f) := by
    induction m with
    | zero => rfl
    | succ m ih =>
      rw [List.range_succ, List.map_append, List.map_append, List.map_singleton, List.map_singleton, levelsValue_concat,
        ← ih]
      simp [linesValue]
  rw [hzip, hsum]

/-- The levels the word answers are its low bits (R77, R118). -/
theorem levelsValue_answered {n : Nat} (hn : n ≤ 8) (w : Byte) :
    levelsValue (answeredLevels n w) = w.toNat % 2 ^ n := by
  refine Nat.eq_of_testBit_eq fun i => ?_
  rw [levelsValue_testBit, Nat.testBit_mod_two_pow, answeredLevels, Nat.min_eq_left hn]
  by_cases hi : i < n <;> simp [hi, BitVec.getLsbD]

/-- A read of the answered levels has the word's low bits as its data (R118). -/
theorem readData_answered {n : Nat} (hn : n ≤ 8) (w : Byte) :
    readData (answeredLevels n w) = BitVec.ofNat 8 (w.toNat % 2 ^ n) := by
  rw [readData, if_pos (by rw [answeredLevels_length hn]; exact hn), levelsValue_answered hn]

/-- The state in which the far side has answered a word to the next status read (R77). -/
def withAnswer (w : Byte) (s : State) : State := { s with inputs := answeredLevels s.cfg.n w ++ s.inputs }

theorem withAnswer_resting {s : State} (h : s.Resting) (w : Byte) : (withAnswer w s).Resting := by
  obtain ⟨h1, h2, h3, h4, h5, h6, h7, h8, h9, h10, h11⟩ := h
  exact ⟨h1, h2, h3, h4, h5, h6, h7, h8, h9, h10, h11⟩

/-- The next status read samples the answered word. -/
theorem withAnswer_nextLevels {s : State} (hn : s.cfg.n ≤ 8) (w : Byte) :
    (withAnswer w s).nextLevels = answeredLevels s.cfg.n w := by
  have h := answers_append (answeredLevels s.cfg.n w) s.inputs s.drawn
  rw [answeredLevels_length hn] at h
  exact h

/-- BUS.ST from rest (R77, R117). -/
theorem exec_busSt_eq {s : State} (h : s.Resting) (hr : s.cfg.hasRw = true) (w : Byte) :
    exec (.busSt w) s =
      .next (respond .ok (readData (withAnswer w s).nextLevels) (afterRead (withAnswer w s))) := by
  have hexec : exec (.busSt w) s = finishRead (readCore (withAnswer w s)) := if_pos hr
  rw [hexec, readCore_eq (withAnswer_resting h w) hr]
  rfl

/-- Settles O53: the read samples the answered levels, which are all it takes from the environment. -/
theorem busStatusResult : Obligations.BusStatusResult := by
  intro s w h hr hn
  refine ⟨_, exec_busSt_eq h hr w, ?_, ?_, ?_⟩
  · rw [withAnswer_nextLevels hn, readData_answered hn]
    rfl
  · exact List.drop_left' (answeredLevels_length hn w)
  · have hnew (d : Byte) : newEvents s (respond .ok d (afterRead (withAnswer w s))) =
        readEvents s.cfg s.dir (withAnswer w s).nextLevels := List.drop_left
    have hlevels : answeredLevels s.cfg.n w = (List.range s.cfg.n).map w.getLsbD := by
      rw [answeredLevels, Nat.min_eq_left hn]
    have hread := transactions_read (cfg := s.cfg) (dir := s.dir) (b := viewOf s) (answeredLevels s.cfg.n w) []
    rw [List.append_nil, hlevels, linesValue_zip_range, ← hlevels, levelsValue_answered hn] at hread
    rw [newTransactions, hnew, withAnswer_nextLevels hn, hread]
    simp [answeredLevels_length hn, delayBeforeRise, transactions]

end Sys2Proof.Machine

/-!
PROOFS. The sampled levels steer nothing (`41_transfer.md` R112, R118). A procedure is blind when it does the same, but
for the samples, in a state and in the state with the samples forgotten; the pin primitives are, and sequences of blind
procedures are.
-/
namespace Sys2Proof.Machine

/-! ### States with the samples forgotten -/

theorem hideSamples_append (xs ys : List Event) : hideSamples (xs ++ ys) = hideSamples xs ++ hideSamples ys :=
  List.map_append

@[simp] theorem hideSamples_hideSamples (evs : List Event) : hideSamples (hideSamples evs) = hideSamples evs := by
  simp only [hideSamples, List.map_map]
  refine List.map_congr_left fun ev _ => ?_
  cases ev <;> rfl

@[simp] theorem withoutSamples_withoutSamples (s : State) : s.withoutSamples.withoutSamples = s.withoutSamples := by
  simp [State.withoutSamples]

/-- A state function that does the same but for the samples when they are forgotten before. -/
def BlindUpdate (g : State → State) : Prop := ∀ s, (g s).withoutSamples = (g s.withoutSamples).withoutSamples

theorem blindUpdate_record (ev : Event) : BlindUpdate (record ev) := fun s => by
  simp [State.withoutSamples, record, hideSamples_append]

theorem blindUpdate_putPin (p : Pin) (x : PinState) : BlindUpdate (putPin p x) := fun s => by
  cases p <;> simp [State.withoutSamples]

theorem blindUpdate_setDir (d : Dir) : BlindUpdate (setDir d) := fun s => by
  simp [State.withoutSamples, setDir]

theorem blindUpdate_setMode (m : Mode) : BlindUpdate (setMode m) := fun s => by
  simp [State.withoutSamples, setMode]

theorem blindUpdate_setRow (line : Byte) (text : List Byte) : BlindUpdate (setRow line text) := fun s => by
  unfold setRow
  split
  · simp [State.withoutSamples]
  · split <;> simp [State.withoutSamples]

theorem BlindUpdate.comp {f g : State → State} (hf : BlindUpdate f) (hg : BlindUpdate g) :
    BlindUpdate fun s => f (g s) :=
  fun s => by rw [hf, hg, ← hf]

theorem blindUpdate_id : BlindUpdate fun s => s := fun s => (withoutSamples_withoutSamples s).symm

theorem blindUpdate_delay (us : Nat) : BlindUpdate (delay us) := blindUpdate_record _

theorem blindUpdate_configureOutputs (is : List Nat) : BlindUpdate (configureOutputs is) := by
  induction is with
  | nil => exact blindUpdate_id
  | cons i is ih => exact ih.comp ((blindUpdate_record _).comp (blindUpdate_putPin (.d i) _))

theorem blindUpdate_pinCfgIn (p : Pin) : BlindUpdate (pinCfgIn p) := fun s =>
  (blindUpdate_record _).comp (blindUpdate_putPin p (.input (releasedPull s.cfg))) s

theorem blindUpdate_configureInputs (is : List Nat) : BlindUpdate (configureInputs is) := by
  induction is with
  | nil => exact blindUpdate_id
  | cons i is ih => exact ih.comp (blindUpdate_pinCfgIn (.d i))

/-- A sample loop leaves one sample a line, whatever the levels (R117). -/
theorem blindUpdate_sampleLines (is : List Nat) : BlindUpdate fun s => (sampleLines is s).2 := by
  have hhide (levels : List Bool) (hl : levels.length = is.length) :
      hideSamples ((is.zip levels).map fun p => .sample (.d p.1) p.2) = is.map fun i => .sample (.d i) false := by
    have hfst : hideSamples ((is.zip levels).map fun p => .sample (.d p.1) p.2) =
        ((is.zip levels).map Prod.fst).map fun i => .sample (.d i) false := by
      simp [hideSamples]
    rw [hfst, List.map_fst_zip (Nat.le_of_eq hl.symm)]
  intro s
  simp [sampleLines_eq, State.withoutSamples, hideSamples_append, hhide]

/-! ### Procedures -/

/-- The result of a procedure with the samples forgotten. -/
def seen : Result State → Result State
  | .ok s => .ok s.withoutSamples
  | .error (.raise e s) => .error (.raise e s.withoutSamples)
  | .error (.fault f) => .error (.fault f)

/-- A procedure that does the same but for the samples when they are forgotten before. -/
def Blind (f : State → Result State) : Prop := ∀ s, seen (f s) = seen (f s.withoutSamples)

theorem Blind.eq_of_alike {f : State → Result State} (h : Blind f) {s t : State}
    (hst : s.withoutSamples = t.withoutSamples) : seen (f s) = seen (f t) := by
  rw [h s, hst, ← h t]

theorem blind_raise (e : Error) : Blind fun s => .error (.raise e s) :=
  fun s => congrArg (fun t => Except.error (Stop.raise e t)) (withoutSamples_withoutSamples s).symm

/-- What a sequence does depends only on what is seen of its first step. -/
theorem Blind.seen_bind {g : State → Result State} (hg : Blind g) (r : Result State) :
    seen (r >>= g) = seen (seen r >>= g) := by
  rcases r with (⟨e, t⟩ | k) | t
  · exact blind_raise e t
  · rfl
  · exact hg t

theorem Blind.bind {f g : State → Result State} (hf : Blind f) (hg : Blind g) : Blind fun s => f s >>= g :=
  fun s => by rw [hg.seen_bind, hf s, ← hg.seen_bind]

theorem Blind.comp {f : State → Result State} {g : State → State} (hf : Blind f) (hg : BlindUpdate g) :
    Blind fun s => f (g s) :=
  fun s => hf.eq_of_alike (hg s)

theorem BlindUpdate.blind {g : State → State} (h : BlindUpdate g) : Blind fun s => .ok (g s) :=
  fun s => congrArg Except.ok (h s)

/-- A test that does not read the samples. -/
theorem Blind.ite {c : State → Prop} [DecidablePred c] (hc : ∀ s, c s.withoutSamples ↔ c s) {f g : State → Result State}
    (hf : Blind f) (hg : Blind g) : Blind fun s => if c s then f s else g s := by
  intro s
  simp only [hc]
  split
  · exact hf s
  · exact hg s

theorem blind_pinSet (p : Pin) (v : Bool) : Blind (pinSet p v) := by
  have hpin (s : State) : pinState p s.withoutSamples = pinState p s := by cases p <;> rfl
  intro s
  simp only [pinSet, hpin]
  split
  · exact congrArg Except.ok ((blindUpdate_record _).comp (blindUpdate_putPin p _) s)
  · rfl

theorem blind_driveLines (level : Nat → Bool) (is : List Nat) : Blind (driveLines level is) := by
  induction is with
  | nil => exact blindUpdate_id.blind
  | cons i is ih => exact (blind_pinSet (.d i) (level i)).bind ih

theorem blind_setReadWrite (v : Bool) : Blind (setReadWrite v) :=
  .ite (fun _ => .rfl) (blind_pinSet .rw v) blindUpdate_id.blind

theorem blind_setDirection (d : Direction) : Blind (setDirection d) := by
  refine .ite (fun _ => .rfl) blindUpdate_id.blind ?_
  cases d with
  | driving =>
    refine (blind_setReadWrite false).bind (BlindUpdate.blind fun s => ?_)
    exact (blindUpdate_setDir _).comp (blindUpdate_configureOutputs (dataLines s.cfg)) s
  | released =>
    refine Blind.bind (f := fun s => setReadWrite true (configureInputs (dataLines s.cfg) s)) (fun s => ?_)
      (blindUpdate_setDir _).blind
    exact (blind_setReadWrite true).comp (blindUpdate_configureInputs (dataLines s.cfg)) s

/-- The status read, its levels forgotten (R117). -/
theorem blind_readCore : Blind fun s => (readCore s).map Prod.snd := by
  have hsample : Blind fun s => pinSet .e false (sampleLines (dataLines s.cfg) (delay holdUs s)).2 := fun s =>
    ((blind_pinSet .e false).comp (blindUpdate_sampleLines (dataLines s.cfg))).comp (blindUpdate_delay holdUs) s
  simp only [readCore_map_snd]
  exact (blind_setDirection .released).bind <| (blind_pinSet .rw true).bind <| (blind_pinSet .rs false).bind <|
    (blind_pinSet .e true).bind <| hsample.bind (blindUpdate_delay holdUs).blind

theorem blind_busyCheck : Blind busyCheck := by
  have heq : busyCheck = fun s => if s.cfg.hasRw then (readCore s).map Prod.snd >>= pinSet .rw false else .ok s := by
    funext s
    split
    · exact busyCheck_eq_bind ‹_›
    · exact if_neg ‹_›
  rw [heq]
  exact .ite (fun _ => .rfl) (blind_readCore.bind (blind_pinSet .rw false)) blindUpdate_id.blind

theorem blind_driveByte (path : Path) (v : Byte) : Blind (driveByte path v) := by
  cases path with
  | single => exact fun s => blind_driveLines v.getLsbD (dataLines s.cfg) s
  | split =>
    exact (blind_driveLines _ _).bind <| ((blind_pinSet .e false).comp (blindUpdate_delay holdUs)).bind <|
      ((blind_pinSet .e true).comp (blindUpdate_delay holdUs)).bind (blind_driveLines _ _)

theorem blind_transferByte (path : Path) (v : Byte) (rs : Bool) : Blind (transferByte path v rs) :=
  (blind_setDirection .driving).bind <| (blind_pinSet .rs rs).bind <| (blind_pinSet .e true).bind <|
    (blind_driveByte path v).bind <| ((blind_pinSet .e false).comp (blindUpdate_delay holdUs)).bind
      (blind_setReadWrite false)

theorem blind_writeCore (v : Byte) (c : Bool) (t : Nat) (path : Path) : Blind (writeCore v c t path) :=
  blind_busyCheck.bind <| (blind_transferByte path v (rsLevel c)).bind (blindUpdate_delay (gapUs + t)).blind

theorem blind_writeByte (v : Byte) (c : Bool) (t : Nat) : Blind (writeByte v c t) := by
  intro s
  have hmode : s.withoutSamples.mode = s.mode := rfl
  cases hm : s.mode with
  | unset => simp only [writeByte, hmode, hm]; exact blind_raise _ s
  | eightBit => simp only [writeByte, hmode, hm]; exact blind_writeCore v c t .single s
  | fourBit => simp only [writeByte, hmode, hm]; exact blind_writeCore v c t .split s

theorem blind_issueEntry (key : CmdKey) : Blind (issueEntry key) := fun s =>
  blind_writeByte (tableEntry s.cfg.table key).value true (tableEntry s.cfg.table key).timeUs s

theorem blind_setAddress (address : BitVec 7) : Blind (setAddress address) := fun s =>
  blind_writeByte (ddramByte s.cfg.table address) true (tableEntry s.cfg.table .ddramSet).timeUs s

theorem blind_startDisplay : Blind startDisplay := (blind_issueEntry .displayOn).bind (blind_issueEntry .cursorHome)

theorem blind_resetSuffix : Blind resetSuffix :=
  (blind_issueEntry .displayOff).bind <| (blind_issueEntry .displayClear).bind (blind_issueEntry .modeAutoinc)

theorem blind_resetDisplay : Blind resetDisplay := by
  have hfuncsel8 : Blind fun s => writeCore (tableEntry s.cfg.table .funcsel8Bit).value true
      (tableEntry s.cfg.table .funcsel8Bit).timeUs .single s := fun s => blind_writeCore _ true _ .single s
  have hfuncsel4 : Blind fun s => writeCore (tableEntry s.cfg.table .funcsel4Bit).value true
      (tableEntry s.cfg.table .funcsel4Bit).timeUs s.cfg.funcsel4Path s := fun s =>
    blind_writeCore _ true _ s.cfg.funcsel4Path s
  have hprefix8 : Blind resetPrefix8 := (blind_writeCore _ true _ .single).bind <|
    (blind_writeCore _ true _ .single).bind <| (blind_writeCore _ true _ .single).bind <|
    hfuncsel8.bind (blindUpdate_setMode .eightBit).blind
  have hprefix4 : Blind resetPrefix4 := (blind_writeCore _ true _ .single).bind <|
    (blind_writeCore _ true _ .single).bind <| (blind_writeCore _ true _ .single).bind <|
    (blind_writeCore _ true _ .single).bind <| hfuncsel4.bind (blindUpdate_setMode .fourBit).blind
  exact .ite (fun _ => .rfl) (hprefix8.bind blind_resetSuffix) <|
    .ite (fun _ => .rfl) (hprefix4.bind blind_resetSuffix) (blind_raise _)

theorem blind_setLine (line : Byte) : Blind (setLine line) := by
  intro s
  unfold setLine
  split
  · exact blind_raise _ s
  · exact blind_setAddress _ s

theorem blindUpdate_typingPause (typing : Bool) (rest : List Byte) : BlindUpdate (typingPause typing rest) := by
  intro s
  unfold typingPause
  split
  · exact blindUpdate_delay _ s
  · exact blindUpdate_id s

theorem blind_writeText (typing : Bool) (text : List Byte) : Blind (writeText typing text) := by
  induction text with
  | nil => exact blindUpdate_id.blind
  | cons c rest ih =>
    have hwrite : Blind fun s => writeByte c false (dataUs s.cfg.table) s := fun s => blind_writeByte c false _ s
    exact hwrite.bind (ih.comp (blindUpdate_typingPause typing rest))

theorem blind_putLine (line : Byte) (text : List Byte) (typing : Bool) : Blind (putLine line text typing) :=
  (blind_setLine line).bind ((blind_writeText typing text).comp (blindUpdate_setRow line text))

theorem blind_pushLine (text : List Byte) (typing : Bool) : Blind (pushLine text typing) := by
  have hrow2 : Blind fun s => putLine 1 s.row2 false s := fun s => blind_putLine 1 s.row2 false s
  have hpause : BlindUpdate fun s => if typing then delayMs pushMs s else s := by
    cases typing
    · exact blindUpdate_id
    · exact blindUpdate_delay _
  exact (blind_putLine 1 blankRow false).bind <| hrow2.bind <| (blind_putLine 2 blankRow false).bind <|
    (blind_putLine 2 text typing).bind hpause.blind

/-! ### Instructions -/

/-- The outcome of an instruction with the samples forgotten. -/
def seenOutcome : Host.Outcome State Fault Refusal → Host.Outcome State Fault Refusal
  | .next t => .next t.withoutSamples
  | .fault f => .fault f
  | .refused m => .refused m

/-- An instruction that does the same but for the samples when they are forgotten before. -/
def BlindExec (g : State → Host.Outcome State Fault Refusal) : Prop :=
  ∀ s, seenOutcome (g s) = seenOutcome (g s.withoutSamples)

theorem Blind.finish {f : State → Result State} (h : Blind f) : BlindExec fun s => finish (f s) := by
  have hseen (r : Result State) : seenOutcome (Machine.finish r) = Machine.finish (seen r) := by
    rcases r with (⟨e, t⟩ | k) | t <;> rfl
  intro s
  rw [hseen, hseen, h s]

/-- A format that needs other lines than there may be (R76, R77, R80). -/
theorem BlindExec.ite {c : State → Prop} [DecidablePred c] (hc : ∀ s, c s.withoutSamples ↔ c s)
    {g : State → Host.Outcome State Fault Refusal} (h : BlindExec g) (m : Refusal) :
    BlindExec fun s => if c s then g s else .refused m := by
  intro s
  simp only [hc]
  split
  · exact h s
  · rfl

/-- Every instruction but the two status reads is blind. -/
theorem exec_blind {i : Instr} (hread : i ≠ .read) (hst : ∀ w, i ≠ .busSt w) : BlindExec (exec i) := by
  have hn (k : Nat) (s : State) : s.withoutSamples.cfg.n = k ↔ s.cfg.n = k := .rfl
  cases i with
  | setDirection d => exact (blind_setDirection d).finish
  | write v c n => exact (blind_writeByte v c n.toNat).finish
  | read => exact absurd rfl hread
  | reset => exact blind_resetDisplay.finish
  | command k => exact (blind_issueEntry k).finish
  | start => exact blind_startDisplay.finish
  | clear => exact (blind_issueEntry .displayClear).finish
  | setLine line => exact (blind_setLine line).finish
  | putLine line text typing => exact (blind_putLine line text typing).finish
  | clearLine line => exact (blind_putLine line blankRow false).finish
  | pushLine text typing => exact (blind_pushLine text typing).finish
  | cmdDefault v => exact fun s => (blind_writeByte v true (tableEntry s.cfg.table .default).timeUs).finish s
  | cmdDisplayOn => exact (blind_issueEntry .displayOn).finish
  | cmdDisplayOff => exact (blind_issueEntry .displayOff).finish
  | cmdDisplayClear => exact (blind_issueEntry .displayClear).finish
  | cmdCursorHome => exact (blind_issueEntry .cursorHome).finish
  | cmdModeAutoinc => exact (blind_issueEntry .modeAutoinc).finish
  | cmdFuncsel8Bit => exact (blind_issueEntry .funcsel8Bit).finish
  | cmdFuncsel4Bit => exact (blind_issueEntry .funcsel4Bit).finish
  | cmdDdramSet address => exact (blind_setAddress address).finish
  | rawReset8 r => exact .ite (hn 8) (blind_writeCore _ true _ .single).finish _
  | rawReset4Three r => exact .ite (hn 4) (blind_writeCore _ true _ .single).finish _
  | rawReset4Two r => exact .ite (hn 4) (blind_writeCore _ true _ .single).finish _
  | busB8 rs v => exact .ite (hn 8) (blind_transferByte .single v rs).finish _
  | busB4 rs high low => exact .ite (hn 4) (blind_transferByte .split _ rs).finish _
  | busR4 v => exact .ite (hn 4) (blind_transferByte .single _ false).finish _
  | busSt w => exact absurd rfl (hst w)

/-- Settles O18: two states that differ in the environment only are one state with the samples forgotten. -/
theorem samplesDoNotSteer : Obligations.SamplesDoNotSteer := by
  intro i s t xs k hread hst ht
  have hblind := exec_blind hread hst
  have hsame : seenOutcome (exec i { s with inputs := xs, drawn := k }) = .next t.withoutSamples := by
    rw [hblind { s with inputs := xs, drawn := k }]
    have hs := hblind s
    rw [ht] at hs
    exact hs.symm
  cases hu : exec i { s with inputs := xs, drawn := k } with
  | next u =>
    rw [hu] at hsame
    exact ⟨u, rfl, Host.Outcome.next.inj hsame⟩
  | fault f => simp [hu, seenOutcome] at hsame
  | refused m => simp [hu, seenOutcome] at hsame

end Sys2Proof.Machine
